-- ==== Sys2Proof/Word.lean ====
section
/-!
DEFINITION. The plain value types of the model and their simplest arithmetic.

A register is `W` bits wide and `W` is a parameter of the tile (00_scope R8), so a register value is held as the
unsigned number it stands for, a `Nat` below `2 ^ W`; arithmetic is exact and wraps only where a rule writes `wrapW`
(00_scope R10). DESIGN CHOICE, safe: notes/assumptions/1.md.
-/

namespace Sys2Proof

/-- One byte of memory or of a packet. -/
abbrev Byte := BitVec 8

/-- A NoC address: 64 bits, `{core, ep, off}` (20_memory R104). -/
abbrev NocAddress := BitVec 64

/-- `v mod 2 ^ width` (00_scope R10). -/
def wrap (width v : Nat) : Nat := v % 2 ^ width

/-- Bits `lo .. lo + width - 1` of `v`, as an unsigned number (00_scope R10). -/
def bits (v lo width : Nat) : Nat := v / 2 ^ lo % 2 ^ width

end Sys2Proof
end

