-- ==== Sys2Proof/Config.lean ====
section
/-!
DEFINITION. The implementation parameters of one tile (00_scope R7, R8).

The parameters are fixed for a run; a tile holds its own record of them. MODE and the number of tiles, NUM_TILES, belong to
the whole system and stand in `Machine.State`; `Config.systemValid` holds the constraints that involve NUM_TILES. The
latencies of R8 and R512 are left out: no rule depends on them. The free choice of the environment, `Config.freeTurn`, is
declared beside the type of its values, in Machine/State.lean.
-/

namespace Sys2Proof

/-- The seven opcodes (30_encoding R154). -/
inductive Opcode where
  | idle | send | reply | read | write | incReadPtr | wakeupCore
  deriving DecidableEq, Repr, Inhabited

/-- Every opcode, in the order of the opcode map (30_encoding R154). -/
def Opcode.all : List Opcode := [.idle, .send, .reply, .read, .write, .incReadPtr, .wakeupCore]

/-- `OPCODE_VALUE` (00_scope R8, decision D1). -/
structure OpcodeValues where
  idle : Nat := 0
  send : Nat := 1
  reply : Nat := 2
  read : Nat := 3
  write : Nat := 4
  incReadPtr : Nat := 5
  wakeupCore : Nat := 6
  deriving DecidableEq, Repr, Inhabited

/-- The numeric value of an opcode. -/
def OpcodeValues.of (v : OpcodeValues) : Opcode → Nat
  | .idle => v.idle
  | .send => v.send
  | .reply => v.reply
  | .read => v.read
  | .write => v.write
  | .incReadPtr => v.incReadPtr
  | .wakeupCore => v.wakeupCore

/-- The parameters of one tile (00_scope R8), each under the manual's name. -/
structure Config where
  /-- `W`, the register width in bits. -/
  W : Nat
  /-- `OPCODE_BITS`. -/
  opcodeBits : Nat
  /-- `EPID_BITS`. -/
  epidBits : Nat
  /-- `NUM_ENDPOINTS`. -/
  numEndpoints : Nat
  /-- `OPCODE_VALUE`. -/
  opcodeValue : OpcodeValues
  /-- `MEM_EP`, the reserved memory endpoint. -/
  memEp : Nat
  /-- `MEM_CORE_ID`. -/
  memCoreId : Nat
  /-- `MEM_BASE`. -/
  memBase : Nat
  /-- `MEM_SIZE`. -/
  memSize : Nat
  /-- `INBOUND_WINDOW_EP`, the endpoint that validates inbound memory requests. -/
  inboundWindowEp : Nat
  /-- `OWN_CORE_ID`. -/
  ownCoreId : Nat
  /-- `REG_BASE`, the base of the register window. -/
  regBase : Nat
  /-- `NOC_CORE_BITS`. -/
  nocCoreBits : Nat
  /-- `NOC_EP_BITS`. -/
  nocEpBits : Nat
  /-- `NOC_OFFSET_BITS`. -/
  nocOffsetBits : Nat
  /-- `BUF_SIZE`, the chunk size of the transfer unit. -/
  bufSize : Nat
  /-- `BUF_COUNT`, the number of its buffers. -/
  bufCount : Nat
  /-- `MAX_NOC_PACKET_SIZE`. -/
  maxNocPacketSize : Nat
  /-- `LOCAL_MEM_SIZE`. -/
  localMemSize : Nat
  /-- `CPU_ATTACHED`. -/
  cpuAttached : Bool
  /-- `FORWARDS` as address ranges `[lo, hi)`: the platform's predicate is true on their union. -/
  forwards : List (Nat × Nat)
  /-- `EXTERNAL_ERRORS_AS_DENIAL`. -/
  externalErrorsAsDenial : Bool
  deriving DecidableEq, Repr, Inhabited

/-- `HEADER_SIZE`, whose constraint in R8 is "16 under D18". -/
abbrev headerSize : Nat := 16

namespace Config

/-- The default parameters of the tile with core id `core` (00_scope R8, decision D52). -/
def default (core : Nat) : Config where
  W := 64
  opcodeBits := 3
  epidBits := 8
  numEndpoints := 8
  opcodeValue := {}
  memEp := 7
  memCoreId := core
  memBase := 0
  memSize := 0x100000
  inboundWindowEp := 7
  ownCoreId := core
  regBase := 0xF0000000
  nocCoreBits := 8
  nocEpBits := 8
  nocOffsetBits := 48
  bufSize := 64
  bufCount := 4
  maxNocPacketSize := 1024
  localMemSize := 0x100000
  cpuAttached := true
  forwards := [(0, 2 ^ 64)]
  externalErrorsAsDenial := false

/-- `WB = W / 8`. -/
def WB (c : Config) : Nat := c.W / 8

/-- `wrapW` (00_scope R10). -/
def wrapW (c : Config) (v : Nat) : Nat := wrap c.W v

/-- `REGFILE_WORDS` (10_state R31). -/
def regfileWords (c : Config) : Nat := 16 * (c.numEndpoints + 1)

/-- `REGFILE_BYTES` (20_memory R102). -/
def regfileBytes (c : Config) : Nat := c.regfileWords * c.WB

/-- `a` lies in the register window (20_memory R102). -/
def inWindow (c : Config) (a : Nat) : Bool :=
  decide (c.regBase ≤ a) && decide (a < c.regBase + c.regfileBytes)

/-- The platform routes a CPU access at `a`, outside the window, to the DTU (`FORWARDS`, decision D53). -/
def forwardsAddr (c : Config) (a : Nat) : Bool :=
  c.forwards.any fun r => decide (r.1 ≤ a) && decide (a < r.2)

/-- The constraints of 00_scope R8. `OPCODE_BITS + EPID_BITS <= W` is not among them: R9 makes its failure a run-time
error. -/
def valid (c : Config) : Bool :=
  decide (c.W % 8 = 0) && decide (32 ≤ c.W) && decide (3 ≤ c.opcodeBits) && decide (1 ≤ c.epidBits)
    && decide (1 ≤ c.numEndpoints) && decide (c.numEndpoints ≤ 2 ^ c.nocEpBits)
    && (Opcode.all.all fun o => decide (c.opcodeValue.of o < 2 ^ c.opcodeBits))
    && decide ((Opcode.all.map c.opcodeValue.of).Nodup)
    && decide (c.memEp < c.numEndpoints) && decide (c.inboundWindowEp < c.numEndpoints)
    && decide (c.memCoreId < 2 ^ c.W) && decide (c.memBase < 2 ^ c.W) && decide (c.memSize < 2 ^ c.W)
    && decide (c.ownCoreId < 2 ^ c.nocCoreBits)
    && decide (c.regBase % c.WB = 0)
    && decide (c.nocCoreBits + c.nocEpBits + c.nocOffsetBits = 64)
    && decide (1 ≤ c.bufSize) && decide (1 ≤ c.bufCount)
    && decide (headerSize ≤ c.maxNocPacketSize) && decide (c.localMemSize ≤ 2 ^ c.W)

/-- The constraints of 00_scope R8 on a system whose tiles have these parameters, NUM_TILES being their number: those of each
tile, `NUM_TILES <= 2^NOC_CORE_BITS` and `OWN_CORE_ID < NUM_TILES`; the core ids are the tiles' positions (60_exceptions R452,
decision D59). -/
def systemValid (cs : List Config) : Bool :=
  (cs.all fun c => c.valid && decide (cs.length ≤ 2 ^ c.nocCoreBits) && decide (c.ownCoreId < cs.length))
    && decide (cs.map ownCoreId = List.range cs.length)

end Config

end Sys2Proof
end

