-- ==== Sys2Proof/Syntax.lean ====
section
/-!
DEFINITION. The instructions of the DTU command set: one constructor per row of spec/opcode_table.json, each with the one
operand of the command word, the endpoint id (30_encoding R150, R154).
-/

namespace Sys2Proof

/-- A decoded command: its opcode and the `epId` field. -/
inductive Instr where
  /-- IDLE (40_command_engine R211). -/
  | idle (ep : Nat)
  /-- SEND (42_message_unit R302). -/
  | send (ep : Nat)
  /-- REPLY (42_message_unit R305). -/
  | reply (ep : Nat)
  /-- READ (41_memory_unit R252). -/
  | read (ep : Nat)
  /-- WRITE (41_memory_unit R253). -/
  | write (ep : Nat)
  /-- INC_READ_PTR (40_command_engine R212). -/
  | incReadPtr (ep : Nat)
  /-- WAKEUP_CORE (40_command_engine R213). -/
  | wakeupCore (ep : Nat)
  deriving DecidableEq, Repr

end Sys2Proof
end

