-- ==== Sys2Proof/WellFormed.lean ====
section
/-!
DEFINITION. Which instructions a tile's encoding admits (30_encoding R152, R156): the endpoint id fits the epId field and
names an endpoint of the tile. A decoded instruction always passes the first check; one that fails the second is the
fatal error EPID_OUT_OF_RANGE of its dispatch (40_command_engine R210).
-/

namespace Sys2Proof

/-- The opcode of an instruction (30_encoding R154). -/
def Instr.opcode : Instr → Opcode
  | .idle _ => .idle
  | .send _ => .send
  | .reply _ => .reply
  | .read _ => .read
  | .write _ => .write
  | .incReadPtr _ => .incReadPtr
  | .wakeupCore _ => .wakeupCore

/-- The endpoint id of an instruction (30_encoding R152). -/
def Instr.ep : Instr → Nat
  | .idle e | .send e | .reply e | .read e | .write e | .incReadPtr e | .wakeupCore e => e

/-- The epId field holds the endpoint id (30_encoding R156). -/
def Instr.encodable (c : Config) (i : Instr) : Bool := decide (i.ep < 2 ^ c.epidBits)

/-- The endpoint exists (40_command_engine R210). -/
def Instr.inRange (c : Config) (i : Instr) : Bool := decide (i.ep < c.numEndpoints)

/-- A well-formed instruction of a tile with parameters `c`. -/
def Instr.wf (c : Config) (i : Instr) : Bool := i.encodable c && i.inRange c

end Sys2Proof
end

