-- ==== Sys2Proof/Decode.lean ====
section
/-!
DEFINITION. Decoding and encoding of the command word (30_encoding R150 to R156, 40_command_engine R209, R210).

The decoder is total: it answers an instruction or the name of the check the word fails, in the order of 60_exceptions
R443. The range of the endpoint id is a check of the dispatch (R210), made in `Machine.dispatchOn`.
-/

namespace Sys2Proof

/-- Why a command word is no instruction, in the order of the checks (60_exceptions R443). -/
inductive DecodeError where
  /-- `OPCODE_BITS + EPID_BITS > W` (40_command_engine R209). -/
  | decodeWidth
  /-- A bit above the epId field is set (30_encoding R153). -/
  | reservedCmdBits
  /-- The opcode field is no `OPCODE_VALUE` (30_encoding R155). -/
  | unknownOpcode
  deriving DecidableEq, Repr

/-- `opcode(v)` (30_encoding R151). -/
def opcodeField (c : Config) (v : Nat) : Nat := bits v 0 c.opcodeBits

/-- `epId(v)` (30_encoding R152). -/
def epIdField (c : Config) (v : Nat) : Nat := bits v c.opcodeBits c.epidBits

/-- `reserved(v)`, the bits of the `W`-bit word above the epId field (30_encoding R153). -/
def reservedField (c : Config) (v : Nat) : Nat :=
  bits v (c.opcodeBits + c.epidBits) (c.W - (c.opcodeBits + c.epidBits))

/-- The opcode with numeric value `n`, if any (30_encoding R154, R155). -/
def opcodeOfValue (c : Config) (n : Nat) : Option Opcode :=
  Opcode.all.find? fun o => c.opcodeValue.of o == n

/-- The instruction of an opcode and an endpoint id. -/
def Opcode.instr : Opcode → Nat → Instr
  | .idle => .idle
  | .send => .send
  | .reply => .reply
  | .read => .read
  | .write => .write
  | .incReadPtr => .incReadPtr
  | .wakeupCore => .wakeupCore

/-- The decoder (40_command_engine R209, R210). -/
def decode (c : Config) (v : Nat) : Except DecodeError Instr :=
  if c.W < c.opcodeBits + c.epidBits then .error .decodeWidth
  else if reservedField c v ≠ 0 then .error .reservedCmdBits
  else match opcodeOfValue c (opcodeField c v) with
    | none => .error .unknownOpcode
    | some o => .ok (o.instr (epIdField c v))

/-- `CMDWORD(op, e)` (30_encoding R156). -/
def cmdWord (c : Config) (o : Opcode) (e : Nat) : Nat := c.opcodeValue.of o + e * 2 ^ c.opcodeBits

/-- The encoder: the command word that issues an instruction (30_encoding R156). -/
def encode (c : Config) (i : Instr) : Nat := cmdWord c i.opcode i.ep

/-- What the decoder, at the default parameters, reads from an instruction of `nbits` bits whose value is `w`: the command
word is one 64-bit register word, and the bits above `nbits` are zero. -/
def decodeTableWord (nbits w : Nat) : Option Instr :=
  match decode (Config.default 0) (wrap 64 (w % 2 ^ nbits)) with
  | .ok i => some i
  | .error _ => none

end Sys2Proof
end

