-- ==== Sys2Proof/Machine/State.lean ====
section
/-!
DEFINITION. The state of the system (10_state, 44_async_completion R395, R401) and its value after reset
(70_reset_and_hazards R480).

The system is a list of tiles, indexed by core id (60_exceptions R452), and the NoC between them. A tile holds its
parameters, its DTU, its local memory and its side of the CPU. Everything is plain data.
-/

namespace Sys2Proof.Machine

/-! ## Names -/

/-- `MODE` (44_async_completion R400, R401). -/
inductive Mode where
  | atomic | timed
  deriving DecidableEq, Repr, Inhabited

/-- Where a register access comes from (40_command_engine R200). -/
inductive Origin where
  | cpu | noc
  deriving DecidableEq, Repr, Inhabited

/-- A direction of data: the `need` of a check, the `dir` of a cache request (41_memory_unit R250, 30_encoding R160). -/
inductive Dir where
  | read | write
  deriving DecidableEq, Repr, Inhabited

/-- The outbound channels (44_async_completion R395). -/
inductive Channel where
  | nocReq | nocResp | memReq | cpuResp
  deriving DecidableEq, Repr, Inhabited

/-- The type tags of NoC packets (30_encoding R161). -/
inductive NocKind where
  | message | readReq | writeReq | cacheMemReq | cacheMemReqFunc
  deriving DecidableEq, Repr, Inhabited

/-- The status of a response (30_encoding R162, R168). -/
inductive Status where
  | ok | denied
  deriving DecidableEq, Repr, Inhabited

/-- Who owns a transfer job or a memory request (10_state R43, R44). -/
inductive Owner where
  | cmd | inb
  deriving DecidableEq, Repr, Inhabited

/-- Who issued a NoC request (10_state R45). -/
inductive Requester where
  | cmd | cpu
  deriving DecidableEq, Repr, Inhabited

/-- The direction of a transfer job (10_state R43). -/
inductive XferDir where
  | toNoc | fromNoc
  deriving DecidableEq, Repr, Inhabited

/-- The classes of a CPU cache-memory request (30_encoding R168). -/
inductive CacheClass where
  | read | write | cleanEvict | invalidateReq | other
  deriving DecidableEq, Repr, Inhabited

/-- The fatal codes (60_exceptions R432). -/
inductive FatalCode where
  | cmdInProgress | epidOutOfRange | decodeWidth | unknownOpcode | reservedCmdBits | regReserved | regAccessSize
  | transactionError | packetTooLarge | nocAddrRange | headerFieldRange | responseMismatch | malformedRequest
  | malformedMessage | misrouted | functionalCmdWrite
  deriving DecidableEq, Repr, Inhabited

/-- The denial codes (60_exceptions R441). -/
inductive DenialCode where
  | noReadPerm | noWritePerm | addrOverflow | outOfBounds | coherenceUnsupported | unsupportedRequest | bufferFull
  | msgTooLarge | readPtrUnderflow | ringInvalid | noMessage | externalInvariant
  deriving DecidableEq, Repr, Inhabited

/-- The origin of a denial (60_exceptions R440). -/
inductive DenialOrigin where
  | cmd | cpu | noc
  deriving DecidableEq, Repr, Inhabited

/-- The fields of an endpoint block; field 15 is reserved and has no name (10_state R33). -/
inductive Field where
  | tgtCore | tgtEp | remBase | remSize | perm | locAddr | dataSize | reqOffset | replyEp | bufAddr | bufSlotSize
  | bufSlots | bufRdPtr | bufWrPtr | bufMsgCnt
  deriving DecidableEq, Repr, Inhabited

/-- The number of a field (10_state R33). -/
def Field.num : Field → Nat
  | .tgtCore => 0
  | .tgtEp => 1
  | .remBase => 2
  | .remSize => 3
  | .perm => 4
  | .locAddr => 5
  | .dataSize => 6
  | .reqOffset => 7
  | .replyEp => 8
  | .bufAddr => 9
  | .bufSlotSize => 10
  | .bufSlots => 11
  | .bufRdPtr => 12
  | .bufWrPtr => 13
  | .bufMsgCnt => 14

/-- The register index of COMMAND (10_state R34). -/
abbrev commandReg : Nat := 0

/-- `EP(e, F)` (10_state R32). -/
def epReg (e : Nat) (f : Field) : Nat := 16 * (e + 1) + f.num

/-! ## Packets, requests and responses -/

/-- A local-memory address range and what to do there (30_encoding R167). The sender-state is a tagged union
(10_state R44, 44_async_completion R390). -/
inductive MemSS where
  /-- A chunk of the transfer unit: tag TRANSFER. -/
  | transfer (ep : Nat) (owner : Owner) (chunk : Nat) (last : Bool) (len : Nat)
  /-- The header fetch of a REPLY: tag HEADER. -/
  | header (ep : Nat) (owner : Owner)
  deriving DecidableEq, Repr, Inhabited

/-- A local-memory request (30_encoding R167). -/
structure MemReq where
  op : Dir
  addr : Nat
  len : Nat
  data : List Byte
  ss : MemSS
  deriving DecidableEq, Repr, Inhabited

/-- The answer of the local memory (30_encoding R167). -/
structure MemResp where
  err : Bool
  data : List Byte
  ss : MemSS
  deriving DecidableEq, Repr, Inhabited

/-- A NoC request (30_encoding R160). `dir` is the direction of a cache request, and the kind's own direction otherwise. -/
structure NocReq where
  kind : NocKind
  addr : NocAddress
  size : Nat
  data : List Byte
  src : Nat
  ss : Nat
  dir : Dir
  deriving DecidableEq, Repr, Inhabited

/-- A NoC response (30_encoding R162). -/
structure NocResp where
  kind : NocKind
  status : Status
  err : Bool
  data : List Byte
  ss : Nat
  deriving DecidableEq, Repr, Inhabited

/-- A register access of a CPU or of a NoC peer (30_encoding R168, 40_command_engine R200). -/
structure RegAccess where
  addr : Nat
  size : Nat
  isWrite : Bool
  value : Nat
  deriving DecidableEq, Repr, Inhabited

/-- A cache-memory request of the CPU (30_encoding R168). -/
structure CacheReq where
  cls : CacheClass
  addr : Nat
  size : Nat
  data : List Byte
  functional : Bool
  deriving DecidableEq, Repr, Inhabited

/-- What a CPU asks for (30_encoding R168, R170; 44_async_completion R401). -/
inductive CpuReq where
  /-- An access to the register window. -/
  | reg (a : RegAccess)
  /-- An access outside it that the platform routes to the DTU. -/
  | cache (q : CacheReq)
  /-- `LMRD`: the CPU's own read of its tile's local memory. -/
  | localRead (addr len : Nat)
  /-- `LMWR`: the CPU's own write of its tile's local memory. -/
  | localWrite (addr : Nat) (data : List Byte)
  deriving DecidableEq, Repr, Inhabited

/-- What a CPU is answered (30_encoding R168). -/
inductive CpuResp where
  | regResp (value : Nat)
  | regAck
  | memResp (handled : Bool) (status : Status) (addr : Nat) (data : List Byte)
  /-- The answer to the CPU's own local-memory access, which does not pass through the DTU. -/
  | localResp (err : Bool) (data : List Byte)
  deriving DecidableEq, Repr, Inhabited

/-- An item a step offers on an outbound channel (44_async_completion R395). A NoC response carries the core it is routed
to, the `src` of the request it answers. -/
inductive Item where
  | nocReq (r : NocReq)
  | nocResp (dst : Nat) (r : NocResp)
  | memReq (r : MemReq)
  | cpuResp (r : CpuResp)
  deriving DecidableEq, Repr, Inhabited

/-- The channel of an item. -/
def Item.channel : Item → Channel
  | .nocReq _ => .nocReq
  | .nocResp _ _ => .nocResp
  | .memReq _ => .memReq
  | .cpuResp _ => .cpuResp

/-- What travels on the NoC. -/
inductive Packet where
  | req (r : NocReq)
  | resp (r : NocResp)
  deriving DecidableEq, Repr, Inhabited

/-- A packet in flight and the core it is routed to (44_async_completion R395, R420). -/
structure Flight where
  dst : Nat
  packet : Packet
  deriving DecidableEq, Repr, Inhabited

/-! ## The DTU's sequencing state -/

/-- The commands that stay in `EXEC` (10_state R38). -/
inductive AsyncOp where
  | send | reply | read | write
  deriving DecidableEq, Repr, Inhabited

/-- The phases of an `EXEC` command (10_state R38). -/
inductive Phase where
  | hdr | xferOut | waitAck | waitData | xferIn
  deriving DecidableEq, Repr, Inhabited

/-- The operand snapshot (10_state R39). `nocAddr`, `hdr` and `slotAddr` hold 0, `[]` and 0 until the command's rule sets
them; no rule reads them before (notes/assumptions/20.md). -/
structure Snap where
  tgtCore : Nat
  tgtEp : Nat
  remBase : Nat
  remSize : Nat
  perm : Nat
  locAddr : Nat
  dataSize : Nat
  reqOffset : Nat
  replyEp : Nat
  nocAddr : NocAddress := 0
  hdr : List Byte := []
  slotAddr : Nat := 0
  deriving DecidableEq, Repr, Inhabited

/-- `dtu.cmd` (10_state R37). -/
inductive CmdState where
  | idle
  | scheduled (origin : Origin)
  | exec (op : AsyncOp) (ep : Nat) (phase : Phase) (snap : Snap)
  deriving DecidableEq, Repr, Inhabited

/-- The inbound request in service (10_state R42). `ep`, `slot` and `slots` are used by a MESSAGE only. -/
structure InbRec where
  kind : NocKind
  src : Nat
  ss : Nat
  size : Nat
  dir : Dir
  ep : Nat := 0
  slot : Nat := 0
  slots : Nat := 0
  deriving DecidableEq, Repr, Inhabited

/-- `dtu.inb` (10_state R42). -/
inductive InbState where
  | idle
  | busy (r : InbRec)
  deriving DecidableEq, Repr, Inhabited

/-- A transfer job (10_state R43); `loc` is its field `local`. -/
structure Job where
  dir : XferDir
  loc : Nat
  size : Nat
  data : List Byte
  owner : Owner
  deriving DecidableEq, Repr, Inhabited

/-- The active transfer job (10_state R43). -/
structure ActiveJob where
  job : Job
  issued : Nat
  completed : Nat
  inflight : Nat
  acc : List Byte
  deriving DecidableEq, Repr, Inhabited

/-- `dtu.xfer` (10_state R43). -/
structure Xfer where
  queue : List Job
  active : Option ActiveJob
  deriving DecidableEq, Repr, Inhabited

/-- A NoC sender-state (10_state R45). -/
structure NocSS where
  id : Nat
  kind : NocKind
  ep : Nat
  requester : Requester
  origAddr : Nat
  size : Nat
  dir : Dir
  deriving DecidableEq, Repr, Inhabited

/-- `dtu.retry` (10_state R46): one slot for each channel. -/
structure Retry where
  nocReq : Option NocReq
  nocResp : Option (Nat × NocResp)
  memReq : Option MemReq
  cpuResp : Option CpuResp
  deriving DecidableEq, Repr, Inhabited

/-- A denial record (60_exceptions R440). -/
structure Denial where
  code : DenialCode
  origin : DenialOrigin
  ep : Nat
  addr : Nat
  size : Nat
  deriving DecidableEq, Repr, Inhabited

/-! ## Memory -/

/-- A byte memory as the list of the cells that differ from the blank byte, at strictly rising addresses. -/
abbrev Memory := List Host.Cell

/-- What an unlisted address reads as. DESIGN CHOICE, unsafe: notes/assumptions/4.md (10_state R49 leaves the contents of
local memory at reset to the launch state). -/
def Memory.blank : Byte := 0

/-- The canonical form: addresses strictly rising, no cell equal to what an unlisted address reads as. -/
def Memory.wf : Memory → Bool
  | [] => true
  | c :: m => decide (c.2 ≠ Memory.blank) && (m.all fun d => decide (c.1 < d.1)) && Memory.wf m

/-! ## One tile -/

/-- One tile: parameters, DTU, local memory, CPU side. -/
structure Tile where
  /-- The parameters (00_scope R8). -/
  cfg : Config
  /-- The register file (10_state R31). -/
  regs : List Nat
  /-- `dtu.cmd`. -/
  cmd : CmdState
  /-- `dtu.inb`. -/
  inb : InbState
  /-- `dtu.xfer`. -/
  xfer : Xfer
  /-- `dtu.memq` (10_state R44). -/
  memq : List MemSS
  /-- `dtu.nocq` (10_state R45). -/
  nocq : List NocSS
  /-- `dtu.nextId` (10_state R45). -/
  nextId : Nat
  /-- `dtu.retry`. -/
  retry : Retry
  /-- `dtu.fatal` (10_state R47). -/
  fatal : Option FatalCode
  /-- `dtu.log`, oldest record first (10_state R47). -/
  log : List Denial
  /-- `DENY_SUSPEND` (10_state R40). -/
  denySuspend : Bool
  /-- `cpu.suspended` (10_state R41). -/
  suspended : Bool
  /-- The local memory (10_state R49). -/
  mem : Memory
  /-- The local memory's requests, accepted and not yet answered, oldest first (20_memory R110). -/
  memIn : List MemReq
  /-- The answers waiting at the memory port, oldest first (44_async_completion R401). -/
  memOut : List MemResp
  /-- The CPU's requests that were offered and not yet accepted (44_async_completion R397). -/
  port : List CpuReq
  /-- The responses delivered to the CPU, oldest first (44_async_completion R395). -/
  inbox : List CpuResp
  deriving DecidableEq, Repr, Inhabited

/-! ## The environment's choices -/

/-- A step of one agent (44_async_completion R401, R420). -/
inductive Event where
  /-- The DTU of tile `k` dispatches its command (40_command_engine R208). -/
  | dispatch (k : Nat)
  /-- The DTU of tile `k` activates a transfer job (43_transfer_unit R351). -/
  | activate (k : Nat)
  /-- The DTU of tile `k` issues a chunk (43_transfer_unit R353). -/
  | issue (k : Nat)
  /-- The local memory of tile `k` answers its oldest request (20_memory R110). -/
  | memAnswer (k : Nat)
  /-- The DTU of tile `k` handles the memory response at its port (43_transfer_unit R361). -/
  | memResponse (k : Nat)
  /-- The NoC delivers the packet at position `i` to tile `k` (44_async_completion R405). -/
  | deliver (i k : Nat)
  /-- The receiver of a channel of tile `k` signals retry-ready (44_async_completion R396). -/
  | retryReady (k : Nat) (ch : Channel)
  /-- The CPU of tile `k` makes a request (44_async_completion R407). -/
  | cpu (k : Nat) (r : CpuReq)
  /-- The CPU of tile `k` offers the request at position `i` of its port again (44_async_completion R397). -/
  | cpuAgain (k i : Nat)
  /-- The CPU of tile `k` suspends (40_command_engine R231). -/
  | suspend (k : Nat)
  /-- The NoC fails in the transport of the packet at position `i`: a response, or a request to a core that no tile is
  (44_async_completion R420). -/
  | transportError (i : Nat)
  /-- The NoC's choice in ATOMIC mode, where no packet is in flight between two steps: it carries `n` more responses and fails in
  the transport of the next one (44_async_completion R420). -/
  | failAfter (n : Nat)
  deriving DecidableEq, Repr, Inhabited

/-- One choice of the environment: which step is taken and whether the offer it makes is refused (44_async_completion
R395, R420). -/
structure Turn where
  event : Event
  refuse : Bool
  deriving DecidableEq, Repr, Inhabited

/-! ## The system -/

/-- The state of the system. `turns`, `refuse`, `tick` and `cur` are the model's own (notes/assumptions/5.md), and so is
`failAfter` (notes/assumptions/28.md). -/
structure State where
  /-- `MODE`, fixed for a run. -/
  mode : Mode
  /-- The tiles, at the position of their core id (60_exceptions R452). -/
  tiles : List Tile
  /-- The packets in flight (44_async_completion R395). -/
  noc : List Flight
  /-- The environment's choices still to come; when there are none, the next one is `Config.freeTurn`. -/
  turns : List Turn
  /-- The environment refuses the offer of the step under way. -/
  refuse : Bool
  /-- How many free choices were taken. -/
  tick : Nat
  /-- The tile whose command `exec` runs. -/
  cur : Nat
  /-- How many responses the NoC still carries in ATOMIC mode before it fails in the transport of one; `none`: it chose no
  failure. -/
  failAfter : Option Nat
  deriving DecidableEq, Repr, Inhabited

/-- Why the machine stops. -/
inductive Fault where
  /-- Raised by `step` in a state in which the tile `tile` has recorded the fatal code `code`: no agent takes another step
  (44_async_completion R410). Safe: the hardware has halted too. -/
  | halted (tile : Nat) (code : FatalCode)
  /-- Raised by the chain of an ATOMIC step that is longer than `State.chainBound` allows. Safe: the model stops where the
  hardware goes on, and only in states that no run from a launch state reaches (notes/assumptions/10.md). -/
  | atomicChainUnfinished
  deriving DecidableEq, Repr

/-- Why an instruction has no meaning. -/
inductive Refusal where
  /-- Raised by an arm of `exec` that has no meaning yet. Safe: nothing is claimed of the instruction. -/
  | notModelled (mnemonic : String)
  deriving DecidableEq, Repr

/-! ## Reset -/

/-- No item waits on any channel. -/
def Retry.empty : Retry := { nocReq := none, nocResp := none, memReq := none, cpuResp := none }

/-- The register file at construction: zero but for the configuration of memEp (70_reset_and_hazards R480). -/
def resetRegs (c : Config) : List Nat :=
  ((((List.replicate c.regfileWords 0).set (epReg c.memEp .tgtCore) (c.wrapW c.memCoreId)).set
    (epReg c.memEp .remBase) (c.wrapW c.memBase)).set (epReg c.memEp .remSize) (c.wrapW c.memSize)).set
    (epReg c.memEp .perm) 3

/-- A tile at construction, with the local memory `mem` (70_reset_and_hazards R480). -/
def Tile.launch (c : Config) (mem : Memory) : Tile where
  cfg := c
  regs := resetRegs c
  cmd := .idle
  inb := .idle
  xfer := { queue := [], active := none }
  memq := []
  nocq := []
  nextId := 0
  retry := Retry.empty
  fatal := none
  log := []
  denySuspend := false
  suspended := false
  mem := mem
  memIn := []
  memOut := []
  port := []
  inbox := []

/-- The system at construction, for any parameters and any contents of the local memories (70_reset_and_hazards R480,
R481). -/
def State.construct (mode : Mode) (tiles : List (Config × Memory)) : State where
  mode := mode
  tiles := tiles.map fun p => Tile.launch p.1 p.2
  noc := []
  turns := []
  refuse := false
  tick := 0
  cur := 0
  failAfter := none

/-- The launch of a system: its construction, if its parameters meet the constraints of 00_scope R8. -/
def State.launch (mode : Mode) (tiles : List (Config × Memory)) : Option State :=
  if Config.systemValid (tiles.map Prod.fst) then some (State.construct mode tiles) else none

/-- The machine right after reset, at the default parameters: two tiles, ATOMIC mode (00_scope R8), memories with nothing
listed. -/
def State.reset : State :=
  State.construct .atomic [(Config.default 0, []), (Config.default 1, [])]

end Sys2Proof.Machine

namespace Sys2Proof

/-- FREE VALUE: the environment's choice number `n`, once the list of choices is used up. Nothing is known of it
(44_async_completion R401, R420; notes/assumptions/5.md). -/
opaque Config.freeTurn : Nat → Machine.Turn

end Sys2Proof
end

