-- ==== Sys2Proof/Machine/Ops.lean ====
section
/-!
DEFINITION. The named operations over registers, bytes, memory, the tile and the system: the only ways the rules read and
write the state. Among them the two shared failures, `State.raise` (60_exceptions R431) and `Tile.deny` (60_exceptions R440),
the retirement of a command, and the offer of an item on a channel.
-/

namespace Sys2Proof.Config

/-- The range `[a, a + n)` goes beyond the local memory (20_memory R106). -/
def beyondMem (c : Config) (a n : Nat) : Bool := decide (c.localMemSize < a + n)

/-- The core field of a NoC address (20_memory R104). -/
def nocCore (c : Config) (a : NocAddress) : Nat := bits a.toNat (c.nocEpBits + c.nocOffsetBits) c.nocCoreBits

end Sys2Proof.Config

namespace Sys2Proof.Machine

/-! ## Registers -/

/-- `reg[i]` (00_scope R11). -/
def Tile.reg (t : Tile) (i : Nat) : Nat := t.regs.getD i 0

/-- `reg[i] <- v`: the register stores a `W`-bit value (10_state R31). -/
def Tile.setReg (t : Tile) (i : Nat) (v : Nat) : Tile := { t with regs := t.regs.set i (t.cfg.wrapW v) }

/-- `ep[e].F` (00_scope R11). -/
def Tile.ep (t : Tile) (e : Nat) (f : Field) : Nat := t.reg (epReg e f)

/-- `ep[e].F <- v`. -/
def Tile.setEp (t : Tile) (e : Nat) (f : Field) (v : Nat) : Tile := t.setReg (epReg e f) v

/-! ## Byte order (20_memory R107) -/

/-- The number whose little-endian bytes are given. -/
def bytesToNat : List Byte → Nat
  | [] => 0
  | b :: bs => b.toNat + 256 * bytesToNat bs

/-- `v` as `n` little-endian bytes. -/
def natToBytes : Nat → Nat → List Byte
  | 0, _ => []
  | n + 1, v => BitVec.ofNat 8 v :: natToBytes n (v / 256)

/-! ## Memory -/

/-- The byte at `a`. -/
def Memory.read : Memory → Nat → Byte
  | [], _ => Memory.blank
  | c :: m, a => if a = c.1 then c.2 else Memory.read m a

/-- The byte at `a` becomes `b`; the canonical form is kept. -/
def Memory.write : Memory → Nat → Byte → Memory
  | [], a, b => if b = Memory.blank then [] else [(a, b)]
  | c :: m, a, b =>
    if a < c.1 then if b = Memory.blank then c :: m else (a, b) :: c :: m
    else if a = c.1 then if b = Memory.blank then m else (a, b) :: m
    else c :: Memory.write m a b

/-- `MemRead(a, n)` (20_memory R110). -/
def Memory.readBytes (m : Memory) (a : Nat) : Nat → List Byte
  | 0 => []
  | n + 1 => m.read a :: Memory.readBytes m (a + 1) n

/-- `MemWrite(a, n, data)` (20_memory R110). -/
def Memory.writeBytes (m : Memory) (a : Nat) : List Byte → Memory
  | [] => m
  | b :: bs => Memory.writeBytes (m.write a b) (a + 1) bs

/-! ## Failures and retirement -/

/-- `deny(code, origin, ep, addr, size)` (60_exceptions R440). -/
def Tile.deny (t : Tile) (code : DenialCode) (origin : DenialOrigin) (ep addr size : Nat) : Tile :=
  { t with log := t.log ++ [{ code := code, origin := origin, ep := ep, addr := addr, size := size }] }

/-- `raise Fatal(code)` at tile `k`, from the state at the start of the raising step (44_async_completion R410,
60_exceptions R431). -/
def State.raise (s : State) (k : Nat) (code : FatalCode) : State :=
  { s with tiles := s.tiles.modify k fun t => { t with fatal := some code } }

/-- The first tile of the list, counted from `k`, that has recorded a fatal code. -/
def firstFatal : List Tile → Nat → Option (Nat × FatalCode)
  | [], _ => none
  | t :: ts, k =>
    match t.fatal with
    | some c => some (k, c)
    | none => firstFatal ts (k + 1)

/-- The fatal error that has halted the system, if any (44_async_completion R410). -/
def State.raised (s : State) : Option (Nat × FatalCode) := firstFatal s.tiles 0

/-- `retire()` (40_command_engine R220). -/
def Tile.retire (t : Tile) : Tile := { t.setReg commandReg 0 with cmd := .idle }

/-! ## Jobs and requests -/

/-- `enqueue(job)` (43_transfer_unit R350). -/
def Tile.enqueue (t : Tile) (j : Job) : Tile := { t with xfer := { t.xfer with queue := t.xfer.queue ++ [j] } }

/-- What one rule does at one tile: it is held (its guard is false, 00_scope R14), it raises a fatal error, or it gives the
tile's new state and the item it offers, if any. No step offers more than one item (44_async_completion R397). -/
inductive Result where
  | held
  | fatal (code : FatalCode)
  | done (t : Tile) (offer : Option Item)
  deriving DecidableEq, Repr

/-- The rule is not enabled. -/
def Result.isHeld : Result → Bool
  | .held => true
  | _ => false

/-- `memRequest(req)` (43_transfer_unit R360). -/
def memRequest (t : Tile) (r : MemReq) : Result := .done { t with memq := t.memq ++ [r.ss] } (some (.memReq r))

/-- `nocRequest(requester, ep, req, origAddr)`; the sender-state of `r` is replaced (44_async_completion R390). -/
def nocRequest (t : Tile) (requester : Requester) (ep : Nat) (r : NocReq) (origAddr : Nat) : Result :=
  .done
    { t with
      nextId := t.nextId + 1
      nocq := t.nocq ++ [{ id := t.nextId, kind := r.kind, ep := ep, requester := requester, origAddr := origAddr,
                           size := r.size, dir := r.dir }] }
    (some (.nocReq { r with ss := t.nextId }))

/-! ## Channels (44_async_completion R395 to R397) -/

/-- The item waiting on a channel. -/
def Retry.slot (r : Retry) : Channel → Option Item
  | .nocReq => r.nocReq.map .nocReq
  | .nocResp => r.nocResp.map fun p => .nocResp p.1 p.2
  | .memReq => r.memReq.map .memReq
  | .cpuResp => r.cpuResp.map .cpuResp

/-- The slot of the item's channel holds the item. -/
def Retry.fill (r : Retry) : Item → Retry
  | .nocReq q => { r with nocReq := some q }
  | .nocResp d q => { r with nocResp := some (d, q) }
  | .memReq q => { r with memReq := some q }
  | .cpuResp q => { r with cpuResp := some q }

/-- The slot of a channel becomes empty. -/
def Retry.clear (r : Retry) : Channel → Retry
  | .nocReq => { r with nocReq := none }
  | .nocResp => { r with nocResp := none }
  | .memReq => { r with memReq := none }
  | .cpuResp => { r with cpuResp := none }

/-- Nothing waits on the channel, so a step may offer on it (44_async_completion R397). -/
def Tile.free (t : Tile) (ch : Channel) : Bool := (t.retry.slot ch).isNone

/-- Nothing waits on any of the channels. -/
def Tile.allFree (t : Tile) (chs : List Channel) : Bool := chs.all t.free

/-! ## The system -/

/-- Tile `k` becomes `t`. -/
def State.setTile (s : State) (k : Nat) (t : Tile) : State := { s with tiles := s.tiles.set k t }

/-- The receiver takes the item: the NoC has it in flight, the memory has it queued, the CPU has it (44_async_completion
R395). `t` is the offering tile `k`. -/
def State.handOver (s : State) (k : Nat) (t : Tile) : Item → State
  | .nocReq r => { s.setTile k t with noc := s.noc ++ [{ dst := t.cfg.nocCore r.addr, packet := .req r }] }
  | .nocResp d r => { s.setTile k t with noc := s.noc ++ [{ dst := d, packet := .resp r }] }
  | .memReq r => s.setTile k { t with memIn := t.memIn ++ [r] }
  | .cpuResp r => s.setTile k { t with inbox := t.inbox ++ [r] }

/-- The receiver refuses: a choice of the environment in TIMED mode, never so in ATOMIC mode (44_async_completion R395,
R400, R420). -/
def State.refuses (s : State) : Bool := s.refuse && decide (s.mode = .timed)

/-- Tile `k` becomes `t`, and `t` offers the item: `send(ch, item)` (44_async_completion R395). -/
def State.send (s : State) (k : Nat) (t : Tile) (item : Item) : State :=
  if s.refuses then s.setTile k { t with retry := t.retry.fill item } else s.handOver k t item

/-- The effect of a rule at tile `k` on the system. -/
def State.commit (s : State) (k : Nat) : Result → State
  | .held => s
  | .fatal c => s.raise k c
  | .done t none => s.setTile k t
  | .done t (some item) => s.send k t item

/-- Tile `k` runs a rule; where there is no such tile, nothing happens. -/
def State.onTile (s : State) (k : Nat) (rule : Tile → Result) : State :=
  match s.tiles[k]? with
  | none => s
  | some t => s.commit k (rule t)

/-- What a step does next after `o`. -/
def andThen (o : Host.Outcome State Fault Refusal) (f : State → Host.Outcome State Fault Refusal) :
    Host.Outcome State Fault Refusal :=
  match o with
  | .next s => f s
  | .fault r => .fault r
  | .refused r => .refused r

/-- A fatal error discards every other effect of its step (44_async_completion R410): `s` is the state at the step's start. -/
def State.settle (s : State) (o : Host.Outcome State Fault Refusal) : Host.Outcome State Fault Refusal :=
  andThen o fun s' =>
    match s'.raised with
    | some (k, c) => .next (s.raise k c)
    | none => .next s'

/-! ## Dispatch of one instruction -/

/-- What every instruction's dispatch shares, at the tile `s.cur`: a step that may offer on one of the channels `chs` waits
until they are free (44_async_completion R397), the endpoint id must be in range (40_command_engine R210), and then the
instruction's own rule runs. -/
def dispatchOn (chs : List Channel) (ep : Nat) (rule : Tile → Result) (s : State) : Host.Outcome State Fault Refusal :=
  .next <| s.onTile s.cur fun t =>
    if t.allFree chs then
      if ep < t.cfg.numEndpoints then rule t else .fatal .epidOutOfRange
    else .held

end Sys2Proof.Machine
end

