-- ==== Sys2Proof/Machine/Operands.lean ====
section
/-!
DEFINITION. How operands are formed and checked: the operand snapshot, the permission and bounds check, NoC addresses, the
message header, ring slots and chunk geometry.
-/

namespace Sys2Proof

open Machine

namespace Config

/-! ## NoC addresses (20_memory R104) -/

/-- `NocAddr(core, ep, off)`, defined only when the three fit their fields. -/
def nocAddr (c : Config) (core ep off : Nat) : Option NocAddress :=
  if core < 2 ^ c.nocCoreBits ∧ ep < 2 ^ c.nocEpBits ∧ off < 2 ^ c.nocOffsetBits then
    some (BitVec.ofNat 64 (core * 2 ^ (c.nocEpBits + c.nocOffsetBits) + ep * 2 ^ c.nocOffsetBits + off))
  else none

/-- The endpoint field of a NoC address. -/
def nocEp (c : Config) (a : NocAddress) : Nat := bits a.toNat c.nocOffsetBits c.nocEpBits

/-- The offset field of a NoC address: the flat address at the receiver (20_memory R105). -/
def nocOff (c : Config) (a : NocAddress) : Nat := bits a.toNat 0 c.nocOffsetBits

/-- `NocTarget(core, remBase, rel, size)`; `none` is the fatal NOC_ADDR_RANGE (41_memory_unit R251). -/
def nocTarget (c : Config) (core : Nat) (remBase rel : Nat) (size : Nat) : Option NocAddress :=
  if 2 ^ c.nocCoreBits ≤ core ∨ 2 ^ c.nocOffsetBits ≤ remBase + rel
      ∨ 2 ^ c.nocOffsetBits < remBase + rel + size then none
  else c.nocAddr core 0 (remBase + rel)

/-! ## The permission and bounds check -/

/-- `Check(need, rel, size, remSize, perm)`; `none` is OK (41_memory_unit R250). -/
def check (c : Config) (need : Dir) (rel size remSize perm : Nat) : Option DenialCode :=
  if need = .read ∧ perm.testBit 0 = false then some .noReadPerm
  else if need = .write ∧ perm.testBit 1 = false then some .noWritePerm
  else if 2 ^ c.W ≤ rel + size then some .addrOverflow
  else if remSize < rel + size then some .outOfBounds
  else none

/-! ## Chunk geometry (43_transfer_unit R352) -/

/-- The number of chunks of a job of `size` bytes: `ceil(size / BUF_SIZE)`. -/
def chunkCount (c : Config) (size : Nat) : Nat := (size + (c.bufSize - 1)) / c.bufSize

/-- `chunkAddr(k)` of a job at local address `a`. -/
def chunkAddr (c : Config) (a k : Nat) : Nat := c.wrapW (a + k * c.bufSize)

/-- `chunkLen(k)` of a job of `size` bytes. -/
def chunkLen (c : Config) (size k : Nat) : Nat := min c.bufSize (size - k * c.bufSize)

/-- `chunkLast(k)` of a job of `size` bytes. -/
def chunkLast (c : Config) (size k : Nat) : Bool := decide (k + 1 = c.chunkCount size)

/-- The bytes of chunk `k` of a FROM_NOC job. -/
def chunkData (c : Config) (size : Nat) (data : List Byte) (k : Nat) : List Byte :=
  (data.drop (k * c.bufSize)).take (c.chunkLen size k)

end Config

namespace Machine

/-! ## The operand snapshot -/

/-- The nine operands read at dispatch (10_state R39). -/
def Snap.ofEndpoint (t : Tile) (e : Nat) : Snap where
  tgtCore := t.ep e .tgtCore
  tgtEp := t.ep e .tgtEp
  remBase := t.ep e .remBase
  remSize := t.ep e .remSize
  perm := t.ep e .perm
  locAddr := t.ep e .locAddr
  dataSize := t.ep e .dataSize
  reqOffset := t.ep e .reqOffset
  replyEp := t.ep e .replyEp

/-- The local address of ring slot `i` of endpoint `e` (42_message_unit R300). -/
def Tile.slotAddr (t : Tile) (e i : Nat) : Nat :=
  t.cfg.wrapW (t.ep e .bufAddr + i * t.ep e .bufSlotSize)

/-! ## The message header (30_encoding R165, R166) -/

/-- What a receiver reads from a header. -/
structure Header where
  length : Nat
  senderCore : Nat
  senderEp : Nat
  replyEp : Nat
  isReply : Bool
  deriving DecidableEq, Repr

/-- `encodeHeader(len, core, sep, rep, isReply)`; `none` is the fatal HEADER_FIELD_RANGE. -/
def encodeHeader (len core sep rep : Nat) (isReply : Bool) : Option (List Byte) :=
  if len < 2 ^ 32 ∧ core < 2 ^ 16 ∧ sep < 2 ^ 8 ∧ rep < 2 ^ 8 then
    some (natToBytes 4 len ++ natToBytes 2 core ++ natToBytes 1 sep ++ natToBytes 1 rep
      ++ [if isReply then 1 else 0] ++ List.replicate 7 0)
  else none

/-- `decodeHeader(b)`: bytes 9 to 15 and bits 7 to 1 of byte 8 are ignored. -/
def decodeHeader (b : List Byte) : Header where
  length := bytesToNat (b.take 4)
  senderCore := bytesToNat ((b.drop 4).take 2)
  senderEp := bytesToNat ((b.drop 6).take 1)
  replyEp := bytesToNat ((b.drop 7).take 1)
  isReply := (b.getD 8 0).getLsbD 0

/-! ## Inbound requests -/

/-- `need` of an inbound memory-kind request (41_memory_unit R260). -/
def NocReq.need (r : NocReq) : Dir := if r.kind = .readReq ∨ r.dir = .read then .read else .write

end Machine

end Sys2Proof
end

