-- ==== Sys2Proof/Machine/Flags.lean ====
section
/-!
DEFINITION. The one computed flag of the block, DENY_SUSPEND (40_command_engine R230), and the CPU's suspend bit
(10_state R41). There are no condition codes.
-/

namespace Sys2Proof.Machine

/-- Some endpoint holds an unconsumed message. -/
def Tile.pendingMessage (t : Tile) : Bool :=
  (List.range t.cfg.numEndpoints).any fun e => t.ep e .bufMsgCnt != 0

/-- The recomputation of DENY_SUSPEND (40_command_engine R230). -/
def Tile.recompute (t : Tile) : Tile := { t with denySuspend := t.pendingMessage }

/-- The CPU may take its suspend step (40_command_engine R231). -/
def Tile.maySuspend (t : Tile) : Bool := t.cfg.cpuAttached && !t.denySuspend

/-- The CPU's suspend step (40_command_engine R231). -/
def suspendCpu (t : Tile) : Result :=
  if t.maySuspend then .done { t with suspended := true } none else .held

/-- "if the attached CPU context exists and is suspended, activate it" (40_command_engine R213). -/
def Tile.wake (t : Tile) : Tile := if t.cfg.cpuAttached && t.suspended then { t with suspended := false } else t

/-- The CPU can make a request: it is attached and not suspended (44_async_completion R407). -/
def Tile.cpuRuns (t : Tile) : Bool := t.cfg.cpuAttached && !t.suspended

end Sys2Proof.Machine
end

