-- ==== Sys2Proof/Machine/MessageUnit.lean ====
section
/-!
DEFINITION. The message unit: SEND, REPLY and the delivery of inbound messages (42_message_unit).
-/

namespace Sys2Proof.Machine

/-! ## SEND and REPLY -/

/-- The job that reads the payload of a SEND or REPLY (42_message_unit R302, R306). -/
def payloadJob (sn : Snap) : Job :=
  { dir := .toNoc, loc := sn.locAddr, size := sn.dataSize, data := [], owner := .cmd }

/-- SEND's dispatch (42_message_unit R302). -/
def sendRule (ep : Nat) (t : Tile) : Result :=
  let sn := Snap.ofEndpoint t ep
  if t.cfg.maxNocPacketSize < headerSize + sn.dataSize then .fatal .packetTooLarge
  else match encodeHeader sn.dataSize t.cfg.ownCoreId ep sn.replyEp false with
    | none => .fatal .headerFieldRange
    | some hdr => match t.cfg.nocAddr sn.tgtCore sn.tgtEp 0 with
      | none => .fatal .nocAddrRange
      | some na =>
        let t' := { t with cmd := .exec .send ep .xferOut { sn with hdr := hdr, nocAddr := na } }
        .done (t'.enqueue (payloadJob sn)) none

/-- REPLY's dispatch (42_message_unit R305). -/
def replyRule (ep : Nat) (t : Tile) : Result :=
  let sn := Snap.ofEndpoint t ep
  let rd := t.ep ep .bufRdPtr
  if t.ep ep .bufMsgCnt = 0 then .done (t.deny .noMessage .cmd ep rd 0).retire none
  else if t.ep ep .bufSlots = 0 then .done (t.deny .ringInvalid .cmd ep rd 0).retire none
  else if t.cfg.maxNocPacketSize < headerSize + sn.dataSize then .fatal .packetTooLarge
  else
    let slot := t.slotAddr ep rd
    memRequest { t with cmd := .exec .reply ep .hdr { sn with slotAddr := slot } }
      { op := .read, addr := slot, len := headerSize, data := [], ss := .header ep .cmd }

/-- The header-fetch response of a REPLY with snapshot `sn` (42_message_unit R306). -/
def headerFetched (ep : Nat) (sn : Snap) (data : List Byte) (t : Tile) : Result :=
  let h := decodeHeader data
  match encodeHeader sn.dataSize t.cfg.ownCoreId ep sn.replyEp true with
  | none => .fatal .headerFieldRange
  | some hdr => match t.cfg.nocAddr h.senderCore h.replyEp 0 with
    | none => .fatal .nocAddrRange
    | some na =>
      let sn' := { sn with tgtCore := h.senderCore, tgtEp := h.replyEp, hdr := hdr, nocAddr := na }
      .done ({ t with cmd := .exec .reply ep .xferOut sn' }.enqueue (payloadJob sn)) none

/-- The payload of a SEND or REPLY is read: the message goes out (42_message_unit R303). -/
def messageOut (op : AsyncOp) (ep : Nat) (sn : Snap) (acc : List Byte) (t : Tile) : Result :=
  nocRequest { t with cmd := .exec op ep .waitAck sn } .cmd ep
    { kind := .message, addr := sn.nocAddr, size := headerSize + sn.dataSize, data := sn.hdr ++ acc,
      src := t.cfg.ownCoreId, ss := 0, dir := .write } 0

/-- SEND. -/
def execSend (ep : Nat) (s : State) : Host.Outcome State Fault Refusal := dispatchOn [] ep (sendRule ep) s

/-- REPLY; its dispatch may offer on MEM_REQ (44_async_completion R397). -/
def execReply (ep : Nat) (s : State) : Host.Outcome State Fault Refusal := dispatchOn [.memReq] ep (replyRule ep) s

/-! ## Inbound messages -/

/-- The response of a receiving DTU to the request `r`: `respond` (44_async_completion R395). -/
def respond (t : Tile) (src : Nat) (kind : NocKind) (ss : Nat) (status : Status) (data : List Byte) : Result :=
  .done t (some (.nocResp src { kind := kind, status := status, err := false, data := data, ss := ss }))

/-- A message whose size, data and header disagree (42_message_unit R310). -/
def malformedMessage (r : NocReq) : Bool :=
  decide (r.size < headerSize) || decide (r.data.length ≠ r.size)
    || decide ((decodeHeader (r.data.take headerSize)).length ≠ r.size - headerSize)

/-- Why a well-formed message of `size` bytes is denied (42_message_unit R310). -/
def messageDenial (t : Tile) (e size : Nat) : Option DenialCode :=
  if t.ep e .bufSlotSize < size then some .msgTooLarge
  else if t.ep e .bufSlots ≤ t.ep e .bufMsgCnt then some .bufferFull
  else none

/-- An inbound MESSAGE (42_message_unit R310). -/
def inboundMessage (r : NocReq) (t : Tile) : Result :=
  if t.cfg.nocCore r.addr ≠ t.cfg.ownCoreId then .fatal .misrouted
  else
    let e := t.cfg.nocEp r.addr
    if t.cfg.numEndpoints ≤ e then .fatal .epidOutOfRange
    else if malformedMessage r then .fatal .malformedMessage
    else
      let wr := t.ep e .bufWrPtr
      match messageDenial t e r.size with
      | some d => respond (t.deny d .noc e wr r.size) r.src .message r.ss .denied []
      | none =>
        let record : InbRec :=
          { kind := .message, src := r.src, ss := r.ss, size := r.size, dir := .write, ep := e, slot := wr,
            slots := t.ep e .bufSlots }
        let job : Job :=
          { dir := .fromNoc, loc := t.slotAddr e wr, size := r.size, data := r.data, owner := .inb }
        .done ({ t with inb := .busy record }.enqueue job) none

/-- Finalisation of the message in service (42_message_unit R312). -/
def messageLanded (r : InbRec) (t : Tile) : Result :=
  let t1 := t.setEp r.ep .bufWrPtr ((r.slot + 1) % r.slots)
  let t2 := t1.setEp r.ep .bufMsgCnt (t1.cfg.wrapW (t1.ep r.ep .bufMsgCnt + 1))
  respond { t2.recompute with inb := .idle } r.src .message r.ss .ok []

end Sys2Proof.Machine
end

