-- ==== Sys2Proof/Machine/Registers.lean ====
section
/-!
DEFINITION. The register access step, common to the CPU and to NoC peers (40_command_engine R200 to R206). It comes in two
parts, because in ATOMIC mode the command it issues runs between them.
-/

namespace Sys2Proof

/-- The register index of an access in the window (20_memory R103). -/
def Config.regIndexOf (c : Config) (addr : Nat) : Nat := (addr - c.regBase) / c.WB

end Sys2Proof

namespace Sys2Proof.Machine

/-- A reserved register index (40_command_engine R204). -/
def reservedIndex (i : Nat) : Bool :=
  (decide (1 ≤ i) && decide (i ≤ 15)) || (decide (16 ≤ i) && decide (i % 16 = 15))

/-- What a register access answers: the value of a read, or the acknowledgement of a write. -/
inductive RegReply where
  | value (v : Nat)
  | ack
  deriving DecidableEq, Repr

/-- The response to the CPU (40_command_engine R200). -/
def RegReply.toCpu : RegReply → CpuResp
  | .value v => .regResp v
  | .ack => .regAck

/-- The data of the response to a NoC peer (40_command_engine R200, 41_memory_unit R261). -/
def RegReply.toBytes (c : Config) : RegReply → List Byte
  | .value v => natToBytes c.WB v
  | .ack => []

/-- The checks of form: size and alignment (R205), then the reserved indices (R204). -/
def regCheck (c : Config) (a : RegAccess) : Option FatalCode :=
  if a.size ≠ c.WB ∨ (a.addr - c.regBase) % c.WB ≠ 0 then some .regAccessSize
  else if reservedIndex (c.regIndexOf a.addr) then some .regReserved
  else none

/-- A command is scheduled (40_command_engine R208). -/
def Tile.hasScheduled (t : Tile) : Bool :=
  match t.cmd with
  | .scheduled _ => true
  | _ => false

/-- A write of `v` to COMMAND (R202, R203). -/
def writeCommand (t : Tile) (v : Nat) (o : Origin) : Except FatalCode Tile :=
  if t.cmd = .idle then .ok { t.setReg commandReg v with cmd := .scheduled o } else .error .cmdInProgress

/-- The first part of a register access: the checks, then the read or the write (R200 to R205). -/
def regAccess (t : Tile) (a : RegAccess) (o : Origin) : Except FatalCode (Tile × RegReply) :=
  match regCheck t.cfg a with
  | some c => .error c
  | none =>
    let i := t.cfg.regIndexOf a.addr
    if a.isWrite then
      if i = commandReg then (writeCommand t a.value o).map fun t' => (t', .ack)
      else .ok (t.setReg i a.value, .ack)
    else .ok (t, .value (t.reg i))

/-- The second part: DENY_SUSPEND is recomputed and the response offered (R200, R206). -/
def regEnd (item : Item) (t : Tile) : Result := .done t.recompute (some item)

end Sys2Proof.Machine
end

