-- ==== Sys2Proof/Machine/MemoryUnit.lean ====
section
/-!
DEFINITION. The memory unit: READ, WRITE, their responses, and the service of inbound memory requests (41_memory_unit R250
to R266).
-/

namespace Sys2Proof.Machine

/-! ## READ and WRITE -/

/-- What READ and WRITE share at dispatch: the check, the size limit and the target address (41_memory_unit R252, R253);
`start` is the command's own continuation, given the snapshot with its NoC address. -/
def remoteAccess (need : Dir) (ep : Nat) (start : Snap → Tile → Result) (t : Tile) : Result :=
  let sn := Snap.ofEndpoint t ep
  match t.cfg.check need sn.reqOffset sn.dataSize sn.remSize sn.perm with
  | some d => .done (t.deny d .cmd ep sn.reqOffset sn.dataSize).retire none
  | none =>
    if t.cfg.maxNocPacketSize < sn.dataSize then .fatal .packetTooLarge
    else match t.cfg.nocTarget sn.tgtCore sn.remBase sn.reqOffset sn.dataSize with
      | none => .fatal .nocAddrRange
      | some na => start { sn with nocAddr := na } t

/-- READ goes on with its READ_REQ (41_memory_unit R252). -/
def readStart (ep : Nat) (sn : Snap) (t : Tile) : Result :=
  nocRequest { t with cmd := .exec .read ep .waitData sn } .cmd ep
    { kind := .readReq, addr := sn.nocAddr, size := sn.dataSize, data := [], src := t.cfg.ownCoreId, ss := 0,
      dir := .read } 0

/-- WRITE goes on with the job that reads its data (41_memory_unit R253). -/
def writeStart (ep : Nat) (sn : Snap) (t : Tile) : Result :=
  .done ({ t with cmd := .exec .write ep .xferOut sn }.enqueue (payloadJob sn)) none

/-- The data of a WRITE is read: the WRITE_REQ goes out (41_memory_unit R257). -/
def writeOut (ep : Nat) (sn : Snap) (acc : List Byte) (t : Tile) : Result :=
  nocRequest { t with cmd := .exec .write ep .waitAck sn } .cmd ep
    { kind := .writeReq, addr := sn.nocAddr, size := sn.dataSize, data := acc, src := t.cfg.ownCoreId, ss := 0,
      dir := .write } 0

/-- The response of a READ (41_memory_unit R255). -/
def readComplete (ep : Nat) (sn : Snap) (r : NocResp) (t : Tile) : Result :=
  if r.status = .denied then .done t.retire none
  else if r.data.length ≠ sn.dataSize then .fatal .responseMismatch
  else
    let job : Job := { dir := .fromNoc, loc := sn.locAddr, size := sn.dataSize, data := r.data, owner := .cmd }
    .done ({ t with cmd := .exec .read ep .xferIn sn }.enqueue job) none

/-- READ; its dispatch may offer on NOC_REQ (44_async_completion R397). -/
def execRead (ep : Nat) (s : State) : Host.Outcome State Fault Refusal :=
  dispatchOn [.nocReq] ep (remoteAccess .read ep (readStart ep)) s

/-- WRITE. -/
def execWrite (ep : Nat) (s : State) : Host.Outcome State Fault Refusal :=
  dispatchOn [] ep (remoteAccess .write ep (writeStart ep)) s

/-! ## Inbound memory requests -/

/-- The validation of an inbound memory request against INBOUND_WINDOW_EP (41_memory_unit R262). -/
def inboundCheck (t : Tile) (need : Dir) (off size : Nat) : Option DenialCode :=
  let w := t.cfg.inboundWindowEp
  let base := t.ep w .remBase
  let perm := t.ep w .perm
  if need = .read ∧ perm.testBit 0 = false then some .noReadPerm
  else if need = .write ∧ perm.testBit 1 = false then some .noWritePerm
  else if off < base then some .outOfBounds
  else t.cfg.check need (off - base) size (t.ep w .remSize) perm

/-- An inbound write whose data is not as long as its size (41_memory_unit R262). -/
def malformedRequest (r : NocReq) : Bool := decide (r.need = .write) && decide (r.data.length ≠ r.size)

/-- The record and the job of a request that passed the validation (41_memory_unit R263, R264, R266). The job's local address
is `W` bits wide (10_state R43), the offset NOC_OFFSET_BITS: it wraps, as every chunk address does (43_transfer_unit R352). -/
def serveMemory (r : NocReq) (t : Tile) : Result :=
  let loc := t.cfg.wrapW (t.cfg.nocOff r.addr)
  let record : InbRec := { kind := r.kind, src := r.src, ss := r.ss, size := r.size, dir := r.need }
  let job : Job :=
    match r.need with
    | .read => { dir := .toNoc, loc := loc, size := r.size, data := [], owner := .inb }
    | .write => { dir := .fromNoc, loc := loc, size := r.size, data := r.data, owner := .inb }
  .done ({ t with inb := .busy record }.enqueue job) none

/-- An inbound memory request whose offset is outside the register window (41_memory_unit R262). -/
def inboundMemory (r : NocReq) (t : Tile) : Result :=
  let off := t.cfg.nocOff r.addr
  if malformedRequest r then .fatal .malformedRequest
  else match inboundCheck t r.need off r.size with
    | some d => respond (t.deny d .noc t.cfg.inboundWindowEp off r.size) r.src r.kind r.ss .denied []
    | none => serveMemory r t

/-- The job of an inbound memory request is complete (41_memory_unit R265). -/
def memoryServed (r : InbRec) (acc : List Byte) (t : Tile) : Result :=
  respond { t with inb := .idle } r.src r.kind r.ss .ok (if r.dir = .read then acc else [])

/-- The register access of a NoC peer (41_memory_unit R261): the value is `le_decode(data)`. -/
def NocReq.regAccess (c : Config) (r : NocReq) : RegAccess :=
  { addr := c.nocOff r.addr, size := r.size, isWrite := decide (r.need = .write), value := bytesToNat r.data }

/-- The first part of a NoC peer's register access (41_memory_unit R261): the access's own checks, and then, for a write, that
the data is as long as the size (60_exceptions R432, decision D46; that this check comes last is the model's reading of R443,
DEDUCED, notes/assumptions/27.md). -/
def nocRegAccess (r : NocReq) (t : Tile) : Except FatalCode (Tile × RegReply) :=
  match regAccess t (r.regAccess t.cfg) .noc with
  | .error c => .error c
  | .ok p => if malformedRequest r then .error .malformedRequest else .ok p

/-- The denial EXTERNAL_INVARIANT of the request `r` (60_exceptions R432). -/
def Tile.denyExternal (t : Tile) (r : NocReq) : Tile :=
  t.deny .externalInvariant .noc (t.cfg.nocEp r.addr) (t.cfg.nocOff r.addr) r.size

/-- A fatal condition of an inbound request becomes a denial when EXTERNAL_ERRORS_AS_DENIAL (60_exceptions R432); `t` is
the tile at the start of the step. -/
def externalise (r : NocReq) (t : Tile) : Result → Result
  | .fatal c =>
    if t.cfg.externalErrorsAsDenial then respond (t.denyExternal r) r.src r.kind r.ss .denied [] else .fatal c
  | res => res

end Sys2Proof.Machine
end

