-- ==== Sys2Proof/Machine/Forwarding.lean ====
section
/-!
DEFINITION. The cache-memory forwarding path and functional requests (41_memory_unit R270 to R273).
-/

namespace Sys2Proof.Machine

/-- What `handleCacheMemRequest` decides at the requesting tile. -/
inductive Forward where
  /-- The request ends here with this result. -/
  | ends (r : Result)
  /-- It is forwarded, in this direction, to this NoC address. -/
  | forwarded (need : Dir) (n : NocAddress)
  deriving DecidableEq, Repr

/-- A cache-memory request that is not handled: a denial record and the CPU's answer (41_memory_unit R270). -/
def refuseCpu (code : DenialCode) (q : CacheReq) (t : Tile) : Result :=
  .done (t.deny code .cpu t.cfg.memEp q.addr q.size) (some (.cpuResp (.memResp false .denied q.addr [])))

/-- The checks of a Read or Write request and its translation (41_memory_unit R270). -/
def forwardAccess (need : Dir) (q : CacheReq) (t : Tile) : Forward :=
  let m := t.cfg.memEp
  match t.cfg.check need q.addr q.size (t.ep m .remSize) (t.ep m .perm) with
  | some d => .ends (refuseCpu d q t)
  | none =>
    if t.cfg.maxNocPacketSize < q.size then .ends (.fatal .packetTooLarge)
    else match t.cfg.nocTarget (t.ep m .tgtCore) (t.ep m .remBase) q.addr q.size with
      | none => .ends (.fatal .nocAddrRange)
      | some n => .forwarded need n

/-- `handleCacheMemRequest` up to the forwarding (41_memory_unit R270, R271). -/
def forward (q : CacheReq) (t : Tile) : Forward :=
  match q.cls with
  | .cleanEvict => .ends (.done t none)
  | .invalidateReq => .ends (refuseCpu .coherenceUnsupported q t)
  | .other => .ends (refuseCpu .unsupportedRequest q t)
  | .read => forwardAccess .read q t
  | .write => forwardAccess .write q t

/-- The NoC request of a forwarded access (41_memory_unit R270, R272). -/
def forwardReq (kind : NocKind) (need : Dir) (n : NocAddress) (q : CacheReq) (t : Tile) : NocReq :=
  { kind := kind, addr := n, size := q.size, data := if need = .write then q.data else [], src := t.cfg.ownCoreId,
    ss := 0, dir := need }

/-- The forwarded request goes out (41_memory_unit R270). -/
def forwardOut (need : Dir) (n : NocAddress) (q : CacheReq) (t : Tile) : Result :=
  nocRequest t .cpu t.cfg.memEp (forwardReq .cacheMemReq need n q t) q.addr

/-- The response of a forwarded request of `size` bytes reaches the CPU (41_memory_unit R273). -/
def forwardedResponse (dir : Dir) (size : Nat) (origAddr : Nat) (r : NocResp) (t : Tile) : Result :=
  if r.status = .ok ∧ dir = .read ∧ r.data.length ≠ size then .fatal .responseMismatch
  else .done t (some (.cpuResp (.memResp true r.status origAddr r.data)))

/-! ## Functional requests -/

/-- The result of a functional request at its target. -/
def functionalResp (status : Status) (data : List Byte) : NocResp :=
  { kind := .cacheMemReqFunc, status := status, err := false, data := data, ss := 0 }

/-- A functional register access at the target (41_memory_unit R272). -/
def functionalRegister (r : NocReq) (t : Tile) : Except FatalCode (Tile × NocResp) :=
  let a := r.regAccess t.cfg
  match regCheck t.cfg a with
  | some c => .error c
  | none =>
    if a.isWrite ∧ t.cfg.regIndexOf a.addr = commandReg then .error .functionalCmdWrite
    else (nocRegAccess r t).map fun p => (p.1.recompute, functionalResp .ok (p.2.toBytes t.cfg))

/-- A functional memory access at the target (41_memory_unit R262, R272). It is beyond the memory when 20_memory R106 says so of
a request, also when it has no byte: at an offset above LOCAL_MEM_SIZE one of size 0 is fatal, though it touches no address
(DESIGN CHOICE, notes/assumptions/29.md). -/
def functionalMemory (r : NocReq) (t : Tile) : Except FatalCode (Tile × NocResp) :=
  let off := t.cfg.nocOff r.addr
  if malformedRequest r then .error .malformedRequest
  else match inboundCheck t r.need off r.size with
    | some d => .ok (t.deny d .noc t.cfg.inboundWindowEp off r.size, functionalResp .denied [])
    | none =>
      if t.cfg.beyondMem off r.size then .error .transactionError
      else match r.need with
        | .read => .ok (t, functionalResp .ok (t.mem.readBytes off r.size))
        | .write => .ok ({ t with mem := t.mem.writeBytes off r.data }, functionalResp .ok [])

/-- A functional request at its target tile (41_memory_unit R260, R272). -/
def functionalRule (r : NocReq) (t : Tile) : Except FatalCode (Tile × NocResp) :=
  if t.cfg.nocCore r.addr ≠ t.cfg.ownCoreId then .error .misrouted
  else if t.cfg.inWindow (t.cfg.nocOff r.addr) then functionalRegister r t
  else functionalMemory r t

/-- The same under EXTERNAL_ERRORS_AS_DENIAL (60_exceptions R432; notes/assumptions/16.md). -/
def serveFunctional (r : NocReq) (t : Tile) : Except FatalCode (Tile × NocResp) :=
  match functionalRule r t with
  | .ok p => .ok p
  | .error c => if t.cfg.externalErrorsAsDenial then .ok (t.denyExternal r, functionalResp .denied []) else .error c

/-- A functional request of tile `k`, served at once at its target tile, and its answer to the CPU (41_memory_unit R272,
R273). The fatal errors of the service are the target's. Without a tile of that core id it fails as its transport, the fatal
TRANSACTION_ERROR of tile `k` (DESIGN CHOICE, notes/assumptions/11.md). -/
def functionalAccess (k : Nat) (need : Dir) (n : NocAddress) (q : CacheReq) (t : Tile) (s : State) : State :=
  let core := t.cfg.nocCore n
  match s.tiles[core]? with
  | none => s.raise k .transactionError
  | some target =>
    match serveFunctional (forwardReq .cacheMemReqFunc need n q t) target with
    | .error c => s.raise core c
    | .ok (target', resp) => (s.setTile core target').onTile k (forwardedResponse need q.size q.addr resp)

/-- A cache-memory request of the CPU of tile `k`, whose channels are free (41_memory_unit R270). -/
def cacheRequest (k : Nat) (q : CacheReq) (t : Tile) (s : State) : State :=
  match forward q t with
  | .ends r => s.commit k r
  | .forwarded need n =>
    if q.functional then functionalAccess k need n q t s else s.commit k (forwardOut need n q t)

end Sys2Proof.Machine
end

