-- ==== Sys2Proof/Machine/TransferUnit.lean ====
section
/-!
DEFINITION. The transfer unit and the local-memory arbiter (43_transfer_unit), and the local memory behind them (20_memory
R110).
-/

namespace Sys2Proof.Machine

/-! ## Completion of a job (43_transfer_unit R355) -/

/-- The continuation of a job of the command. -/
def commandJobDone (acc : List Byte) (t : Tile) : Result :=
  match t.cmd with
  | .exec .send ep .xferOut sn => if t.free .nocReq then messageOut .send ep sn acc t else .held
  | .exec .reply ep .xferOut sn => if t.free .nocReq then messageOut .reply ep sn acc t else .held
  | .exec .write ep .xferOut sn => if t.free .nocReq then writeOut ep sn acc t else .held
  | .exec .read _ .xferIn _ => .done t.retire none
  | _ => .held

/-- The continuation of a job of the inbound service. -/
def inboundJobDone (acc : List Byte) (t : Tile) : Result :=
  match t.inb with
  | .idle => .held
  | .busy r =>
    if t.free .nocResp then
      if r.kind = .message then messageLanded r t else memoryServed r acc t
    else .held

/-- Job completion: no job is active any more, and the owner's continuation runs; where it may offer an item on a channel
that is not free, the whole step waits (43_transfer_unit R355, 44_async_completion R397). -/
def jobDone (owner : Owner) (acc : List Byte) (t : Tile) : Result :=
  let t' := { t with xfer := { t.xfer with active := none } }
  match owner with
  | .cmd => commandJobDone acc t'
  | .inb => inboundJobDone acc t'

/-! ## Activation and chunk issue -/

/-- Activation (43_transfer_unit R351, R357). -/
def activateJob (t : Tile) : Result :=
  match t.xfer.active, t.xfer.queue with
  | none, j :: q =>
    let a : ActiveJob := { job := j, issued := 0, completed := 0, inflight := 0, acc := [] }
    if j.size = 0 then jobDone j.owner [] { t with xfer := { queue := q, active := some a } }
    else .done { t with xfer := { queue := q, active := some a } } none
  | _, _ => .held

/-- The endpoint a chunk's sender-state names (43_transfer_unit R353). -/
def Tile.chunkEp (t : Tile) : Owner → Nat
  | .cmd => match t.cmd with
    | .exec _ ep _ _ => ep
    | _ => 0
  | .inb => match t.inb with
    | .busy r => if r.kind = .message then r.ep else 0
    | .idle => 0

/-- The local-memory request of chunk `k` of a job (43_transfer_unit R352, R353). -/
def chunkReq (t : Tile) (j : Job) (k : Nat) : MemReq :=
  { op := if j.dir = .toNoc then .read else .write
    addr := t.cfg.chunkAddr j.loc k
    len := t.cfg.chunkLen j.size k
    data := if j.dir = .toNoc then [] else t.cfg.chunkData j.size j.data k
    ss := .transfer (t.chunkEp j.owner) j.owner k (t.cfg.chunkLast j.size k) (t.cfg.chunkLen j.size k) }

/-- Chunk issue (43_transfer_unit R353). -/
def issueChunk (t : Tile) : Result :=
  match t.xfer.active with
  | none => .held
  | some a =>
    if a.issued < t.cfg.chunkCount a.job.size ∧ a.inflight < t.cfg.bufCount ∧ t.free .memReq = true then
      let a' := { a with issued := a.issued + 1, inflight := a.inflight + 1 }
      memRequest { t with xfer := { t.xfer with active := some a' } } (chunkReq t a.job a.issued)
    else .held

/-! ## The local memory and its responses -/

/-- The effect and the answer of the local memory for one request (20_memory R106, R110). -/
def memServe (c : Config) (m : Memory) (r : MemReq) : Memory × MemResp :=
  if c.beyondMem r.addr r.len then (m, { err := true, data := [], ss := r.ss })
  else match r.op with
    | .read => (m, { err := false, data := m.readBytes r.addr r.len, ss := r.ss })
    | .write => (m.writeBytes r.addr (r.data.take r.len), { err := false, data := [], ss := r.ss })

/-- The local memory answers its oldest request (20_memory R110). -/
def memAnswer (t : Tile) : Result :=
  match t.memIn with
  | [] => .held
  | r :: rest =>
    let p := memServe t.cfg t.mem r
    .done { t with mem := p.1, memIn := rest, memOut := t.memOut ++ [p.2] } none

/-- A TRANSFER response for the active job, at a tile from which the response is already taken (43_transfer_unit R354). -/
def transferResponse (last : Bool) (r : MemResp) (t : Tile) : Result :=
  match t.xfer.active with
  | none => .held
  | some a =>
    let acc := if a.job.dir = .toNoc then a.acc ++ r.data else a.acc
    let a' := { a with acc := acc, completed := a.completed + 1, inflight := a.inflight - 1 }
    let res :=
      if last then jobDone a.job.owner acc t else .done { t with xfer := { t.xfer with active := some a' } } none
    if res.isHeld then .held else if r.err then .fatal .transactionError else res

/-- A HEADER response (42_message_unit R306, 43_transfer_unit R362). -/
def headerResponse (r : MemResp) (t : Tile) : Result :=
  match t.cmd with
  | .exec .reply ep .hdr sn => if r.err then .fatal .transactionError else headerFetched ep sn r.data t
  | _ => .held

/-- The DTU handles the response at its memory port: it is matched to the head of `dtu.memq`, which is removed, and
dispatched by the tag (43_transfer_unit R361). -/
def memResponse (t : Tile) : Result :=
  match t.memOut, t.memq with
  | r :: rest, ss :: q =>
    let t' := { t with memOut := rest, memq := q }
    match ss with
    | .transfer _ _ _ last _ => transferResponse last r t'
    | .header _ _ => headerResponse r t'
  | _, _ => .held

end Sys2Proof.Machine
end

