-- ==== Sys2Proof/Machine/Async.lean ====
section
/-!
DEFINITION. The asynchronous completion protocol: matching of NoC responses, retry, and the acceptance of inbound traffic
(44_async_completion R390 to R406).
-/

namespace Sys2Proof.Machine

/-! ## NoC responses -/

/-- Dispatch of a matched NoC response (44_async_completion R392). -/
def responseHandler (e : NocSS) (r : NocResp) (t : Tile) : Result :=
  match e.requester, e.kind with
  | .cmd, .readReq => match t.cmd with
    | .exec .read ep .waitData sn => readComplete ep sn r t
    | _ => .fatal .responseMismatch
  | .cmd, .writeReq => match t.cmd with
    | .exec .write _ .waitAck _ => .done t.retire none
    | _ => .fatal .responseMismatch
  | .cmd, .message => match t.cmd with
    | .exec .send _ .waitAck _ => .done t.retire none
    | .exec .reply _ .waitAck _ => .done t.retire none
    | _ => .fatal .responseMismatch
  | .cpu, .cacheMemReq => forwardedResponse e.dir e.size e.origAddr r t
  | _, _ => .fatal .responseMismatch

/-- Response matching; the response of a forwarded request waits until CPU_RESP is free (44_async_completion R391, R397). -/
def nocResponse (r : NocResp) (t : Tile) : Result :=
  match t.nocq.find? (fun e => e.id == r.ss) with
  | none => .fatal .responseMismatch
  | some e =>
    if e.requester = .cpu ∧ t.free .cpuResp = false then .held
    else if e.kind ≠ r.kind then .fatal .responseMismatch
    else if r.err then .fatal .transactionError
    else responseHandler e r { t with nocq := t.nocq.filter fun e => e.id != r.ss }

/-! ## Retry -/

/-- Tile `k` offers the item waiting on a channel again (44_async_completion R396). -/
def retryChannel (k : Nat) (ch : Channel) (s : State) : State :=
  match s.tiles[k]? with
  | none => s
  | some t =>
    match t.retry.slot ch with
    | none => s
    | some item => s.send k { t with retry := t.retry.clear ch } item

/-! ## Inbound requests -/

/-- A non-functional NoC request is accepted (44_async_completion R405). -/
def Tile.inboundReady (t : Tile) : Bool := decide (t.inb = .idle) && t.free .nocResp

/-- The rest of a register access after its first part: in ATOMIC mode the issued command runs to quiescence first
(`run`), and a fatal error on the way ends the step; then DENY_SUSPEND and the response (40_command_engine R200). -/
def regComplete (run : State → Host.Outcome State Fault Refusal) (k : Nat) (item : Item) (s : State) :
    Host.Outcome State Fault Refusal :=
  let issued : Bool := decide (s.mode = .atomic) && (s.tiles[k]?).any Tile.hasScheduled
  andThen (if issued then run s else .next s) fun s' =>
    match s'.raised with
    | some _ => .next s'
    | none => .next (s'.onTile k (regEnd item))

/-- A NoC peer's register access at tile `k` (41_memory_unit R261). -/
def nocRegister (run : State → Host.Outcome State Fault Refusal) (k : Nat) (r : NocReq) (t : Tile) (s : State) :
    Host.Outcome State Fault Refusal :=
  match nocRegAccess r t with
  | .error c => .next (s.commit k (externalise r t (.fatal c)))
  | .ok (t', reply) =>
    regComplete run k
      (.nocResp r.src
        { kind := r.kind, status := .ok, err := false, data := reply.toBytes t.cfg, ss := r.ss })
      (s.setTile k t')

/-- An accepted request at tile `k`, dispatched on its type tag (44_async_completion R405, 41_memory_unit R260). -/
def inboundRequest (run : State → Host.Outcome State Fault Refusal) (k : Nat) (r : NocReq) (t : Tile) (s : State) :
    Host.Outcome State Fault Refusal :=
  if r.kind = .message then .next (s.commit k (externalise r t (inboundMessage r t)))
  else if t.cfg.nocCore r.addr ≠ t.cfg.ownCoreId then
    .next (s.commit k (externalise r t (.fatal .misrouted)))
  else if t.cfg.inWindow (t.cfg.nocOff r.addr) then nocRegister run k r t s
  else .next (s.commit k (externalise r t (inboundMemory r t)))

/-- Tile `t`, with index `k`, takes the packet of flight `f` (44_async_completion R405). A response goes only to the core
it is routed to; a functional request never travels (notes/assumptions/23.md). -/
def takes (k : Nat) (t : Tile) (f : Flight) : Bool :=
  match f.packet with
  | .resp r => decide (f.dst = k) && !(nocResponse r t).isHeld
  | .req r => decide (r.kind ≠ .cacheMemReqFunc) && t.inboundReady

/-- The response the NoC carries next fails in its transport, by its choice in ATOMIC mode (44_async_completion R420,
notes/assumptions/28.md). -/
def State.failsNow (s : State) : Bool := decide (s.mode = .atomic) && decide (s.failAfter = some 0)

/-- The response as the NoC delivers it: marked, when its transport fails (44_async_completion R420). -/
def State.carried (s : State) (r : NocResp) : NocResp := if s.failsNow then { r with err := true } else r

/-- In ATOMIC mode the NoC counts the response it carries (44_async_completion R420). -/
def State.countResponse (s : State) : State :=
  match s.mode with
  | .timed => s
  | .atomic => { s with failAfter := s.failAfter.map fun n => n - 1 }

/-- The NoC delivers the packet at position `i` to tile `k` (44_async_completion R405). -/
def deliver (run : State → Host.Outcome State Fault Refusal) (i k : Nat) (s : State) :
    Host.Outcome State Fault Refusal :=
  match s.noc[i]?, s.tiles[k]? with
  | some f, some t =>
    if takes k t f then
      let s' := { s with noc := s.noc.eraseIdx i }
      match f.packet with
      | .resp r => .next (s'.countResponse.commit k (nocResponse (s.carried r) t))
      | .req r => inboundRequest run k r t s'
    else .next s
  | _, _ => .next s

/-- A request to a core that no tile is. -/
def State.undeliverable (s : State) (i : Nat) : Bool :=
  match s.noc[i]? with
  | some { dst := d, packet := .req _ } => (s.tiles[d]?).isNone
  | _ => false

/-- The NoC fails in the transport of the packet at position `i` (44_async_completion R420): it marks a response with `err`, and a
request to a core that no tile is comes back to its requester as a response with `err` (DESIGN CHOICE,
notes/assumptions/11.md). -/
def transportFails (i : Nat) (s : State) : State :=
  match s.noc[i]? with
  | some { dst := d, packet := .resp r } =>
    { s with noc := s.noc.set i { dst := d, packet := .resp { r with err := true } } }
  | some { dst := _, packet := .req r } =>
    if s.undeliverable i then
      { s with
        noc := s.noc.set i
          { dst := r.src, packet := .resp { kind := r.kind, status := .denied, err := true, data := [], ss := r.ss } } }
    else s
  | none => s

end Sys2Proof.Machine
end

