-- ==== Sys2Proof/Machine/Cpu.lean ====
section
/-!
DEFINITION. The CPU's side: which requests its DTU accepts, and what they do (44_async_completion R397, R401, R407;
20_memory R101).
-/

namespace Sys2Proof.Machine

/-- The DTU accepts the request now: the platform routes it there and its channels are free (44_async_completion R397,
R407; 41_memory_unit R270). The CPU's own local-memory access does not pass through the DTU. -/
def Tile.accepts (t : Tile) : CpuReq → Bool
  | .reg a => t.cfg.inWindow a.addr && t.free .cpuResp
  | .cache q =>
    !t.cfg.inWindow q.addr && t.cfg.forwardsAddr q.addr && t.free .cpuResp && (q.functional || t.free .nocReq)
  | .localRead _ _ => true
  | .localWrite _ _ => true

/-- The CPU's own read of local memory (30_encoding R170, notes/assumptions/18.md). -/
def localRead (addr len : Nat) (t : Tile) : Tile :=
  let resp : CpuResp :=
    if t.cfg.beyondMem addr len then .localResp true [] else .localResp false (t.mem.readBytes addr len)
  { t with inbox := t.inbox ++ [resp] }

/-- The CPU's own write of local memory (30_encoding R170, notes/assumptions/18.md). -/
def localWrite (addr : Nat) (data : List Byte) (t : Tile) : Tile :=
  if t.cfg.beyondMem addr data.length then { t with inbox := t.inbox ++ [.localResp true []] }
  else { t with mem := t.mem.writeBytes addr data, inbox := t.inbox ++ [.localResp false []] }

/-- The CPU's register access at tile `k` (40_command_engine R200). -/
def cpuRegister (run : State → Host.Outcome State Fault Refusal) (k : Nat) (a : RegAccess) (t : Tile) (s : State) :
    Host.Outcome State Fault Refusal :=
  match regAccess t a .cpu with
  | .error c => .next (s.raise k c)
  | .ok (t', reply) => regComplete run k (.cpuResp reply.toCpu) (s.setTile k t')

/-- The request `r` of the CPU of tile `k`, taken from a state in which that tile is `t`; `none`: it is not accepted and
stays with the CPU (44_async_completion R397). -/
def cpuRequest (run : State → Host.Outcome State Fault Refusal) (k : Nat) (r : CpuReq) (t : Tile) (s : State) :
    Option (Host.Outcome State Fault Refusal) :=
  if t.accepts r then
    match r with
    | .reg a => some (cpuRegister run k a t s)
    | .cache q => some (.next (cacheRequest k q t s))
    | .localRead a n => some (.next (s.setTile k (localRead a n t)))
    | .localWrite a d => some (.next (s.setTile k (localWrite a d t)))
  else none

/-- The CPU of tile `k` makes a request; what is not accepted waits at its port (44_async_completion R397, R407). -/
def cpuIssues (run : State → Host.Outcome State Fault Refusal) (k : Nat) (r : CpuReq) (s : State) :
    Host.Outcome State Fault Refusal :=
  match s.tiles[k]? with
  | none => .next s
  | some t =>
    if t.cpuRuns then
      match cpuRequest run k r t s with
      | some o => o
      | none => .next (s.setTile k { t with port := t.port ++ [r] })
    else .next s

/-- The CPU of tile `k` offers the waiting request at position `i` again (44_async_completion R397), unless it is suspended
(R407, 40_command_engine R213). -/
def cpuAgain (run : State → Host.Outcome State Fault Refusal) (k i : Nat) (s : State) :
    Host.Outcome State Fault Refusal :=
  match s.tiles[k]? with
  | none => .next s
  | some t =>
    if t.cpuRuns then
      match t.port[i]? with
      | none => .next s
      | some r =>
        let t' := { t with port := t.port.eraseIdx i }
        match cpuRequest run k r t' (s.setTile k t') with
        | some o => o
        | none => .next s
    else .next s

end Sys2Proof.Machine
end

