-- ==== Sys2Proof/Machine/Engine.lean ====
section
/-!
DEFINITION. The commands the engine completes inside dispatch: IDLE, INC_READ_PTR and WAKEUP_CORE (40_command_engine R211
to R213).
-/

namespace Sys2Proof.Machine

/-- IDLE: COMMAND keeps its word (40_command_engine R211). -/
def idleRule (t : Tile) : Result := .done { t with cmd := .idle } none

/-- The ring advance of INC_READ_PTR (40_command_engine R212). -/
def Tile.advanceRing (t : Tile) (ep : Nat) : Tile :=
  let cnt := t.ep ep .bufMsgCnt
  let slots := t.ep ep .bufSlots
  let rd := t.ep ep .bufRdPtr
  if cnt = 0 then t.deny .readPtrUnderflow .cmd ep rd 0
  else if slots = 0 then t.deny .ringInvalid .cmd ep rd 0
  else (t.setEp ep .bufRdPtr ((rd + 1) % slots)).setEp ep .bufMsgCnt (cnt - 1)

/-- INC_READ_PTR (40_command_engine R212). -/
def incReadPtrRule (ep : Nat) (t : Tile) : Result := .done (t.advanceRing ep).retire none

/-- WAKEUP_CORE (40_command_engine R213). -/
def wakeupCoreRule (t : Tile) : Result := .done t.wake.retire none

/-- IDLE. -/
def execIdle (ep : Nat) (s : State) : Host.Outcome State Fault Refusal := dispatchOn [] ep idleRule s

/-- INC_READ_PTR. -/
def execIncReadPtr (ep : Nat) (s : State) : Host.Outcome State Fault Refusal := dispatchOn [] ep (incReadPtrRule ep) s

/-- WAKEUP_CORE. -/
def execWakeupCore (ep : Nat) (s : State) : Host.Outcome State Fault Refusal := dispatchOn [] ep wakeupCoreRule s

end Sys2Proof.Machine
end

