-- ==== Sys2Proof/Machine/Dispatch.lean ====
section
/-!
DEFINITION. The dispatch of a decoded instruction to its one handler (40_command_engine R210, R214).
-/

namespace Sys2Proof.Machine

def exec (i : Instr) (s : State) : Host.Outcome State Fault Refusal :=
  match i with
  | .idle ep => Sys2Proof.Machine.execIdle ep s
  | .send ep => Sys2Proof.Machine.execSend ep s
  | .reply ep => Sys2Proof.Machine.execReply ep s
  | .read ep => Sys2Proof.Machine.execRead ep s
  | .write ep => Sys2Proof.Machine.execWrite ep s
  | .incReadPtr ep => Sys2Proof.Machine.execIncReadPtr ep s
  | .wakeupCore ep => Sys2Proof.Machine.execWakeupCore ep s

end Sys2Proof.Machine
end

