-- ==== Sys2Proof/Machine/Chain.lean ====
section
/-!
DEFINITION. One step of one agent, and the chain of steps an external event starts in ATOMIC mode (44_async_completion R400,
R401).
-/

namespace Sys2Proof.Machine

/-! ## Dispatch -/

/-- The fatal code of a word that is no instruction (40_command_engine R209, R210). -/
def decodeFatal : DecodeError → FatalCode
  | .decodeWidth => .decodeWidth
  | .reservedCmdBits => .reservedCmdBits
  | .unknownOpcode => .unknownOpcode

/-- What the DTU decodes: the word in COMMAND (40_command_engine R208). -/
def Tile.decoded (t : Tile) : Except DecodeError Instr := decode t.cfg (t.reg commandReg)

/-- The dispatch step of tile `k` (40_command_engine R208 to R210). -/
def dispatchStep (k : Nat) (s : State) : Host.Outcome State Fault Refusal :=
  match s.tiles[k]? with
  | none => .next s
  | some t =>
    if t.hasScheduled then
      match t.decoded with
      | .error e => .next (s.raise k (decodeFatal e))
      | .ok i => exec i { s with cur := k }
    else .next s

/-- The channels the dispatch of an opcode may offer on (44_async_completion R397). -/
def dispatchChannels : Opcode → List Channel
  | .read => [.nocReq]
  | .reply => [.memReq]
  | _ => []

/-- The dispatch step is enabled (40_command_engine R208, 44_async_completion R397). -/
def Tile.dispatchReady (t : Tile) : Bool :=
  t.hasScheduled &&
    match t.decoded with
    | .error _ => true
    | .ok i => t.allFree (dispatchChannels i.opcode)

/-! ## One step of one agent (44_async_completion R401) -/

/-- The step of one event; `run` is the ATOMIC chain of a command that a register access issues. An event whose step is
not enabled changes nothing (00_scope R14). -/
def perform (run : State → Host.Outcome State Fault Refusal) (e : Event) (s : State) :
    Host.Outcome State Fault Refusal :=
  match e with
  | .dispatch k => dispatchStep k s
  | .activate k => .next (s.onTile k activateJob)
  | .issue k => .next (s.onTile k issueChunk)
  | .memAnswer k => .next (s.onTile k memAnswer)
  | .memResponse k => .next (s.onTile k memResponse)
  | .deliver i k => deliver run i k s
  | .retryReady k ch => .next (retryChannel k ch s)
  | .cpu k r => cpuIssues run k r s
  | .cpuAgain k i => cpuAgain run k i s
  | .suspend k => .next (s.onTile k suspendCpu)
  | .transportError i => .next (transportFails i s)
  | .failAfter n => .next { s with failAfter := some n }

/-! ## The ATOMIC chain (44_async_completion R400) -/

/-- A step inside a chain is enabled. -/
def State.enabled (s : State) : Event → Bool
  | .dispatch k => (s.tiles[k]?).any Tile.dispatchReady
  | .activate k => (s.tiles[k]?).any fun t => !(activateJob t).isHeld
  | .issue k => (s.tiles[k]?).any fun t => !(issueChunk t).isHeld
  | .memAnswer k => (s.tiles[k]?).any fun t => !t.memIn.isEmpty
  | .memResponse k => (s.tiles[k]?).any fun t => !(memResponse t).isHeld
  | .deliver i k => (s.noc[i]?).any fun f => decide (f.dst = k) && (s.tiles[k]?).any fun t => takes k t f
  | .transportError i => s.undeliverable i
  | _ => false

/-- The steps inside a chain, in their priority: what a pending call is waiting for (memory response, memory answer,
delivery, or the failure of a request that no tile takes, notes/assumptions/11.md), then dispatch, activation and chunk issue
(44_async_completion R400). -/
def State.chainEvents (s : State) : List Event :=
  let ks := List.range s.tiles.length
  ks.map .memResponse ++ ks.map .memAnswer
    ++ (List.range s.noc.length).flatMap (fun i => ks.map fun k => .deliver i k)
    ++ (List.range s.noc.length).map .transportError
    ++ ks.map .dispatch ++ ks.map .activate ++ ks.map .issue

/-- The next step of a chain; `none`: the system is quiescent. -/
def State.nextEvent (s : State) : Option Event := s.chainEvents.find? s.enabled

/-- The chain from `s`, of at most `n` steps; `start` is the state at the start of the whole step, to which a fatal error
returns (44_async_completion R400, R410). -/
def runChain : Nat → State → State → Host.Outcome State Fault Refusal
  | 0, _, _ => .fault .atomicChainUnfinished
  | n + 1, start, s =>
    match s.raised with
    | some (k, c) => .next (start.raise k c)
    | none =>
      match s.nextEvent with
      | none => .next s
      | some e => andThen (perform (runChain n start) e s) (runChain n start)

/-- A bound on the steps that `size` bytes of transfer take. -/
def transferBound (size : Nat) : Nat := 4 * size + 8

/-- The steps a tile's own pending work can take. -/
def Tile.pendingBound (t : Tile) : Nat :=
  (t.xfer.queue.map fun j => transferBound j.size).sum
    + (match t.xfer.active with
      | some a => transferBound a.job.size
      | none => 0)
    + 2 * t.memIn.length + t.memOut.length + transferBound t.cfg.maxNocPacketSize

/-- The length allowed to a chain: in it each tile runs at most one command and each command sends at most one request, so
the bound counts for every tile and every packet in flight the transfers of the largest packet at both ends
(notes/assumptions/10.md). -/
def State.chainBound (s : State) : Nat :=
  let packet := s.tiles.foldl (fun m t => max m (transferBound t.cfg.maxNocPacketSize)) 0
  (s.tiles.length + s.noc.length + 2) * (2 * packet + 16)
    + (s.tiles.map Tile.pendingBound).sum
    + (s.noc.map fun f => match f.packet with
        | .req r => transferBound (r.size + r.data.length)
        | .resp r => transferBound r.data.length).sum

end Sys2Proof.Machine
end

