-- ==== Sys2Proof/Machine/Step.lean ====
section
/-!
DEFINITION. One step of the system (00_scope R6, R14; 44_async_completion R400, R401, R410), and the placing of a command
word where the next step runs it.
-/

namespace Sys2Proof.Machine

/-- The environment's next choice is made: the event of the step, and the state with the choice used up. -/
def State.nextTurn (s : State) : Event × State :=
  match s.turns with
  | [] =>
    ((Config.freeTurn s.tick).event, { s with refuse := (Config.freeTurn s.tick).refuse, tick := s.tick + 1 })
  | t :: rest => (t.event, { s with turns := rest, refuse := t.refuse })

/-- The step of one event from the state `s`: in TIMED mode the event alone, in ATOMIC mode with the whole chain it starts
(44_async_completion R400, R401). -/
def State.stepEvent (s : State) (e : Event) : Host.Outcome State Fault Refusal :=
  let run := runChain s.chainBound s
  match s.mode with
  | .timed => s.settle (perform run e s)
  | .atomic => s.settle (andThen (perform run e s) run)

/-- One step. After a fatal error no agent takes another step (44_async_completion R410). -/
def step (s : State) : Host.Outcome State Fault Refusal :=
  match s.raised with
  | some (k, c) => .fault (.halted k c)
  | none => s.nextTurn.2.stepEvent s.nextTurn.1

/-- `s` with the `nbits`-bit word `w` in COMMAND of tile `s.cur`, scheduled as by its CPU, and that tile's dispatch as the
environment's next choice (40_command_engine R202, R208; notes/assumptions/6.md). -/
def State.withFetchWord (s : State) (nbits w : Nat) : State :=
  { s with
    tiles := s.tiles.modify s.cur fun t => { t.setReg commandReg (w % 2 ^ nbits) with cmd := .scheduled .cpu }
    turns := { event := .dispatch s.cur, refuse := false } :: s.turns }

end Sys2Proof.Machine
end

