-- ==== Sys2Proof/Safety.lean ====
section
/-!
DEFINITION. The terms in which claims about runs are stated: what a step is given, which tile it belongs to, which register
software writes by it, and the invariants of a run.
-/

namespace Sys2Proof.Machine

/-! ## What a step is given -/

/-- TIMED mode, no fatal error so far, and the environment's next choice is the event `e`, with the offer of its step
refused or not as `r` says (44_async_completion R401, R420). -/
structure State.Due (s : State) (e : Event) (r : Bool) (rest : List Turn) : Prop where
  timed : s.mode = .timed
  running : s.raised = none
  next : s.turns = { event := e, refuse := r } :: rest

/-- The state in which that event's step is taken: the choice is used up. -/
def State.chosen (s : State) (r : Bool) (rest : List Turn) : State := { s with turns := rest, refuse := r }

/-- A fatal error has halted the system (44_async_completion R410). -/
def State.halted (s : State) : Prop := ∃ t ∈ s.tiles, t.fatal ≠ none

/-- The environment's next choice is that the running CPU of tile `k` makes the request `q`, or offers it again from its port
(44_async_completion R397, R407). `t` is its tile, with that request no longer at the port. -/
def State.CpuOffers (s : State) (k : Nat) (q : CpuReq) (r : Bool) (rest : List Turn) (t : Tile) : Prop :=
  t.cpuRuns = true ∧
    ((s.Due (.cpu k q) r rest ∧ s.tiles[k]? = some t) ∨
      ∃ i u, s.Due (.cpuAgain k i) r rest ∧ s.tiles[k]? = some u ∧ u.port[i]? = some q ∧
        t = { u with port := u.port.eraseIdx i })

/-! ## Whose step an event is -/

/-- The tile whose agent takes the step of an event; the failure of a transport belongs to the NoC. -/
def Event.tile : Event → Option Nat
  | .dispatch k | .activate k | .issue k | .memAnswer k | .memResponse k | .deliver _ k | .retryReady k _ | .cpu k _
  | .cpuAgain k _ | .suspend k => some k
  | .transportError _ | .failAfter _ => none

/-- The CPU request an event offers to a DTU. -/
def State.offered (s : State) : Event → Option CpuReq
  | .cpu _ r => some r
  | .cpuAgain k i => (s.tiles[k]?).bind fun t => t.port[i]?
  | _ => none

/-- A functional cache-memory request: the one request that is served at two tiles in one step (41_memory_unit R272). -/
def CpuReq.isFunctional : CpuReq → Bool
  | .cache q => q.functional
  | _ => false

/-! ## Which register software writes -/

/-- The register index a register access stores to, if its form is legal. -/
def RegAccess.stores (c : Config) (a : RegAccess) : Option Nat :=
  if a.isWrite = true ∧ regCheck c a = none then some (c.regIndexOf a.addr) else none

/-- The register index a NoC request stores to at the tile `t` that serves it. -/
def NocReq.stores (t : Tile) (r : NocReq) : Option Nat :=
  if r.kind ≠ .message ∧ t.cfg.inWindow (t.cfg.nocOff r.addr) = true then (r.regAccess t.cfg).stores t.cfg else none

/-- The register, as tile and index, to which a request of the CPU of tile `k` stores. -/
def State.cpuStores (s : State) (k : Nat) (t : Tile) : CpuReq → Option (Nat × Nat)
  | .reg a => (a.stores t.cfg).map fun i => (k, i)
  | .cache q =>
    match forward q t with
    | .ends _ => none
    | .forwarded need n =>
      if q.functional then
        (s.tiles[t.cfg.nocCore n]?).bind fun u =>
          ((forwardReq .cacheMemReqFunc need n q t).stores u).map fun i => (t.cfg.nocCore n, i)
      else none
  | .localRead _ _ => none
  | .localWrite _ _ => none

/-- The register, as tile and index, to which the event stores by a register access of a CPU or of a NoC peer, whether or
not the access is accepted. -/
def State.softwareStores (s : State) (e : Event) : Option (Nat × Nat) :=
  match e with
  | .deliver i k =>
    match s.noc[i]?, s.tiles[k]? with
    | some { dst := _, packet := .req r }, some t => (r.stores t).map fun j => (k, j)
    | _, _ => none
  | .cpu k r => (s.tiles[k]?).bind fun t => s.cpuStores k t r
  | .cpuAgain k i => (s.tiles[k]?).bind fun t => (t.port[i]?).bind fun r => s.cpuStores k t r
  | _ => none

/-! ## Invariants of a run -/

/-- Every local memory is in its canonical form. -/
def State.MemoriesCanonical (s : State) : Prop := ∀ t ∈ s.tiles, t.mem.wf = true

/-- The register file has its size and every register holds a `W`-bit value (10_state R31). -/
structure Tile.RegsFit (t : Tile) : Prop where
  length : t.regs.length = t.cfg.regfileWords
  bound : ∀ v ∈ t.regs, v < 2 ^ t.cfg.W

/-- No item waits for a retry on any channel of any tile. -/
def State.NoRetry (s : State) : Prop := ∀ t ∈ s.tiles, ∀ ch, t.retry.slot ch = none

/-- The kind of response a command waits for (10_state R38). -/
def CmdState.awaits : CmdState → Option NocKind
  | .exec .read _ .waitData _ => some .readReq
  | .exec .write _ .waitAck _ => some .writeReq
  | .exec .send _ .waitAck _ => some .message
  | .exec .reply _ .waitAck _ => some .message
  | _ => none

/-- The outstanding NoC requests of a tile: their ids are distinct and already given out, and those of the command are
exactly the one request whose response it waits for (10_state R45, 44_async_completion R393). -/
structure Tile.RequestsOk (t : Tile) : Prop where
  fresh : ∀ e ∈ t.nocq, e.id < t.nextId
  distinct : (t.nocq.map NocSS.id).Nodup
  command : (t.nocq.filter fun e => e.requester = .cmd).map NocSS.kind = t.cmd.awaits.toList

/-- The phase is one of its operation's (10_state R38). -/
def CmdState.phaseOk : CmdState → Bool
  | .exec .send _ ph _ | .exec .write _ ph _ => decide (ph = .xferOut) || decide (ph = .waitAck)
  | .exec .reply _ ph _ => decide (ph = .hdr) || decide (ph = .xferOut) || decide (ph = .waitAck)
  | .exec .read _ ph _ => decide (ph = .waitData) || decide (ph = .xferIn)
  | _ => true

/-- The direction of the transfer job the command waits for (10_state R38, 43_transfer_unit R350). -/
def CmdState.transfers : CmdState → Option XferDir
  | .exec _ _ .xferOut _ => some .toNoc
  | .exec _ _ .xferIn _ => some .fromNoc
  | _ => none

/-- The direction of the transfer job the inbound service waits for (43_transfer_unit R350). -/
def InbState.transfers : InbState → Option XferDir
  | .busy r => some (if r.kind ≠ .message ∧ r.dir = .read then .toNoc else .fromNoc)
  | .idle => none

/-- The transfer jobs of a tile, the active one first. -/
def Tile.jobs (t : Tile) : List Job := (t.xfer.active.map ActiveJob.job).toList ++ t.xfer.queue

/-- The transfer jobs of a tile are the one its command waits for and the one its inbound service waits for (10_state R38, R42,
R43; 43_transfer_unit R350, R355). -/
structure Tile.JobsOk (t : Tile) : Prop where
  phase : t.cmd.phaseOk = true
  command : (t.jobs.filter fun j => j.owner = .cmd).map Job.dir = t.cmd.transfers.toList
  inbound : (t.jobs.filter fun j => j.owner = .inb).map Job.dir = t.inb.transfers.toList

/-- The sender-states between the DTU and its local memory, oldest first: answered, to be answered, refused. -/
def Tile.memPath (t : Tile) : List MemSS :=
  t.memOut.map MemResp.ss ++ t.memIn.map MemReq.ss ++ (t.retry.memReq.map MemReq.ss).toList

/-- What a TRANSFER sender-state says of its chunk: owner, number, last, length. -/
def MemSS.chunk : MemSS → Option (Owner × Nat × Bool × Nat)
  | .transfer _ o k last len => some (o, k, last, len)
  | .header _ _ => none

/-- The tag is HEADER. -/
def MemSS.isHeader : MemSS → Bool
  | .header _ _ => true
  | .transfer _ _ _ _ _ => false

/-- The command is a REPLY that waits for its header (10_state R38). -/
def CmdState.fetchesHeader : CmdState → Bool
  | .exec .reply _ .hdr _ => true
  | _ => false

/-- The chunks of the active job that are issued and not completed, in issue order (43_transfer_unit R353, R354). -/
def Tile.openChunks (t : Tile) (a : ActiveJob) : List (Owner × Nat × Bool × Nat) :=
  (List.range' a.completed (a.issued - a.completed)).map fun k =>
    (a.job.owner, k, t.cfg.chunkLast a.job.size k, t.cfg.chunkLen a.job.size k)

/-- The memory path of a tile is in order: `dtu.memq` lists the requests on their way; its chunks are the open chunks of the
active job, at most BUF_COUNT of them; its header fetches are those of the command (10_state R43, R44; 43_transfer_unit
R360, R363). -/
structure Tile.MemPathOk (t : Tile) : Prop where
  params : t.cfg.valid = true
  path : t.memq = t.memPath
  noJob : t.xfer.active = none → t.memq.filterMap MemSS.chunk = []
  chunks : ∀ a, t.xfer.active = some a → t.memq.filterMap MemSS.chunk = t.openChunks a
  counts : ∀ a, t.xfer.active = some a →
    a.completed < t.cfg.chunkCount a.job.size ∧ a.completed ≤ a.issued ∧ a.issued ≤ t.cfg.chunkCount a.job.size ∧
      a.inflight = a.issued - a.completed ∧ a.inflight ≤ t.cfg.bufCount
  headers : t.memq.countP MemSS.isHeader = if t.cmd.fetchesHeader then 1 else 0

/-- The receive ring of endpoint `e`, with `n` slots, is in order, also while a message for it is landing (42_message_unit
R313). -/
structure Tile.RingOk (t : Tile) (e n : Nat) : Prop where
  fits : t.RegsFit
  endpoint : e < t.cfg.numEndpoints
  slots : t.ep e .bufSlots = n
  pos : 0 < n
  count : t.ep e .bufMsgCnt ≤ n
  writePtr : t.ep e .bufWrPtr = (t.ep e .bufRdPtr + t.ep e .bufMsgCnt) % n
  landing : ∀ r, t.inb = .busy r → r.kind = .message → r.ep = e →
    r.slot = t.ep e .bufWrPtr ∧ r.slots = n ∧ t.ep e .bufMsgCnt < n

/-- The fields of the receive ring that software sets up (42_message_unit R300, R313). -/
def ringFields : List Field := [.bufAddr, .bufSlotSize, .bufSlots, .bufRdPtr, .bufWrPtr, .bufMsgCnt]

end Sys2Proof.Machine
end

