-- ==== Sys2Proof/Certificates/Slice0/Obligations.lean ====
section
/-!
DEFINITION. The statements for the provers. Each docstring names the rule of the spec it formalises. A statement about one step
in TIMED mode takes `s.Due e r rest`: the environment's next choice is the event `e`, and it refuses the offer of the step
exactly if `r`; its step starts in `s.chosen r rest`.
-/

section
open Sys2Proof Sys2Proof.Machine

/-! ## Encoding -/

/-- The command words of the spec's own examples decode to their instructions (40_command_engine R211 to R213,
41_memory_unit R252, R253, 42_message_unit R302, R305). -/
def Obligations.CommandWordsDecode : Prop :=
  decode (Config.default 0) 0x00 = .ok (.idle 0) ∧ decode (Config.default 0) 0x11 = .ok (.send 2) ∧
    decode (Config.default 0) 0x1A = .ok (.reply 3) ∧ decode (Config.default 0) 0x0B = .ok (.read 1) ∧
    decode (Config.default 0) 0x0C = .ok (.write 1) ∧ decode (Config.default 0) 0x1D = .ok (.incReadPtr 3) ∧
    decode (Config.default 0) 0x06 = .ok (.wakeupCore 0)

/-- Decoding the encoding of an instruction gives it back, for all parameters and every endpoint id the field holds
(30_encoding R150 to R156). -/
def Obligations.DecodeOfEncode : Prop :=
  ∀ (c : Config) (i : Instr), c.valid = true → c.opcodeBits + c.epidBits ≤ c.W → i.encodable c = true →
    encode c i < 2 ^ c.W ∧ decode c (encode c i) = .ok i

/-- A word that decodes is the encoding of its instruction: each instruction has one word (30_encoding R156). -/
def Obligations.EncodeOfDecode : Prop :=
  ∀ (c : Config) (v : Nat) (i : Instr), v < 2 ^ c.W → decode c v = .ok i → encode c i = v ∧ i.encodable c = true

/-- The dispatch of a word that is no command is fatal, with the first failing check in the order of the rules
(40_command_engine R209, 30_encoding R153, R155). -/
def Obligations.DispatchRejectsBadWords : Prop :=
  ∀ (s : State) (k : Nat) (r : Bool) (rest : List Turn) (t : Tile) (o : Origin),
    s.Due (.dispatch k) r rest → s.tiles[k]? = some t → t.cmd = .scheduled o →
    (t.cfg.W < t.cfg.opcodeBits + t.cfg.epidBits → step s = .next ((s.chosen r rest).raise k .decodeWidth)) ∧
      (t.cfg.opcodeBits + t.cfg.epidBits ≤ t.cfg.W →
        ((∃ b, t.cfg.opcodeBits + t.cfg.epidBits ≤ b ∧ b < t.cfg.W ∧ (t.reg commandReg).testBit b = true) →
          step s = .next ((s.chosen r rest).raise k .reservedCmdBits)) ∧
        ((∀ b, t.cfg.opcodeBits + t.cfg.epidBits ≤ b → b < t.cfg.W → (t.reg commandReg).testBit b = false) →
          (∀ p, t.cfg.opcodeValue.of p ≠ t.reg commandReg % 2 ^ t.cfg.opcodeBits) →
          step s = .next ((s.chosen r rest).raise k .unknownOpcode)))

/-! ## One step -/

/-- When COMMAND holds the word of an instruction and its dispatch is the next choice, the step runs that instruction: in
TIMED mode it alone (40_command_engine R208, R210), in ATOMIC mode with the chain it starts (44_async_completion R400). The
ATOMIC clause is the model's: the chain runs after its handler (DEDUCED, notes/assumptions/9.md), it is bounded by
`State.chainBound` (notes/assumptions/10.md), and the dispatch of a command that stands in COMMAND is taken as the external
event (notes/assumptions/6.md). -/
def Obligations.StepRunsDecodedInstruction : Prop :=
  ∀ (s : State) (k : Nat) (r : Bool) (rest : List Turn) (t : Tile) (o : Origin) (i : Instr),
    s.raised = none → s.turns = { event := .dispatch k, refuse := r } :: rest → s.tiles[k]? = some t →
    t.cmd = .scheduled o → decode t.cfg (t.reg commandReg) = .ok i →
    (s.mode = .timed →
        step s = (s.chosen r rest).settle (exec i { s.chosen r rest with cur := k })) ∧
      (s.mode = .atomic →
        step s = (s.chosen r rest).settle
          (andThen (exec i { s.chosen r rest with cur := k })
            (runChain (s.chosen r rest).chainBound (s.chosen r rest))))

/-- A fatal error keeps the state as it was at the start of the raising step, except for the code at the raising tile, and
after it no agent takes a step (44_async_completion R410, 60_exceptions R431). That the raising step is a next state and the
later ones are the fault is the model's reading (notes/assumptions/8.md). The state at the start of a step is
`s.nextTurn.2`, in which only the environment's choice is used up. -/
def Obligations.FatalErrorHaltsTheSystem : Prop :=
  (∀ s s' : State, s.raised = none → step s = .next s' →
      s'.raised = none ∨
        ∃ k c, k < s.tiles.length ∧ s' = s.nextTurn.2.raise k c ∧ s'.raised = some (k, c)) ∧
    ∀ (s : State) (t : Tile), t ∈ s.tiles → t.fatal ≠ none →
      ∃ k u c, s.tiles[k]? = some u ∧ u.fatal = some c ∧ step s = .fault (.halted k c)

/-- An ATOMIC step that raises no fatal error ends in quiescence (44_async_completion R400, as read in
notes/assumptions/9.md): from a state in which nothing waits for a retry, in its next state no command is SCHEDULED, no
local-memory request is unanswered, no job with a byte to move waits while none is active, no active job has a chunk to issue
and a buffer for it, no packet is left that its destination takes, and no request to a core that no tile is (it failed,
notes/assumptions/11.md). A tile whose jobs and memory path are in order, as
every step keeps them, then has no job, an empty `dtu.memq`, `dtu.inb` IN_IDLE, and `dtu.cmd` IDLE or waiting for a response
of the NoC. -/
def Obligations.AtomicStepRunsToQuiescence : Prop :=
  ∀ s s' : State, s.mode = .atomic → s.NoRetry → step s = .next s' → s'.raised = none →
    (∀ t ∈ s'.tiles,
      (∀ o, t.cmd ≠ .scheduled o) ∧ t.memIn = [] ∧
      (t.xfer.active = none → ∀ j ∈ t.xfer.queue.head?, j.size = 0) ∧
      (∀ a, t.xfer.active = some a → t.cfg.chunkCount a.job.size ≤ a.issued ∨ t.cfg.bufCount ≤ a.inflight) ∧
      (t.MemPathOk → t.JobsOk →
        t.xfer = { queue := [], active := none } ∧ t.memq = [] ∧ t.memOut = [] ∧ t.inb = .idle ∧
          (t.cmd = .idle ∨ t.cmd.awaits ≠ none))) ∧
    ∀ f ∈ s'.noc,
      (∀ t, s'.tiles[f.dst]? = some t → ∃ q, f.packet = .req q ∧ (q.kind = .cacheMemReqFunc ∨ t.inb ≠ .idle)) ∧
      (s'.tiles[f.dst]? = none → ∃ q, f.packet = .resp q)

/-! ## Reset -/

/-- The state at construction, for all parameters that meet the constraints on a system (00_scope R8, 60_exceptions R452) and
all contents of the local memories (70_reset_and_hazards R480). That other parameters have no launch state is the model's
choice (notes/assumptions/2.md). -/
def Obligations.LaunchState : Prop :=
  ∀ (mode : Mode) (ps : List (Config × Memory)),
    ((∃ s, State.launch mode ps = some s) ↔
      (∀ p ∈ ps, p.1.valid = true ∧ ps.length ≤ 2 ^ p.1.nocCoreBits ∧ p.1.ownCoreId < ps.length) ∧
        ∀ (k : Nat) (p : Config × Memory), ps[k]? = some p → p.1.ownCoreId = k) ∧
    ∀ s : State, State.launch mode ps = some s →
      s.mode = mode ∧ s.noc = [] ∧ s.tiles.length = ps.length ∧
      ∀ (k : Nat) (p : Config × Memory) (t : Tile), ps[k]? = some p → s.tiles[k]? = some t →
        t.cfg = p.1 ∧ t.mem = p.2 ∧ t.regs.length = 16 * (t.cfg.numEndpoints + 1) ∧
        (∀ i < 16, t.reg i = 0) ∧
        (∀ e < t.cfg.numEndpoints, t.reg (16 * (e + 1) + 15) = 0 ∧
          ∀ f, t.ep e f =
            if e = t.cfg.memEp then
              match f with
              | .tgtCore => t.cfg.memCoreId
              | .remBase => t.cfg.memBase
              | .remSize => t.cfg.memSize
              | .perm => 3
              | _ => 0
            else 0) ∧
        t.cmd = .idle ∧ t.inb = .idle ∧ t.xfer = { queue := [], active := none } ∧ t.memq = [] ∧ t.nocq = [] ∧
        t.nextId = 0 ∧ (∀ ch, t.retry.slot ch = none) ∧ t.fatal = none ∧ t.log = [] ∧ t.denySuspend = false ∧
        t.denySuspend = t.pendingMessage ∧ t.suspended = false

/-- The state at construction meets the invariants of a run. -/
def Obligations.LaunchMeetsInvariants : Prop :=
  ∀ (mode : Mode) (ps : List (Config × Memory)) (s : State), State.launch mode ps = some s →
    (∀ p ∈ ps, p.2.wf = true) →
    s.raised = none ∧ s.MemoriesCanonical ∧ s.NoRetry ∧ Config.systemValid (s.tiles.map Tile.cfg) = true ∧
      ∀ t ∈ s.tiles, t.RegsFit ∧ t.RequestsOk ∧ t.JobsOk ∧ t.MemPathOk

/-! ## Invariants of every step -/

/-- Every step keeps the local memories in their canonical form, which is the model's own form of them
(notes/assumptions/4.md). -/
def Obligations.StepKeepsMemoriesCanonical : Prop :=
  ∀ s s' : State, s.MemoriesCanonical → step s = .next s' → s'.MemoriesCanonical

/-- Every step keeps the size of the register files and the width of every register (10_state R31). -/
def Obligations.StepKeepsRegistersFit : Prop :=
  ∀ s s' : State, (∀ t ∈ s.tiles, t.RegsFit) → step s = .next s' → ∀ t ∈ s'.tiles, t.RegsFit

/-- No step changes the mode, the number of tiles or a tile's parameters (00_scope R7). -/
def Obligations.StepKeepsParameters : Prop :=
  ∀ s s' : State, step s = .next s' → s'.mode = s.mode ∧ s'.tiles.map Tile.cfg = s.tiles.map Tile.cfg

/-- In ATOMIC mode no retry slot is ever filled (44_async_completion R400). -/
def Obligations.AtomicStepKeepsRetryEmpty : Prop :=
  ∀ s s' : State, s.mode = .atomic → s.NoRetry → step s = .next s' → s'.NoRetry

/-- Every step keeps the outstanding NoC requests in order: the ids are unique, and at most one entry is the command's, of
the kind whose response the command waits for (10_state R45, 44_async_completion R393). And it keeps the transfer jobs in
order: they are the one the command's phase waits for and the one the inbound service waits for, each in its direction
(10_state R38, R42, R43; 43_transfer_unit R350, R355). -/
def Obligations.StepKeepsRequestsInOrder : Prop :=
  ∀ s s' : State, step s = .next s' →
    ((∀ t ∈ s.tiles, t.RequestsOk) → ∀ t ∈ s'.tiles, t.RequestsOk) ∧
      ((∀ t ∈ s.tiles, t.JobsOk) → ∀ t ∈ s'.tiles, t.JobsOk)

/-- Every step keeps the memory path in order: `dtu.memq` lists the local-memory requests on their way in issue order, and
the chunks among them are the open chunks of the active job (10_state R43, R44; 43_transfer_unit R354, R356, R360). -/
def Obligations.StepKeepsMemoryPathInOrder : Prop :=
  ∀ s s' : State, (∀ t ∈ s.tiles, t.MemPathOk) → step s = .next s' → ∀ t ∈ s'.tiles, t.MemPathOk

/-- A memory path in order meets the bounds on outstanding local-memory requests (43_transfer_unit R363), so with
`StepKeepsMemoryPathInOrder` every run does. -/
def Obligations.MemoryPathBounds : Prop :=
  ∀ t : Tile, t.MemPathOk →
    (t.memq.countP fun m => !m.isHeader) ≤ t.cfg.bufCount ∧ t.memq.countP MemSS.isHeader ≤ 1 ∧
      t.memq.length ≤ t.cfg.bufCount + 1

/-- The ring invariant: a step in which software writes no ring register of the endpoint keeps the count within the
capacity and the write pointer at the read pointer plus the count (42_message_unit R313), in TIMED mode. -/
def Obligations.TimedStepKeepsRing : Prop :=
  ∀ (s s' : State) (e : Event) (r : Bool) (rest : List Turn) (k : Nat) (t : Tile) (p n : Nat),
    s.Due e r rest → (∀ f ∈ ringFields, s.softwareStores e ≠ some (k, epReg p f)) →
    s.tiles[k]? = some t → t.RingOk p n → step s = .next s' →
    ∃ t', s'.tiles[k]? = some t' ∧ t'.RingOk p n

/-- Tiles share no state: a TIMED step of one tile's agent leaves every other tile as it was, but for functional requests
(60_exceptions R452, 41_memory_unit R272). -/
def Obligations.TimedStepIsLocal : Prop :=
  ∀ (s s' : State) (e : Event) (r : Bool) (rest : List Turn) (k : Nat),
    s.Due e r rest → (s.offered e).any CpuReq.isFunctional = false → e.tile ≠ some k → step s = .next s' →
    s'.tiles[k]? = s.tiles[k]?

/-- No step removes or changes a denial record (60_exceptions R440). -/
def Obligations.StepExtendsLog : Prop :=
  ∀ (s s' : State) (k : Nat) (t : Tile), step s = .next s' → s.tiles[k]? = some t →
    ∃ t', s'.tiles[k]? = some t' ∧ t.log <+: t'.log

/-- DENY_SUSPEND holds its value or is recomputed from the message counters, and only CPU requests, deliveries, memory responses
and the activation that finalises a message without a byte (in no run is there one) recompute it (40_command_engine R230), in
TIMED mode. -/
def Obligations.TimedDenySuspend : Prop :=
  ∀ (s s' : State) (e : Event) (r : Bool) (rest : List Turn) (k : Nat) (t : Tile),
    s.Due e r rest → s.tiles[k]? = some t → step s = .next s' →
    ∃ t', s'.tiles[k]? = some t' ∧
      (t'.denySuspend = t.denySuspend ∨
        ((t'.denySuspend = true ↔ ∃ p < t'.cfg.numEndpoints, t'.ep p .bufMsgCnt ≠ 0) ∧
          match e with
          | .deliver _ _ => True
          | .memResponse _ => True
          | .activate _ =>
            ∃ b, t.inb = .busy b ∧ b.kind = .message ∧ ∃ j ∈ t.xfer.queue.head?, j.size = 0 ∧ j.owner = .inb
          | .cpu _ _ => True
          | .cpuAgain _ _ => True
          | _ => False))

/-- The CPU suspends only by its own step, attached and with DENY_SUSPEND false, and only a WAKEUP_CORE wakes it
(40_command_engine R231, 60_exceptions R451). A suspended CPU makes no request, and offers none again (44_async_completion
R407, 40_command_engine R213). In TIMED mode. -/
def Obligations.TimedSuspension : Prop :=
  ∀ (s s' : State) (e : Event) (r : Bool) (rest : List Turn) (k : Nat) (t t' : Tile),
    s.Due e r rest → step s = .next s' → s.tiles[k]? = some t → s'.tiles[k]? = some t' →
    (t.suspended = false → t'.suspended = true →
        e = .suspend k ∧ t.cfg.cpuAttached = true ∧ t.denySuspend = false) ∧
      (t.suspended = true → t'.suspended = false →
        e = .dispatch k ∧ ∃ p, decode t.cfg (t.reg commandReg) = .ok (.wakeupCore p)) ∧
      (t.suspended = true → ((∃ q, e = .cpu k q) ∨ ∃ i, e = .cpuAgain k i) → s' = s.chosen r rest)

/-- While a command is in progress COMMAND keeps its word until it retires, and unless the word is an IDLE command it reads
zero then (40_command_engine R203, R220, R221), in TIMED mode. -/
def Obligations.TimedBusyCommandWord : Prop :=
  ∀ (s s' : State) (e : Event) (r : Bool) (rest : List Turn) (k : Nat) (t t' : Tile),
    s.Due e r rest → step s = .next s' → s.tiles[k]? = some t → s'.tiles[k]? = some t' → t.cmd ≠ .idle →
    (t'.cmd ≠ .idle → t'.reg commandReg = t.reg commandReg) ∧
      (t'.cmd = .idle →
        t'.reg commandReg = 0 ∨
          (t'.reg commandReg = t.reg commandReg ∧ ∃ p, decode t.cfg (t.reg commandReg) = .ok (.idle p)))

/-! ## The seven instructions -/

/-- IDLE ends with no command in progress and changes nothing else: COMMAND keeps its word (40_command_engine R211). -/
def Obligations.ExecIdle : Prop :=
  ∀ (s : State) (t : Tile) (e : Nat), s.tiles[s.cur]? = some t → e < t.cfg.numEndpoints →
    exec (.idle e) s = .next { s with tiles := s.tiles.set s.cur { t with cmd := .idle } }

/-- INC_READ_PTR advances the read pointer and decrements the counter, or logs its denial, and retires
(40_command_engine R212, R220). -/
def Obligations.ExecIncReadPtr : Prop :=
  ∀ (s : State) (t : Tile) (e : Nat), s.tiles[s.cur]? = some t → e < t.cfg.numEndpoints → t.RegsFit →
    ∃ t' : Tile,
      exec (.incReadPtr e) s = .next { s with tiles := s.tiles.set s.cur t' } ∧
      t' = { t with regs := t'.regs, log := t'.log, cmd := .idle } ∧ t'.reg commandReg = 0 ∧
      (∀ i, i ≠ commandReg → i ≠ epReg e .bufRdPtr → i ≠ epReg e .bufMsgCnt → t'.reg i = t.reg i) ∧
      (t.ep e .bufMsgCnt = 0 →
        t'.ep e .bufRdPtr = t.ep e .bufRdPtr ∧ t'.ep e .bufMsgCnt = 0 ∧
          t'.log = t.log ++ [{ code := .readPtrUnderflow, origin := .cmd, ep := e, addr := t.ep e .bufRdPtr, size := 0 }]) ∧
      (t.ep e .bufMsgCnt ≠ 0 → t.ep e .bufSlots = 0 →
        t'.ep e .bufRdPtr = t.ep e .bufRdPtr ∧ t'.ep e .bufMsgCnt = t.ep e .bufMsgCnt ∧
          t'.log = t.log ++ [{ code := .ringInvalid, origin := .cmd, ep := e, addr := t.ep e .bufRdPtr, size := 0 }]) ∧
      (t.ep e .bufMsgCnt ≠ 0 → t.ep e .bufSlots ≠ 0 →
        t'.ep e .bufRdPtr = (t.ep e .bufRdPtr + 1) % t.ep e .bufSlots ∧
          t'.ep e .bufMsgCnt = t.ep e .bufMsgCnt - 1 ∧ t'.log = t.log)

/-- WAKEUP_CORE activates the attached CPU and retires (40_command_engine R213, R220). -/
def Obligations.ExecWakeupCore : Prop :=
  ∀ (s : State) (t : Tile) (e : Nat), s.tiles[s.cur]? = some t → e < t.cfg.numEndpoints →
    exec (.wakeupCore e) s = .next
      { s with
        tiles := s.tiles.set s.cur
          { t with
            suspended := if t.cfg.cpuAttached = true then false else t.suspended
            regs := t.regs.set commandReg 0
            cmd := .idle } }

/-- SEND: its three fatal checks in their order, and otherwise the job that reads its payload, with the header and the
address of the message ready (42_message_unit R302). -/
def Obligations.ExecSend : Prop :=
  ∀ (s : State) (t : Tile) (e : Nat), s.tiles[s.cur]? = some t → e < t.cfg.numEndpoints →
    (t.cfg.maxNocPacketSize < 16 + t.ep e .dataSize → exec (.send e) s = .next (s.raise s.cur .packetTooLarge)) ∧
    (16 + t.ep e .dataSize ≤ t.cfg.maxNocPacketSize →
      (¬(t.ep e .dataSize < 2 ^ 32 ∧ t.cfg.ownCoreId < 2 ^ 16 ∧ e < 2 ^ 8 ∧ t.ep e .replyEp < 2 ^ 8) →
        exec (.send e) s = .next (s.raise s.cur .headerFieldRange)) ∧
      (t.ep e .dataSize < 2 ^ 32 ∧ t.cfg.ownCoreId < 2 ^ 16 ∧ e < 2 ^ 8 ∧ t.ep e .replyEp < 2 ^ 8 →
        (2 ^ t.cfg.nocCoreBits ≤ t.ep e .tgtCore ∨ 2 ^ t.cfg.nocEpBits ≤ t.ep e .tgtEp →
          exec (.send e) s = .next (s.raise s.cur .nocAddrRange)) ∧
        (t.ep e .tgtCore < 2 ^ t.cfg.nocCoreBits ∧ t.ep e .tgtEp < 2 ^ t.cfg.nocEpBits →
          exec (.send e) s = .next
            { s with
              tiles := s.tiles.set s.cur
                { t with
                  cmd := .exec .send e .xferOut
                    { Snap.ofEndpoint t e with
                      nocAddr := BitVec.ofNat 64
                        (t.ep e .tgtCore * 2 ^ (t.cfg.nocEpBits + t.cfg.nocOffsetBits)
                          + t.ep e .tgtEp * 2 ^ t.cfg.nocOffsetBits)
                      hdr := natToBytes 4 (t.ep e .dataSize) ++ natToBytes 2 t.cfg.ownCoreId ++ natToBytes 1 e
                        ++ natToBytes 1 (t.ep e .replyEp) ++ [0, 0, 0, 0, 0, 0, 0, 0] }
                  xfer :=
                    { t.xfer with
                      queue := t.xfer.queue ++
                        [{ dir := .toNoc, loc := t.ep e .locAddr, size := t.ep e .dataSize, data := [],
                           owner := .cmd }] } } })))

/-- REPLY, with MEM_REQ free: its denials, its fatal check, and otherwise the fetch of the header in the slot at BUF_RD_PTR,
handed to the memory or, refused, kept in the retry slot (42_message_unit R305). -/
def Obligations.ExecReply : Prop :=
  ∀ (s : State) (t : Tile) (e : Nat), s.tiles[s.cur]? = some t → e < t.cfg.numEndpoints → t.retry.memReq = none →
    (t.ep e .bufMsgCnt = 0 →
      exec (.reply e) s = .next
        { s with
          tiles := s.tiles.set s.cur
            { t with
              log := t.log ++
                [{ code := .noMessage, origin := .cmd, ep := e, addr := t.ep e .bufRdPtr, size := 0 }]
              regs := t.regs.set commandReg 0
              cmd := .idle } }) ∧
    (t.ep e .bufMsgCnt ≠ 0 →
      (t.ep e .bufSlots = 0 →
        exec (.reply e) s = .next
          { s with
            tiles := s.tiles.set s.cur
              { t with
                log := t.log ++
                  [{ code := .ringInvalid, origin := .cmd, ep := e, addr := t.ep e .bufRdPtr, size := 0 }]
                regs := t.regs.set commandReg 0
                cmd := .idle } }) ∧
      (t.ep e .bufSlots ≠ 0 →
        (t.cfg.maxNocPacketSize < 16 + t.ep e .dataSize →
          exec (.reply e) s = .next (s.raise s.cur .packetTooLarge)) ∧
        (16 + t.ep e .dataSize ≤ t.cfg.maxNocPacketSize →
          ∀ (slot : Nat) (q : MemReq) (u : Tile),
            slot = (t.ep e .bufAddr + t.ep e .bufRdPtr * t.ep e .bufSlotSize) % 2 ^ t.cfg.W →
            q = { op := .read, addr := slot, len := 16, data := [], ss := .header e .cmd } →
            u = { t with
              cmd := .exec .reply e .hdr { Snap.ofEndpoint t e with slotAddr := slot }
              memq := t.memq ++ [.header e .cmd] } →
            (s.refuses = false →
              exec (.reply e) s = .next { s with tiles := s.tiles.set s.cur { u with memIn := t.memIn ++ [q] } }) ∧
            (s.refuses = true →
              exec (.reply e) s = .next
                { s with tiles := s.tiles.set s.cur { u with retry := { t.retry with memReq := some q } } }))))

/-- READ, with NOC_REQ free: a request that fails the check is denied and retires without traffic; the fatal checks follow;
otherwise the READ_REQ goes to the target core or, refused, stays in the retry slot (41_memory_unit R252). -/
def Obligations.ExecRead : Prop :=
  ∀ (s : State) (t : Tile) (e : Nat), s.tiles[s.cur]? = some t → e < t.cfg.numEndpoints → t.retry.nocReq = none →
    t.cfg.valid = true →
    (∀ d, t.cfg.check .read (t.ep e .reqOffset) (t.ep e .dataSize) (t.ep e .remSize) (t.ep e .perm) = some d →
      exec (.read e) s = .next
        { s with
          tiles := s.tiles.set s.cur
            { t with
              log := t.log ++
                [{ code := d, origin := .cmd, ep := e, addr := t.ep e .reqOffset, size := t.ep e .dataSize }]
              regs := t.regs.set commandReg 0
              cmd := .idle } }) ∧
    (t.cfg.check .read (t.ep e .reqOffset) (t.ep e .dataSize) (t.ep e .remSize) (t.ep e .perm) = none →
      (t.cfg.maxNocPacketSize < t.ep e .dataSize → exec (.read e) s = .next (s.raise s.cur .packetTooLarge)) ∧
      (t.ep e .dataSize ≤ t.cfg.maxNocPacketSize →
        (t.cfg.nocTarget (t.ep e .tgtCore) (t.ep e .remBase) (t.ep e .reqOffset) (t.ep e .dataSize) = none →
          exec (.read e) s = .next (s.raise s.cur .nocAddrRange)) ∧
        (∀ a (q : NocReq) (u : Tile),
          t.cfg.nocTarget (t.ep e .tgtCore) (t.ep e .remBase) (t.ep e .reqOffset) (t.ep e .dataSize) = some a →
          q = { kind := .readReq, addr := a, size := t.ep e .dataSize, data := [], src := t.cfg.ownCoreId,
                ss := t.nextId, dir := .read } →
          u = { t with
            cmd := .exec .read e .waitData { Snap.ofEndpoint t e with nocAddr := a }
            nextId := t.nextId + 1
            nocq := t.nocq ++
              [{ id := t.nextId, kind := .readReq, ep := e, requester := .cmd, origAddr := 0,
                 size := t.ep e .dataSize, dir := .read }] } →
          (s.refuses = false →
            exec (.read e) s = .next
              { s with
                tiles := s.tiles.set s.cur u
                noc := s.noc ++ [{ dst := t.ep e .tgtCore, packet := .req q }] }) ∧
          (s.refuses = true →
            exec (.read e) s = .next
              { s with tiles := s.tiles.set s.cur { u with retry := { t.retry with nocReq := some q } } }))))

/-- WRITE: a request that fails the check is denied and retires without traffic; the fatal checks follow; otherwise the job
that reads its data is enqueued (41_memory_unit R253). -/
def Obligations.ExecWrite : Prop :=
  ∀ (s : State) (t : Tile) (e : Nat), s.tiles[s.cur]? = some t → e < t.cfg.numEndpoints →
    (∀ d, t.cfg.check .write (t.ep e .reqOffset) (t.ep e .dataSize) (t.ep e .remSize) (t.ep e .perm) = some d →
      exec (.write e) s = .next
        { s with
          tiles := s.tiles.set s.cur
            { t with
              log := t.log ++
                [{ code := d, origin := .cmd, ep := e, addr := t.ep e .reqOffset, size := t.ep e .dataSize }]
              regs := t.regs.set commandReg 0
              cmd := .idle } }) ∧
    (t.cfg.check .write (t.ep e .reqOffset) (t.ep e .dataSize) (t.ep e .remSize) (t.ep e .perm) = none →
      (t.cfg.maxNocPacketSize < t.ep e .dataSize → exec (.write e) s = .next (s.raise s.cur .packetTooLarge)) ∧
      (t.ep e .dataSize ≤ t.cfg.maxNocPacketSize →
        (t.cfg.nocTarget (t.ep e .tgtCore) (t.ep e .remBase) (t.ep e .reqOffset) (t.ep e .dataSize) = none →
          exec (.write e) s = .next (s.raise s.cur .nocAddrRange)) ∧
        (∀ a, t.cfg.nocTarget (t.ep e .tgtCore) (t.ep e .remBase) (t.ep e .reqOffset) (t.ep e .dataSize) = some a →
          exec (.write e) s = .next
            { s with
              tiles := s.tiles.set s.cur
                { t with
                  cmd := .exec .write e .xferOut { Snap.ofEndpoint t e with nocAddr := a }
                  xfer :=
                    { t.xfer with
                      queue := t.xfer.queue ++
                        [{ dir := .toNoc, loc := t.ep e .locAddr, size := t.ep e .dataSize, data := [],
                           owner := .cmd }] } } })))

/-- An endpoint id out of range is fatal for every opcode, IDLE included (40_command_engine R210). -/
def Obligations.ExecEndpointOutOfRange : Prop :=
  ∀ (i : Instr) (s : State) (t : Tile), s.tiles[s.cur]? = some t → t.cfg.numEndpoints ≤ i.ep →
    t.allFree (dispatchChannels i.opcode) = true → exec i s = .next (s.raise s.cur .epidOutOfRange)

/-- The frame of IDLE, INC_READ_PTR and WAKEUP_CORE: they change the command state, and beside it COMMAND (not IDLE), the ring
registers BUF_RD_PTR and BUF_MSG_CNT of the endpoint and the log (INC_READ_PTR), the suspend bit (WAKEUP_CORE), or record
a fatal code; every byte of every memory and all else stays (40_command_engine R211 to R213). -/
def Obligations.SynchronousFrame : Prop :=
  ∀ (i : Instr) (s s' : State), i.opcode = .idle ∨ i.opcode = .incReadPtr ∨ i.opcode = .wakeupCore →
    exec i s = .next s' →
    s' = { s with tiles := s'.tiles } ∧ s'.tiles.length = s.tiles.length ∧
    ∀ (k : Nat) (t t' : Tile), s.tiles[k]? = some t → s'.tiles[k]? = some t' →
      (k ≠ s.cur → t' = t) ∧
      (∀ a, t'.mem.read a = t.mem.read a) ∧
      t' = { t with cmd := t'.cmd, regs := t'.regs, log := t'.log, suspended := t'.suspended, fatal := t'.fatal } ∧
      (i.opcode = .idle → t'.regs = t.regs) ∧
      (∀ j, j ≠ commandReg →
        (i.opcode = .incReadPtr → j ≠ epReg i.ep .bufRdPtr ∧ j ≠ epReg i.ep .bufMsgCnt) → t'.reg j = t.reg j) ∧
      (i.opcode ≠ .incReadPtr → t'.log = t.log) ∧
      (i.opcode ≠ .wakeupCore → t'.suspended = t.suspended)

/-- The frame of SEND, REPLY, READ and WRITE: at dispatch they store to no memory and to no register but COMMAND, which they
clear only to retire a denied command; beside the command state they change what carries their request: the job queue
(SEND, WRITE), the memory request (REPLY), the NoC request (READ), the log and the fatal code. All else stays
(41_memory_unit R252, R253; 42_message_unit R302, R305). -/
def Obligations.TransmissionFrame : Prop :=
  ∀ (i : Instr) (s s' : State),
    i.opcode = .send ∨ i.opcode = .reply ∨ i.opcode = .read ∨ i.opcode = .write →
    exec i s = .next s' →
    s' = { s with tiles := s'.tiles, noc := s'.noc } ∧ s'.tiles.length = s.tiles.length ∧
    (i.opcode ≠ .read → s'.noc = s.noc) ∧
    ∀ (k : Nat) (t t' : Tile), s.tiles[k]? = some t → s'.tiles[k]? = some t' →
      (k ≠ s.cur → t' = t) ∧
      (∀ a, t'.mem.read a = t.mem.read a) ∧
      t' = { t with
        cmd := t'.cmd, regs := t'.regs, log := t'.log, fatal := t'.fatal, xfer := t'.xfer, memq := t'.memq,
        memIn := t'.memIn, nocq := t'.nocq, nextId := t'.nextId, retry := t'.retry } ∧
      (∀ j, j ≠ commandReg → t'.reg j = t.reg j) ∧
      (t'.reg commandReg = t.reg commandReg ∨ (t'.reg commandReg = 0 ∧ t'.cmd = .idle)) ∧
      t'.xfer.active = t.xfer.active ∧
      (i.opcode = .reply ∨ i.opcode = .read → t'.xfer = t.xfer) ∧
      (i.opcode ≠ .reply → t'.memq = t.memq ∧ t'.memIn = t.memIn ∧ t'.retry.memReq = t.retry.memReq) ∧
      (i.opcode ≠ .read → t'.nocq = t.nocq ∧ t'.nextId = t.nextId ∧ t'.retry.nocReq = t.retry.nocReq) ∧
      t'.retry.nocResp = t.retry.nocResp ∧ t'.retry.cpuResp = t.retry.cpuResp ∧
      (i.opcode = .send → t'.log = t.log ∧ t'.regs = t.regs)

/-! ## Register accesses -/

/-- A read of a legal register by the CPU, offered for the first time or again from its port, returns the stored word, changes
no register, and recomputes DENY_SUSPEND (40_command_engine R200, R201, R206), in TIMED mode. -/
def Obligations.CpuReadsRegister : Prop :=
  ∀ (s : State) (k : Nat) (r : Bool) (rest : List Turn) (t : Tile) (i v : Nat),
    s.CpuOffers k (.reg { addr := t.cfg.regBase + i * t.cfg.WB, size := t.cfg.WB, isWrite := false, value := v }) r rest t →
    t.cfg.valid = true → t.retry.cpuResp = none → i < 16 * (t.cfg.numEndpoints + 1) → (i = 0 ∨ 16 ≤ i ∧ i % 16 ≠ 15) →
    step s = .next
      ((s.chosen r rest).send k { t with denySuspend := t.pendingMessage } (.cpuResp (.regResp (t.reg i))))

/-- A write of a legal register other than COMMAND by the CPU, offered for the first time or again from its port, stores the
word, has no other effect, and recomputes DENY_SUSPEND (40_command_engine R200, R201, R206), in TIMED mode. -/
def Obligations.CpuWritesRegister : Prop :=
  ∀ (s : State) (k : Nat) (r : Bool) (rest : List Turn) (t : Tile) (i v : Nat) (u : Tile),
    s.CpuOffers k (.reg { addr := t.cfg.regBase + i * t.cfg.WB, size := t.cfg.WB, isWrite := true, value := v }) r rest t →
    t.cfg.valid = true → t.retry.cpuResp = none → i < 16 * (t.cfg.numEndpoints + 1) → 16 ≤ i → i % 16 ≠ 15 →
    u = { t with regs := t.regs.set i (v % 2 ^ t.cfg.W) } →
    step s = .next ((s.chosen r rest).send k { u with denySuspend := u.pendingMessage } (.cpuResp .regAck))

/-- A CPU write to COMMAND, offered for the first time or again from its port, stores the word and schedules its dispatch while
no command is in progress, and is fatal while one is (40_command_engine R202, R203), in TIMED mode. -/
def Obligations.CpuWritesCommand : Prop :=
  ∀ (s : State) (k : Nat) (r : Bool) (rest : List Turn) (t : Tile) (v : Nat),
    s.CpuOffers k (.reg { addr := t.cfg.regBase, size := t.cfg.WB, isWrite := true, value := v }) r rest t →
    t.cfg.valid = true → t.retry.cpuResp = none →
    (t.cmd = .idle →
      step s = .next
        ((s.chosen r rest).send k
          { t with
            regs := t.regs.set commandReg (v % 2 ^ t.cfg.W), cmd := .scheduled .cpu, denySuspend := t.pendingMessage }
          (.cpuResp .regAck))) ∧
    (t.cmd ≠ .idle → step s = .next ((s.chosen r rest).raise k .cmdInProgress))

/-- An access in the register window (20_memory R102) of the wrong size or alignment is fatal, and so is one of a reserved
register, for reads and writes, CPU and NoC; the first check comes first (40_command_engine R204, R205). With
EXTERNAL_ERRORS_AS_DENIAL that of a NoC peer is denied EXTERNAL_INVARIANT instead (60_exceptions R432). In TIMED mode. -/
def Obligations.RegisterFormErrors : Prop :=
  ∀ (s : State) (k : Nat) (r : Bool) (rest : List Turn) (t : Tile) (addr size : Nat),
    t.cfg.regBase ≤ addr → addr < t.cfg.regBase + 16 * (t.cfg.numEndpoints + 1) * t.cfg.WB →
    let wrong : (FatalCode → Prop) → Prop := fun bad =>
      (size ≠ t.cfg.WB ∨ (addr - t.cfg.regBase) % t.cfg.WB ≠ 0 → bad .regAccessSize) ∧
      (∀ i, size = t.cfg.WB → addr = t.cfg.regBase + i * t.cfg.WB → t.cfg.valid = true →
        (1 ≤ i ∧ i ≤ 15 ∨ 16 ≤ i ∧ i % 16 = 15) → bad .regReserved)
    (∀ w v, s.CpuOffers k (.reg { addr := addr, size := size, isWrite := w, value := v }) r rest t →
      t.retry.cpuResp = none → wrong fun c => step s = .next ((s.chosen r rest).raise k c)) ∧
    ∀ i d q, s.Due (.deliver i k) r rest → s.noc[i]? = some { dst := d, packet := .req q } → s.tiles[k]? = some t →
      q.kind ≠ .message → q.kind ≠ .cacheMemReqFunc → t.inb = .idle → t.retry.nocResp = none →
      t.cfg.nocCore q.addr = t.cfg.ownCoreId → t.cfg.nocOff q.addr = addr → q.size = size →
      wrong fun c =>
        (t.cfg.externalErrorsAsDenial = false → step s = .next ((s.chosen r rest).raise k c)) ∧
        (t.cfg.externalErrorsAsDenial = true →
          step s = .next
            (State.send { s.chosen r rest with noc := s.noc.eraseIdx i } k
              { t with
                log := t.log ++
                  [{ code := .externalInvariant, origin := .noc, ep := t.cfg.nocEp q.addr, addr := addr, size := size }] }
              (.nocResp q.src { kind := q.kind, status := .denied, err := false, data := [], ss := q.ss })))

/-- A NoC peer reads and writes the registers as the CPU does, and a write to COMMAND issues a command with origin NOC; the
response goes to the requester (41_memory_unit R261). While a command is in progress a write to COMMAND is fatal, and so is any
other write whose data is not WB bytes long; with EXTERNAL_ERRORS_AS_DENIAL both are denied (60_exceptions R432). That the
length is checked after the access's own checks is the model's reading (notes/assumptions/27.md). In TIMED mode. -/
def Obligations.NocPeerAccessesRegister : Prop :=
  ∀ (s : State) (k i d : Nat) (r : Bool) (rest : List Turn) (t : Tile) (q : NocReq) (j : Nat) (s1 : State),
    s.Due (.deliver i k) r rest → s.noc[i]? = some { dst := d, packet := .req q } → s.tiles[k]? = some t →
    q.kind ≠ .message → q.kind ≠ .cacheMemReqFunc → t.inb = .idle → t.retry.nocResp = none →
    t.cfg.nocCore q.addr = t.cfg.ownCoreId → t.cfg.valid = true → q.size = t.cfg.WB →
    t.cfg.nocOff q.addr = t.cfg.regBase + j * t.cfg.WB → j < 16 * (t.cfg.numEndpoints + 1) →
    (j = 0 ∨ 16 ≤ j ∧ j % 16 ≠ 15) → s1 = { s.chosen r rest with noc := s.noc.eraseIdx i } →
    let bad : FatalCode → Prop := fun c =>
      (t.cfg.externalErrorsAsDenial = false → step s = .next ((s.chosen r rest).raise k c)) ∧
      (t.cfg.externalErrorsAsDenial = true →
        step s = .next
          (s1.send k
            { t with
              log := t.log ++
                [{ code := .externalInvariant, origin := .noc, ep := t.cfg.nocEp q.addr,
                   addr := t.cfg.regBase + j * t.cfg.WB, size := q.size }] }
            (.nocResp q.src { kind := q.kind, status := .denied, err := false, data := [], ss := q.ss })))
    (q.need = .read →
      step s = .next
        (s1.send k { t with denySuspend := t.pendingMessage }
          (.nocResp q.src
            { kind := q.kind, status := .ok, err := false, data := natToBytes t.cfg.WB (t.reg j), ss := q.ss }))) ∧
    (∀ u : Tile, q.need = .write → j ≠ 0 → q.data.length = t.cfg.WB →
      u = { t with regs := t.regs.set j (bytesToNat q.data % 2 ^ t.cfg.W) } →
      step s = .next
        (s1.send k { u with denySuspend := u.pendingMessage }
          (.nocResp q.src { kind := q.kind, status := .ok, err := false, data := [], ss := q.ss }))) ∧
    (q.need = .write → j = 0 → t.cmd = .idle → q.data.length = t.cfg.WB →
      step s = .next
        (s1.send k
          { t with
            regs := t.regs.set commandReg (bytesToNat q.data % 2 ^ t.cfg.W)
            cmd := .scheduled .noc
            denySuspend := t.pendingMessage }
          (.nocResp q.src { kind := q.kind, status := .ok, err := false, data := [], ss := q.ss }))) ∧
    (q.need = .write → j = 0 → t.cmd ≠ .idle → bad .cmdInProgress) ∧
    (q.need = .write → j ≠ 0 ∨ t.cmd = .idle → q.data.length ≠ t.cfg.WB → bad .malformedRequest)

/-! ## Channels -/

/-- An offered item is handed to the channel's receiver, or remembered in the channel's retry slot; no offer is refused in
ATOMIC mode (44_async_completion R395, R400). -/
def Obligations.OfferIsTakenOrKept : Prop :=
  ∀ (s : State) (k : Nat) (t : Tile) (item : Item),
    (s.mode = .atomic → s.refuses = false) ∧
    (s.refuses = true →
      ∃ u : Tile, s.send k t item = { s with tiles := s.tiles.set k u } ∧ u = { t with retry := u.retry } ∧
        u.retry.slot item.channel = some item ∧ ∀ ch, ch ≠ item.channel → u.retry.slot ch = t.retry.slot ch) ∧
    (s.refuses = false →
      match item with
      | .nocReq q =>
        s.send k t item =
          { s with tiles := s.tiles.set k t, noc := s.noc ++ [{ dst := t.cfg.nocCore q.addr, packet := .req q }] }
      | .nocResp d q =>
        s.send k t item = { s with tiles := s.tiles.set k t, noc := s.noc ++ [{ dst := d, packet := .resp q }] }
      | .memReq q => s.send k t item = { s with tiles := s.tiles.set k { t with memIn := t.memIn ++ [q] } }
      | .cpuResp q => s.send k t item = { s with tiles := s.tiles.set k { t with inbox := t.inbox ++ [q] } })

/-- A retry-ready signal is ignored when nothing waits; else exactly the waiting item is offered again, unchanged: accepted it
leaves the slot empty, refused it stays (44_async_completion R396), in TIMED mode. -/
def Obligations.RetryOffersTheWaitingItem : Prop :=
  ∀ (s : State) (k : Nat) (ch : Channel) (r : Bool) (rest : List Turn) (t : Tile),
    s.Due (.retryReady k ch) r rest → s.tiles[k]? = some t →
    (t.retry.slot ch = none → step s = .next (s.chosen r rest)) ∧
    ∀ item, t.retry.slot ch = some item →
      (r = true → step s = .next (s.chosen r rest)) ∧
      (r = false →
        ∃ u : Tile, step s = .next ((s.chosen r rest).handOver k u item) ∧ item.channel = ch ∧
          u = { t with retry := u.retry } ∧ u.retry.slot ch = none ∧
          ∀ ch', ch' ≠ ch → u.retry.slot ch' = t.retry.slot ch')

/-- A step that may offer an item on a channel waits while an item waits there, and the event that would trigger it stays with
its sender (44_async_completion R397), in TIMED mode. That READ and REPLY wait before any check is the model's reading of
the rule (notes/assumptions/14.md), and so is the wait of a response to a CPU (notes/assumptions/13.md). -/
def Obligations.BlockedStepsWait : Prop :=
  ∀ (s : State) (e : Event) (r : Bool) (rest : List Turn) (k : Nat) (t : Tile),
    s.Due e r rest → s.tiles[k]? = some t →
    (∀ q, e = .cpu k q → t.cpuRuns = true →
      (∃ a, q = .reg a ∧ t.retry.cpuResp ≠ none) ∨
        (∃ c, q = .cache c ∧ (t.retry.cpuResp ≠ none ∨ c.functional = false ∧ t.retry.nocReq ≠ none)) →
      step s = .next { s.chosen r rest with tiles := s.tiles.set k { t with port := t.port ++ [q] } }) ∧
    (∀ p, e = .dispatch k → t.hasScheduled = true →
      (decode t.cfg (t.reg commandReg) = .ok (.read p) ∧ t.retry.nocReq ≠ none) ∨
        (decode t.cfg (t.reg commandReg) = .ok (.reply p) ∧ t.retry.memReq ≠ none) →
      step s = .next { s.chosen r rest with cur := k }) ∧
    (e = .issue k → t.retry.memReq ≠ none → step s = .next (s.chosen r rest)) ∧
    (∀ a p o j len q op ep sn, e = .memResponse k → t.xfer.active = some a → t.memq = .transfer p o j true len :: q →
      (a.job.owner = .cmd ∧ t.cmd = .exec op ep .xferOut sn ∧ t.retry.nocReq ≠ none) ∨
        (a.job.owner = .inb ∧ t.retry.nocResp ≠ none) →
      step s = .next (s.chosen r rest)) ∧
    (∀ i d q, e = .deliver i k → s.noc[i]? = some { dst := d, packet := .req q } → t.retry.nocResp ≠ none →
      step s = .next (s.chosen r rest)) ∧
    (∀ i d q n, e = .deliver i k → s.noc[i]? = some { dst := d, packet := .resp q } →
      t.nocq.find? (fun x => x.id == q.ss) = some n → n.requester = .cpu → t.retry.cpuResp ≠ none →
      step s = .next (s.chosen r rest))

/-! ## Inbound messages -/

/-- An inbound message: its fatal checks, its denials, which leave the ring unchanged, and its acceptance, which latches slot
and capacity and enqueues the job that lands it (42_message_unit R310), in TIMED mode. -/
def Obligations.InboundMessage : Prop :=
  ∀ (s : State) (k i d : Nat) (r : Bool) (rest : List Turn) (t : Tile) (q : NocReq) (e : Nat) (s1 : State),
    s.Due (.deliver i k) r rest → s.noc[i]? = some { dst := d, packet := .req q } → s.tiles[k]? = some t →
    q.kind = .message → t.inb = .idle → t.retry.nocResp = none → e = t.cfg.nocEp q.addr →
    s1 = { s.chosen r rest with noc := s.noc.eraseIdx i } →
    let bad : FatalCode → Prop := fun c =>
      (t.cfg.externalErrorsAsDenial = false → step s = .next ((s.chosen r rest).raise k c)) ∧
      (t.cfg.externalErrorsAsDenial = true →
        step s = .next
          (s1.send k
            { t with
              log := t.log ++
                [{ code := .externalInvariant, origin := .noc, ep := e, addr := t.cfg.nocOff q.addr, size := q.size }] }
            (.nocResp q.src { kind := .message, status := .denied, err := false, data := [], ss := q.ss })))
    (t.cfg.nocCore q.addr ≠ t.cfg.ownCoreId → bad .misrouted) ∧
    (t.cfg.nocCore q.addr = t.cfg.ownCoreId →
      (t.cfg.numEndpoints ≤ e → bad .epidOutOfRange) ∧
      (e < t.cfg.numEndpoints →
        (q.size < 16 ∨ q.data.length ≠ q.size ∨ bytesToNat (q.data.take 4) ≠ q.size - 16 → bad .malformedMessage) ∧
        (16 ≤ q.size → q.data.length = q.size → bytesToNat (q.data.take 4) = q.size - 16 →
          (∀ code, (code = .msgTooLarge ∧ t.ep e .bufSlotSize < q.size) ∨
              (code = .bufferFull ∧ q.size ≤ t.ep e .bufSlotSize ∧ t.ep e .bufSlots ≤ t.ep e .bufMsgCnt) →
            step s = .next
              (s1.send k
                { t with
                  log := t.log ++
                    [{ code := code, origin := .noc, ep := e, addr := t.ep e .bufWrPtr, size := q.size }] }
                (.nocResp q.src { kind := .message, status := .denied, err := false, data := [], ss := q.ss }))) ∧
          (q.size ≤ t.ep e .bufSlotSize → t.ep e .bufMsgCnt < t.ep e .bufSlots →
            step s = .next
              { s1 with
                tiles := s.tiles.set k
                  { t with
                    inb := .busy
                      { kind := .message, src := q.src, ss := q.ss, size := q.size, dir := .write, ep := e,
                        slot := t.ep e .bufWrPtr, slots := t.ep e .bufSlots }
                    xfer :=
                      { t.xfer with
                        queue := t.xfer.queue ++
                          [{ dir := .fromNoc
                             loc := (t.ep e .bufAddr + t.ep e .bufWrPtr * t.ep e .bufSlotSize) % 2 ^ t.cfg.W
                             size := q.size
                             data := q.data
                             owner := .inb }] } } }))))

/-- Message finalisation, when the last chunk of a message has landed: the write pointer and the counter advance in one step,
DENY_SUSPEND is recomputed, the service ends and the sender is acknowledged (42_message_unit R312), in TIMED mode. -/
def Obligations.MessageFinalised : Prop :=
  ∀ (s : State) (k : Nat) (r : Bool) (rest : List Turn) (t : Tile) (m : MemResp) (ms : List MemResp)
    (p j len : Nat) (o : Owner) (mq : List MemSS) (a : ActiveJob) (b : InbRec),
    s.Due (.memResponse k) r rest → s.tiles[k]? = some t → t.memOut = m :: ms →
    t.memq = .transfer p o j true len :: mq → m.err = false → t.xfer.active = some a → a.job.owner = .inb →
    t.inb = .busy b → b.kind = .message → t.retry.nocResp = none → t.RegsFit → b.ep < t.cfg.numEndpoints →
    0 < b.slots → b.slots ≤ 2 ^ t.cfg.W →
    ∃ t' : Tile,
      step s = .next
        ((s.chosen r rest).send k t'
          (.nocResp b.src { kind := .message, status := .ok, err := false, data := [], ss := b.ss })) ∧
      t' = { t with
        regs := t'.regs, denySuspend := t'.pendingMessage, inb := .idle, xfer := { t.xfer with active := none },
        memOut := ms, memq := mq } ∧
      t'.ep b.ep .bufWrPtr = (b.slot + 1) % b.slots ∧
      t'.ep b.ep .bufMsgCnt = (t.ep b.ep .bufMsgCnt + 1) % 2 ^ t.cfg.W ∧
      ∀ i, i ≠ epReg b.ep .bufWrPtr → i ≠ epReg b.ep .bufMsgCnt → t'.reg i = t.reg i

/-! ## Inbound memory requests -/

/-- An inbound memory-kind request: to another core it is misrouted (41_memory_unit R260). Outside the register window (20_memory
R102) it is malformed when a write's data is not as long as its size, and otherwise validated against the window endpoint,
denied without effect, or served by a job over the flat address (R262 to R264, R266); that its local address wraps at `W` bits
(10_state R43) is the model's choice (notes/assumptions/1.md). What is fatal is denied EXTERNAL_INVARIANT instead with EXTERNAL_ERRORS_AS_DENIAL (60_exceptions R432). In
TIMED mode. -/
def Obligations.InboundMemoryRequest : Prop :=
  ∀ (s : State) (k i d : Nat) (r : Bool) (rest : List Turn) (t : Tile) (q : NocReq) (w off : Nat) (s1 : State),
    s.Due (.deliver i k) r rest → s.noc[i]? = some { dst := d, packet := .req q } → s.tiles[k]? = some t →
    q.kind = .readReq ∨ q.kind = .writeReq ∨ q.kind = .cacheMemReq → t.inb = .idle → t.retry.nocResp = none →
    w = t.cfg.inboundWindowEp → off = t.cfg.nocOff q.addr → s1 = { s.chosen r rest with noc := s.noc.eraseIdx i } →
    let permitted : Prop :=
      (q.need = .read ∧ (t.ep w .perm).testBit 0 = true) ∨ (q.need = .write ∧ (t.ep w .perm).testBit 1 = true)
    let answerDenied : Denial → Prop := fun record =>
      step s = .next
        (s1.send k { t with log := t.log ++ [record] }
          (.nocResp q.src { kind := q.kind, status := .denied, err := false, data := [], ss := q.ss }))
    let denied : DenialCode → Prop := fun c =>
      answerDenied { code := c, origin := .noc, ep := w, addr := off, size := q.size }
    let bad : FatalCode → Prop := fun c =>
      (t.cfg.externalErrorsAsDenial = false → step s = .next ((s.chosen r rest).raise k c)) ∧
      (t.cfg.externalErrorsAsDenial = true →
        answerDenied
          { code := .externalInvariant, origin := .noc, ep := t.cfg.nocEp q.addr, addr := off, size := q.size })
    (t.cfg.nocCore q.addr ≠ t.cfg.ownCoreId → bad .misrouted) ∧
    (t.cfg.nocCore q.addr = t.cfg.ownCoreId →
      off < t.cfg.regBase ∨ t.cfg.regBase + 16 * (t.cfg.numEndpoints + 1) * t.cfg.WB ≤ off →
      (q.need = .write → q.data.length ≠ q.size → bad .malformedRequest) ∧
      ((q.need = .write → q.data.length = q.size) →
        (q.need = .read → (t.ep w .perm).testBit 0 = false → denied .noReadPerm) ∧
        (q.need = .write → (t.ep w .perm).testBit 1 = false → denied .noWritePerm) ∧
        (permitted → off < t.ep w .remBase → denied .outOfBounds) ∧
        (permitted → t.ep w .remBase ≤ off →
          (2 ^ t.cfg.W ≤ off - t.ep w .remBase + q.size → denied .addrOverflow) ∧
          (off - t.ep w .remBase + q.size < 2 ^ t.cfg.W →
            (t.ep w .remSize < off - t.ep w .remBase + q.size → denied .outOfBounds) ∧
            (off - t.ep w .remBase + q.size ≤ t.ep w .remSize →
              ∀ loc, loc = off % 2 ^ t.cfg.W →
              step s = .next
                { s1 with
                  tiles := s.tiles.set k
                    { t with
                      inb := .busy { kind := q.kind, src := q.src, ss := q.ss, size := q.size, dir := q.need }
                      xfer :=
                        { t.xfer with
                          queue := t.xfer.queue ++
                            [match q.need with
                             | .read => { dir := .toNoc, loc := loc, size := q.size, data := [], owner := .inb }
                             | .write =>
                               { dir := .fromNoc, loc := loc, size := q.size, data := q.data, owner := .inb }] } } })))))

/-- When the job of an inbound memory request completes, the service ends and the response carries the bytes read
(41_memory_unit R265), in TIMED mode. -/
def Obligations.InboundMemoryAnswered : Prop :=
  ∀ (s : State) (k : Nat) (r : Bool) (rest : List Turn) (t : Tile) (m : MemResp) (ms : List MemResp)
    (p j len : Nat) (o : Owner) (mq : List MemSS) (a : ActiveJob) (b : InbRec),
    s.Due (.memResponse k) r rest → s.tiles[k]? = some t → t.memOut = m :: ms →
    t.memq = .transfer p o j true len :: mq → m.err = false → t.xfer.active = some a → a.job.owner = .inb →
    t.inb = .busy b → b.kind ≠ .message → t.retry.nocResp = none →
    (b.dir = .read → a.job.dir = .toNoc) →
    step s = .next
      ((s.chosen r rest).send k
        { t with inb := .idle, xfer := { t.xfer with active := none }, memOut := ms, memq := mq }
        (.nocResp b.src
          { kind := b.kind, status := .ok, err := false, data := if b.dir = .read then a.acc ++ m.data else [],
            ss := b.ss }))

/-! ## The local memory -/

/-- The local memory answers its oldest request: a read returns the bytes at the address, a write stores its bytes there and
nowhere else, and a request beyond the memory does nothing and returns the error flag (20_memory R106, R110), in TIMED
mode. -/
def Obligations.LocalMemoryAnswers : Prop :=
  ∀ (s : State) (k : Nat) (r : Bool) (rest : List Turn) (t : Tile) (q : MemReq) (qs : List MemReq),
    s.Due (.memAnswer k) r rest → s.tiles[k]? = some t → t.memIn = q :: qs → t.mem.wf = true →
    (q.op = .write → q.data.length = q.len) →
    ∃ (t' : Tile) (m : MemResp),
      step s = .next { s.chosen r rest with tiles := s.tiles.set k t' } ∧
      t' = { t with mem := t'.mem, memIn := qs, memOut := t.memOut ++ [m] } ∧ m.ss = q.ss ∧
      (m.err = true ↔ t.cfg.localMemSize < q.addr + q.len) ∧
      (t.cfg.localMemSize < q.addr + q.len ∨ q.op = .read → t'.mem = t.mem) ∧
      (q.addr + q.len ≤ t.cfg.localMemSize → q.op = .read →
        m.data.length = q.len ∧ ∀ n < q.len, m.data[n]? = some (t.mem.read (q.addr + n))) ∧
      (q.addr + q.len ≤ t.cfg.localMemSize → q.op = .write →
        (∀ n < q.len, q.data[n]? = some (t'.mem.read (q.addr + n))) ∧
          ∀ x, x < q.addr ∨ q.addr + q.len ≤ x → t'.mem.read x = t.mem.read x)

/-! ## The transfer unit -/

/-- Activation: the head job becomes active with nothing issued, only when no job is active (43_transfer_unit R351). A job of size
0 needs no memory request and completes in its activation (43_transfer_unit R357): a READ retires, a WRITE sends its
WRITE_REQ without data, a SEND or REPLY its message of a header only (42_message_unit R302, R303; 41_memory_unit R253, R257), an
inbound memory request is answered; or it waits for its continuation's channel (the model's reading of R397,
notes/assumptions/12.md). In TIMED mode. -/
def Obligations.Activation : Prop :=
  ∀ (s : State) (k : Nat) (r : Bool) (rest : List Turn) (t : Tile),
    s.Due (.activate k) r rest → s.tiles[k]? = some t →
    (t.xfer.active ≠ none ∨ t.xfer.queue = [] → step s = .next (s.chosen r rest)) ∧
    ∀ j q, t.xfer.active = none → t.xfer.queue = j :: q →
      (j.size ≠ 0 →
        step s = .next
          { s.chosen r rest with
            tiles := s.tiles.set k
              { t with
                xfer :=
                  { queue := q
                    active := some { job := j, issued := 0, completed := 0, inflight := 0, acc := [] } } } }) ∧
      (j.size = 0 → j.owner = .cmd → ∀ e sn, t.cmd = .exec .read e .xferIn sn →
        step s = .next
          { s.chosen r rest with
            tiles := s.tiles.set k
              { t with
                xfer := { queue := q, active := none }
                regs := t.regs.set commandReg 0
                cmd := .idle } }) ∧
      (j.size = 0 → j.owner = .cmd → ∀ op e sn, t.cmd = .exec op e .xferOut sn → op ≠ .read →
        (t.retry.nocReq ≠ none → step s = .next (s.chosen r rest)) ∧
        (t.retry.nocReq = none → ∀ kind size data,
          (op = .write ∧ kind = .writeReq ∧ size = sn.dataSize ∧ data = []) ∨
            ((op = .send ∨ op = .reply) ∧ kind = .message ∧ size = 16 + sn.dataSize ∧ data = sn.hdr) →
          step s = .next
            ((s.chosen r rest).send k
              { t with
                xfer := { queue := q, active := none }
                cmd := .exec op e .waitAck sn
                nextId := t.nextId + 1
                nocq := t.nocq ++
                  [{ id := t.nextId, kind := kind, ep := e, requester := .cmd, origAddr := 0, size := size,
                     dir := .write }] }
              (.nocReq
                { kind := kind, addr := sn.nocAddr, size := size, data := data, src := t.cfg.ownCoreId, ss := t.nextId,
                  dir := .write })))) ∧
      (j.size = 0 → j.owner = .inb → ∀ b, t.inb = .busy b →
        (t.retry.nocResp ≠ none → step s = .next (s.chosen r rest)) ∧
        (t.retry.nocResp = none → b.kind ≠ .message →
          step s = .next
            ((s.chosen r rest).send k { t with xfer := { queue := q, active := none }, inb := .idle }
              (.nocResp b.src { kind := b.kind, status := .ok, err := false, data := [], ss := b.ss })))) ∧
      (j.size = 0 → ∀ s' t', step s = .next s' → s'.tiles[k]? = some t' →
        t'.memq = t.memq ∧ t'.memIn = t.memIn ∧ t'.retry.memReq = t.retry.memReq ∧
          (t' = t ∨ t'.xfer = { queue := q, active := none }))

/-- Chunk issue: the next chunk's request goes out exactly when a job is active, a chunk is left, a buffer is free and MEM_REQ
is free (43_transfer_unit R352, R353), in TIMED mode. -/
def Obligations.ChunkIssue : Prop :=
  ∀ (s : State) (k : Nat) (r : Bool) (rest : List Turn) (t : Tile),
    s.Due (.issue k) r rest → s.tiles[k]? = some t →
    (t.xfer.active = none → step s = .next (s.chosen r rest)) ∧
    ∀ (a : ActiveJob) (e n : Nat), t.xfer.active = some a → n = (a.job.size + t.cfg.bufSize - 1) / t.cfg.bufSize →
      0 < t.cfg.bufSize →
      (a.job.owner = .cmd ∧ ∃ op ph sn, t.cmd = .exec op e ph sn) ∨
        (a.job.owner = .inb ∧ ∃ b, t.inb = .busy b ∧ e = if b.kind = .message then b.ep else 0) →
      (n ≤ a.issued ∨ t.cfg.bufCount ≤ a.inflight ∨ t.retry.memReq ≠ none → step s = .next (s.chosen r rest)) ∧
      (a.issued < n → a.inflight < t.cfg.bufCount → t.retry.memReq = none →
        ∀ len, len = min t.cfg.bufSize (a.job.size - a.issued * t.cfg.bufSize) →
        step s = .next
          ((s.chosen r rest).send k
            { t with
              xfer := { t.xfer with active := some { a with issued := a.issued + 1, inflight := a.inflight + 1 } }
              memq := t.memq ++ [.transfer e a.job.owner a.issued (decide (a.issued + 1 = n)) len] }
            (.memReq
              { op := if a.job.dir = .toNoc then .read else .write
                addr := (a.job.loc + a.issued * t.cfg.bufSize) % 2 ^ t.cfg.W
                len := len
                data := if a.job.dir = .toNoc then [] else (a.job.data.drop (a.issued * t.cfg.bufSize)).take len
                ss := .transfer e a.job.owner a.issued (decide (a.issued + 1 = n)) len })))

/-- Chunk geometry: the chunks of a job are its bytes in order, none longer than a buffer, the last one marked, whatever the
buffer size (43_transfer_unit R352; 42_message_unit R314). -/
def Obligations.ChunkGeometry : Prop :=
  ∀ (c : Config) (size : Nat) (data : List Byte), c.valid = true → data.length = size →
    ((List.range (c.chunkCount size)).map fun k => c.chunkData size data k).flatten = data ∧
    (size = 0 ↔ c.chunkCount size = 0) ∧
    size ≤ c.chunkCount size * c.bufSize ∧ c.chunkCount size * c.bufSize < size + c.bufSize ∧
    ∀ k < c.chunkCount size,
      1 ≤ c.chunkLen size k ∧ c.chunkLen size k ≤ c.bufSize ∧
      (c.chunkData size data k).length = c.chunkLen size k ∧
      (c.chunkLast size k = true ↔ k = c.chunkCount size - 1) ∧
      (c.chunkLast size k = true → k * c.bufSize + c.chunkLen size k = size) ∧
      (c.chunkLast size k = false → c.chunkLen size k = c.bufSize)

/-- A memory response with the error flag is fatal for either tag, as soon as the channel that its step may offer on is free: that
of the last chunk waits for NOC_REQ (a SEND, REPLY or WRITE) or for NOC_RESP (the inbound service), any other for none; that
the flag waits too is the model's reading of R397 (notes/assumptions/14.md). A chunk's response, not of the last chunk, is
counted and its bytes collected (43_transfer_unit R354, R362). In TIMED mode. -/
def Obligations.ChunkResponse : Prop :=
  ∀ (s : State) (k : Nat) (r : Bool) (rest : List Turn) (t : Tile) (m : MemResp) (ms : List MemResp)
    (ss : MemSS) (mq : List MemSS),
    s.Due (.memResponse k) r rest → s.tiles[k]? = some t → t.memOut = m :: ms → t.memq = ss :: mq →
    (m.err = true →
      ((∃ e o, ss = .header e o) ∧ t.cmd.fetchesHeader = true) ∨
        ((∃ e o j len, ss = .transfer e o j false len) ∧ t.xfer.active ≠ none) ∨
        ((∃ e o j len, ss = .transfer e o j true len) ∧
          ∃ a, t.xfer.active = some a ∧
            ((a.job.owner = .cmd ∧ t.retry.nocReq = none ∧ ∃ op e sn, op ≠ .read ∧ t.cmd = .exec op e .xferOut sn) ∨
              (a.job.owner = .cmd ∧ ∃ e sn, t.cmd = .exec .read e .xferIn sn) ∨
              (a.job.owner = .inb ∧ t.retry.nocResp = none ∧ t.inb ≠ .idle))) →
      step s = .next ((s.chosen r rest).raise k .transactionError)) ∧
    (∀ e o j len a, m.err = false → ss = .transfer e o j false len → t.xfer.active = some a →
      step s = .next
        { s.chosen r rest with
          tiles := s.tiles.set k
            { t with
              memOut := ms
              memq := mq
              xfer :=
                { t.xfer with
                  active := some
                    { a with
                      completed := a.completed + 1
                      inflight := a.inflight - 1
                      acc := if a.job.dir = .toNoc then a.acc ++ m.data else a.acc } } } })

/-- The last chunk of a command's job: a SEND or REPLY sends its MESSAGE, header and payload; a WRITE sends its WRITE_REQ; a READ
retires (42_message_unit R303, 41_memory_unit R256, R257, 44_async_completion R390), in TIMED mode. -/
def Obligations.CommandJobCompletes : Prop :=
  ∀ (s : State) (k : Nat) (r : Bool) (rest : List Turn) (t : Tile) (m : MemResp) (ms : List MemResp)
    (p j len : Nat) (o : Owner) (mq : List MemSS) (a : ActiveJob) (e : Nat) (sn : Snap) (u : Tile),
    s.Due (.memResponse k) r rest → s.tiles[k]? = some t → t.memOut = m :: ms →
    t.memq = .transfer p o j true len :: mq → m.err = false → t.xfer.active = some a → a.job.owner = .cmd →
    u = { t with xfer := { t.xfer with active := none }, memOut := ms, memq := mq } →
    (t.cmd = .exec .read e .xferIn sn →
      step s = .next
        { s.chosen r rest with
          tiles := s.tiles.set k { u with regs := t.regs.set commandReg 0, cmd := .idle } }) ∧
    (a.job.dir = .toNoc → t.retry.nocReq = none →
      (∀ op, op = .send ∨ op = .reply → t.cmd = .exec op e .xferOut sn →
        step s = .next
          ((s.chosen r rest).send k
            { u with
              cmd := .exec op e .waitAck sn
              nextId := t.nextId + 1
              nocq := t.nocq ++
                [{ id := t.nextId, kind := .message, ep := e, requester := .cmd, origAddr := 0,
                   size := 16 + sn.dataSize, dir := .write }] }
            (.nocReq
              { kind := .message, addr := sn.nocAddr, size := 16 + sn.dataSize, data := sn.hdr ++ (a.acc ++ m.data),
                src := t.cfg.ownCoreId, ss := t.nextId, dir := .write }))) ∧
      (t.cmd = .exec .write e .xferOut sn →
        step s = .next
          ((s.chosen r rest).send k
            { u with
              cmd := .exec .write e .waitAck sn
              nextId := t.nextId + 1
              nocq := t.nocq ++
                [{ id := t.nextId, kind := .writeReq, ep := e, requester := .cmd, origAddr := 0, size := sn.dataSize,
                   dir := .write }] }
            (.nocReq
              { kind := .writeReq, addr := sn.nocAddr, size := sn.dataSize, data := a.acc ++ m.data,
                src := t.cfg.ownCoreId, ss := t.nextId, dir := .write }))))

/-- The header fetch of a REPLY: the target is the sender named in the header, the new header has the REPLY flag, and the
payload job is enqueued; what does not fit is fatal (42_message_unit R306), in TIMED mode. -/
def Obligations.HeaderFetched : Prop :=
  ∀ (s : State) (k : Nat) (r : Bool) (rest : List Turn) (t : Tile) (m : MemResp) (ms : List MemResp)
    (p : Nat) (o : Owner) (mq : List MemSS) (e : Nat) (sn : Snap) (h : Header),
    s.Due (.memResponse k) r rest → s.tiles[k]? = some t → t.memOut = m :: ms → t.memq = .header p o :: mq →
    m.err = false → t.cmd = .exec .reply e .hdr sn → h = decodeHeader m.data →
    (encodeHeader sn.dataSize t.cfg.ownCoreId e sn.replyEp true = none →
      step s = .next ((s.chosen r rest).raise k .headerFieldRange)) ∧
    ∀ hdr, encodeHeader sn.dataSize t.cfg.ownCoreId e sn.replyEp true = some hdr →
      (t.cfg.nocAddr h.senderCore h.replyEp 0 = none →
        step s = .next ((s.chosen r rest).raise k .nocAddrRange)) ∧
      ∀ na, t.cfg.nocAddr h.senderCore h.replyEp 0 = some na →
        step s = .next
          { s.chosen r rest with
            tiles := s.tiles.set k
              { t with
                memOut := ms
                memq := mq
                cmd := .exec .reply e .xferOut
                  { sn with tgtCore := h.senderCore, tgtEp := h.replyEp, hdr := hdr, nocAddr := na }
                xfer :=
                  { t.xfer with
                    queue := t.xfer.queue ++
                      [{ dir := .toNoc, loc := sn.locAddr, size := sn.dataSize, data := [], owner := .cmd }] } } }

/-! ## NoC responses -/

/-- Response matching: without a sender-state of its id and kind a response is fatal, and so is one with the error flag
(44_async_completion R391). The response to a forwarded request, and no other, waits until CPU_RESP is free (R397;
that R405 is read so is the model's, notes/assumptions/13.md). The flag is set when the NoC fails in the transport (R420): in
TIMED mode of a response in flight, in ATOMIC mode of the one its choice `failAfter` counts to (the model's form of that choice,
notes/assumptions/28.md); a request to a core that no tile is fails in the same way (notes/assumptions/11.md). -/
def Obligations.ResponseMatching : Prop :=
  (∀ (s : State) (k i : Nat) (r : Bool) (rest : List Turn) (t : Tile) (q : NocResp),
    s.Due (.deliver i k) r rest → s.noc[i]? = some { dst := k, packet := .resp q } → s.tiles[k]? = some t →
    ((∀ n ∈ t.nocq, n.id ≠ q.ss) → step s = .next ((s.chosen r rest).raise k .responseMismatch)) ∧
    ∀ n, t.RequestsOk → n ∈ t.nocq → n.id = q.ss → (n.requester = .cpu → t.retry.cpuResp = none) →
      (n.kind ≠ q.kind → step s = .next ((s.chosen r rest).raise k .responseMismatch)) ∧
      (n.kind = q.kind → q.err = true → step s = .next ((s.chosen r rest).raise k .transactionError))) ∧
  (∀ (s : State) (i : Nat) (r : Bool) (rest : List Turn) (f : Flight),
    s.Due (.transportError i) r rest → s.noc[i]? = some f →
    (∀ q, f.packet = .resp q →
      step s = .next
        { s.chosen r rest with noc := s.noc.set i { dst := f.dst, packet := .resp { q with err := true } } }) ∧
    ∀ q, f.packet = .req q →
      (s.tiles[f.dst]? ≠ none → step s = .next (s.chosen r rest)) ∧
      (s.tiles[f.dst]? = none →
        ∃ p : NocResp, p.kind = q.kind ∧ p.ss = q.ss ∧ p.err = true ∧
          step s = .next { s.chosen r rest with noc := s.noc.set i { dst := q.src, packet := .resp p } })) ∧
  ∀ (s : State) (k i : Nat) (r : Bool) (rest : List Turn) (t : Tile) (q : NocResp) (n : NocSS),
    s.mode = .atomic → s.raised = none → s.turns = { event := .deliver i k, refuse := r } :: rest →
    s.failAfter = some 0 → s.noc[i]? = some { dst := k, packet := .resp q } → s.tiles[k]? = some t → t.RequestsOk →
    n ∈ t.nocq → n.id = q.ss → n.kind = q.kind → (n.requester = .cpu → t.retry.cpuResp = none) →
    step s = .next ((s.chosen r rest).raise k .transactionError)

/-- The response to a command consumes its sender-state. A READ that was served enqueues the job that writes its data, and one
that was denied retires; WRITE, SEND and REPLY retire whether served or denied (41_memory_unit R255, R258; 42_message_unit
R304), in TIMED mode. -/
def Obligations.CommandResponse : Prop :=
  ∀ (s : State) (k i : Nat) (r : Bool) (rest : List Turn) (t : Tile) (q : NocResp) (n : NocSS) (e : Nat) (sn : Snap)
    (u : Tile) (s1 : State),
    s.Due (.deliver i k) r rest → s.noc[i]? = some { dst := k, packet := .resp q } → s.tiles[k]? = some t →
    t.RequestsOk → n ∈ t.nocq → n.id = q.ss → n.kind = q.kind → n.requester = .cmd → q.err = false →
    u = { t with nocq := t.nocq.filter fun x => x.id != q.ss } →
    s1 = { s.chosen r rest with noc := s.noc.eraseIdx i } →
    (∀ op, (op = .write ∧ q.kind = .writeReq) ∨ ((op = .send ∨ op = .reply) ∧ q.kind = .message) →
      t.cmd = .exec op e .waitAck sn →
      step s = .next
        { s1 with tiles := s.tiles.set k { u with regs := t.regs.set commandReg 0, cmd := .idle } }) ∧
    (q.kind = .readReq → t.cmd = .exec .read e .waitData sn →
      (q.status = .denied →
        step s = .next
          { s1 with tiles := s.tiles.set k { u with regs := t.regs.set commandReg 0, cmd := .idle } }) ∧
      (q.status = .ok → q.data.length ≠ sn.dataSize →
        step s = .next ((s.chosen r rest).raise k .responseMismatch)) ∧
      (q.status = .ok → q.data.length = sn.dataSize →
        step s = .next
          { s1 with
            tiles := s.tiles.set k
              { u with
                cmd := .exec .read e .xferIn sn
                xfer :=
                  { t.xfer with
                    queue := t.xfer.queue ++
                      [{ dir := .fromNoc, loc := sn.locAddr, size := sn.dataSize, data := q.data,
                         owner := .cmd }] } } }))

/-- The response to a forwarded request reaches the CPU with the original address, whatever its status
(41_memory_unit R273), in TIMED mode, once CPU_RESP is free (notes/assumptions/13.md). -/
def Obligations.ForwardedResponse : Prop :=
  ∀ (s : State) (k i : Nat) (r : Bool) (rest : List Turn) (t : Tile) (q : NocResp) (n : NocSS),
    s.Due (.deliver i k) r rest → s.noc[i]? = some { dst := k, packet := .resp q } → s.tiles[k]? = some t →
    t.retry.cpuResp = none → t.RequestsOk → n ∈ t.nocq → n.id = q.ss → n.kind = .cacheMemReq → q.kind = .cacheMemReq →
    n.requester = .cpu → q.err = false →
    (q.status = .ok ∧ n.dir = .read ∧ q.data.length ≠ n.size →
      step s = .next ((s.chosen r rest).raise k .responseMismatch)) ∧
    (¬(q.status = .ok ∧ n.dir = .read ∧ q.data.length ≠ n.size) →
      step s = .next
        (State.send { s.chosen r rest with noc := s.noc.eraseIdx i } k
          { t with nocq := t.nocq.filter fun x => x.id != q.ss }
          (.cpuResp (.memResp true q.status n.origAddr q.data))))

/-! ## Cache-memory forwarding -/

/-- A cache-memory request of the CPU, outside the register window (20_memory R102), offered for the first time or again from its
port and accepted: by class, then the check against memEp, whose denial sends no NoC traffic, then the fatal checks, then the
request to the target core (41_memory_unit R270, R271), in TIMED mode. -/
def Obligations.CacheRequestForwarded : Prop :=
  ∀ (s : State) (k : Nat) (r : Bool) (rest : List Turn) (t : Tile) (q : CacheReq) (need : Dir) (m : Nat),
    s.CpuOffers k (.cache q) r rest t →
    q.addr < t.cfg.regBase ∨ t.cfg.regBase + 16 * (t.cfg.numEndpoints + 1) * t.cfg.WB ≤ q.addr →
    t.cfg.forwardsAddr q.addr = true → t.retry.cpuResp = none → t.retry.nocReq = none → m = t.cfg.memEp →
    (q.cls = .cleanEvict → step s = .next { s.chosen r rest with tiles := s.tiles.set k t }) ∧
    (∀ code, (q.cls = .invalidateReq ∧ code = .coherenceUnsupported) ∨ (q.cls = .other ∧ code = .unsupportedRequest) ∨
        (((q.cls = .read ∧ need = .read) ∨ (q.cls = .write ∧ need = .write)) ∧
          t.cfg.check need q.addr q.size (t.ep m .remSize) (t.ep m .perm) = some code) →
      step s = .next
        ((s.chosen r rest).send k
          { t with log := t.log ++ [{ code := code, origin := .cpu, ep := m, addr := q.addr, size := q.size }] }
          (.cpuResp (.memResp false .denied q.addr [])))) ∧
    ((q.cls = .read ∧ need = .read) ∨ (q.cls = .write ∧ need = .write) →
      t.cfg.check need q.addr q.size (t.ep m .remSize) (t.ep m .perm) = none →
      (t.cfg.maxNocPacketSize < q.size → step s = .next ((s.chosen r rest).raise k .packetTooLarge)) ∧
      (q.size ≤ t.cfg.maxNocPacketSize →
        (t.cfg.nocTarget (t.ep m .tgtCore) (t.ep m .remBase) q.addr q.size = none →
          step s = .next ((s.chosen r rest).raise k .nocAddrRange)) ∧
        (∀ a, t.cfg.nocTarget (t.ep m .tgtCore) (t.ep m .remBase) q.addr q.size = some a → q.functional = false →
          step s = .next
            ((s.chosen r rest).send k
              { t with
                nextId := t.nextId + 1
                nocq := t.nocq ++
                  [{ id := t.nextId, kind := .cacheMemReq, ep := m, requester := .cpu, origAddr := q.addr,
                     size := q.size, dir := need }] }
              (.nocReq
                { kind := .cacheMemReq, addr := a, size := q.size, data := if need = .write then q.data else [],
                  src := t.cfg.ownCoreId, ss := t.nextId, dir := need })))))

/-- A functional access that passes the checks of its own tile is served at once on both tiles (41_memory_unit R272, R273), in
TIMED mode: `answered u' st bytes` says that tile `j` becomes `u'` and the CPU of tile `k` is offered the answer, and that nothing
else changes, be `j` another tile or `k` itself. In the target's register window (20_memory R102) it is a register access with
origin NOC, fatal FUNCTIONAL_CMD_WRITE for a write to COMMAND; outside it is validated as a packet is (R260, R262), then reads
the bytes or stores them there and nowhere else, beyond the memory fatal. That the target records a fatal code is the model's
reading (notes/assumptions/17.md), and so is that a register write of data of another length is malformed after the access's own
checks (notes/assumptions/27.md). The model's choice is that EXTERNAL_ERRORS_AS_DENIAL covers this service
(notes/assumptions/16.md), that an access without a byte above the memory is beyond it (notes/assumptions/29.md), and that an
access to a core that no tile is fails as its transport (notes/assumptions/11.md). -/
def Obligations.FunctionalMemoryAccess : Prop :=
  ∀ (s : State) (k j : Nat) (r : Bool) (rest : List Turn) (t : Tile) (q : CacheReq) (need : Dir) (m : Nat)
    (a : NocAddress),
    s.CpuOffers k (.cache q) r rest t →
    q.addr < t.cfg.regBase ∨ t.cfg.regBase + 16 * (t.cfg.numEndpoints + 1) * t.cfg.WB ≤ q.addr →
    t.cfg.forwardsAddr q.addr = true → t.retry.cpuResp = none → q.functional = true →
    m = t.cfg.memEp → (q.cls = .read ∧ need = .read) ∨ (q.cls = .write ∧ need = .write) →
    t.cfg.check need q.addr q.size (t.ep m .remSize) (t.ep m .perm) = none → q.size ≤ t.cfg.maxNocPacketSize →
    t.cfg.nocTarget (t.ep m .tgtCore) (t.ep m .remBase) q.addr q.size = some a → t.cfg.nocCore a = j →
    (s.tiles[j]? = none → step s = .next ((s.chosen r rest).raise k .transactionError)) ∧
    ∀ (u : Tile) (w off : Nat), (s.tiles.set k t)[j]? = some u → off = u.cfg.nocOff a → w = u.cfg.inboundWindowEp →
    let answered : Tile → Status → List Byte → Prop := fun u' st bytes =>
      ∀ t', ((s.tiles.set k t).set j u')[k]? = some t' →
        step s = .next
          (State.send { s.chosen r rest with tiles := (s.tiles.set k t).set j u' } k t'
            (.cpuResp (.memResp true st q.addr bytes)))
    let answerDenied : Denial → Prop := fun record => answered { u with log := u.log ++ [record] } .denied []
    let denied : DenialCode → Prop := fun c =>
      answerDenied { code := c, origin := .noc, ep := w, addr := off, size := q.size }
    let bad : FatalCode → Prop := fun c =>
      (u.cfg.externalErrorsAsDenial = false → step s = .next ((s.chosen r rest).raise j c)) ∧
      (u.cfg.externalErrorsAsDenial = true →
        answerDenied { code := .externalInvariant, origin := .noc, ep := u.cfg.nocEp a, addr := off, size := q.size })
    let permitted : Prop :=
      (need = .read ∧ (u.ep w .perm).testBit 0 = true) ∨ (need = .write ∧ (u.ep w .perm).testBit 1 = true)
    (u.cfg.nocCore a ≠ u.cfg.ownCoreId → bad .misrouted) ∧
    (u.cfg.nocCore a = u.cfg.ownCoreId → u.cfg.regBase ≤ off →
      off < u.cfg.regBase + 16 * (u.cfg.numEndpoints + 1) * u.cfg.WB →
      (q.size ≠ u.cfg.WB ∨ (off - u.cfg.regBase) % u.cfg.WB ≠ 0 → bad .regAccessSize) ∧
      ∀ i, q.size = u.cfg.WB → off = u.cfg.regBase + i * u.cfg.WB → u.cfg.valid = true →
        (1 ≤ i ∧ i ≤ 15 ∨ 16 ≤ i ∧ i % 16 = 15 → bad .regReserved) ∧
        (i = 0 ∨ 16 ≤ i ∧ i % 16 ≠ 15 → need = .read →
          answered { u with denySuspend := u.pendingMessage } .ok (natToBytes u.cfg.WB (u.reg i))) ∧
        (i = 0 → need = .write → bad .functionalCmdWrite) ∧
        (16 ≤ i → i % 16 ≠ 15 → need = .write → q.data.length ≠ u.cfg.WB → bad .malformedRequest) ∧
        (16 ≤ i → i % 16 ≠ 15 → need = .write → q.data.length = u.cfg.WB →
          ∀ v : Tile, v = { u with regs := u.regs.set i (bytesToNat q.data % 2 ^ u.cfg.W) } →
          answered { v with denySuspend := v.pendingMessage } .ok [])) ∧
    (u.cfg.nocCore a = u.cfg.ownCoreId →
      off < u.cfg.regBase ∨ u.cfg.regBase + 16 * (u.cfg.numEndpoints + 1) * u.cfg.WB ≤ off →
      (need = .write → q.data.length ≠ q.size → bad .malformedRequest) ∧
      ((need = .write → q.data.length = q.size) →
        (need = .read → (u.ep w .perm).testBit 0 = false → denied .noReadPerm) ∧
        (need = .write → (u.ep w .perm).testBit 1 = false → denied .noWritePerm) ∧
        (permitted → off < u.ep w .remBase → denied .outOfBounds) ∧
        (permitted → u.ep w .remBase ≤ off →
          (2 ^ u.cfg.W ≤ off - u.ep w .remBase + q.size → denied .addrOverflow) ∧
          (off - u.ep w .remBase + q.size < 2 ^ u.cfg.W →
            (u.ep w .remSize < off - u.ep w .remBase + q.size → denied .outOfBounds) ∧
            (off - u.ep w .remBase + q.size ≤ u.ep w .remSize →
              (u.cfg.localMemSize < off + q.size → bad .transactionError) ∧
              (off + q.size ≤ u.cfg.localMemSize →
                (need = .read →
                  ∃ bytes : List Byte, answered u .ok bytes ∧ bytes.length = q.size ∧
                    ∀ n < q.size, bytes[n]? = some (u.mem.read (off + n))) ∧
                (need = .write → u.mem.wf = true →
                  ∃ mem' : Memory, answered { u with mem := mem' } .ok [] ∧
                    (∀ n < q.size, q.data[n]? = some (mem'.read (off + n))) ∧
                    ∀ x, x < off ∨ off + q.size ≤ x → mem'.read x = u.mem.read x)))))))

/-! ## Operand forms -/

/-- The permission and bounds check (41_memory_unit R250). -/
def Obligations.PermissionAndBoundsCheck : Prop :=
  ∀ (c : Config) (need : Dir) (rel size remSize perm : Nat),
    let permitted : Prop := (need = .read ∧ perm.testBit 0 = true) ∨ (need = .write ∧ perm.testBit 1 = true)
    (c.check need rel size remSize perm = some .noReadPerm ↔ need = .read ∧ perm.testBit 0 = false) ∧
    (c.check need rel size remSize perm = some .noWritePerm ↔ need = .write ∧ perm.testBit 1 = false) ∧
    (c.check need rel size remSize perm = some .addrOverflow ↔ permitted ∧ 2 ^ c.W ≤ rel + size) ∧
    (c.check need rel size remSize perm = some .outOfBounds ↔
      permitted ∧ rel + size < 2 ^ c.W ∧ remSize < rel + size) ∧
    (c.check need rel size remSize perm = none ↔ permitted ∧ rel + size < 2 ^ c.W ∧ rel + size ≤ remSize)

/-- NoC addresses: the fields of an address are what it was formed from, and an address is formed exactly when they fit
(20_memory R104); the target of a memory-kind request is the core, endpoint 0 and the sum of base and offset, when they fit
(41_memory_unit R251). -/
def Obligations.NocAddressFields : Prop :=
  ∀ c : Config, c.valid = true →
    (∀ core ep off,
      (c.nocAddr core ep off = none ↔
        ¬(core < 2 ^ c.nocCoreBits ∧ ep < 2 ^ c.nocEpBits ∧ off < 2 ^ c.nocOffsetBits)) ∧
      ∀ a, c.nocAddr core ep off = some a →
        a.toNat = core * 2 ^ (c.nocEpBits + c.nocOffsetBits) + ep * 2 ^ c.nocOffsetBits + off ∧
          c.nocCore a = core ∧ c.nocEp a = ep ∧ c.nocOff a = off) ∧
    ∀ core base rel size,
      (c.nocTarget core base rel size = none ↔
        2 ^ c.nocCoreBits ≤ core ∨ 2 ^ c.nocOffsetBits ≤ base + rel ∨ 2 ^ c.nocOffsetBits < base + rel + size) ∧
      ∀ a, c.nocTarget core base rel size = some a →
        c.nocCore a = core ∧ c.nocEp a = 0 ∧ c.nocOff a = base + rel

/-- The message header: 16 bytes, defined exactly when every field fits, read back field by field; a receiver ignores bytes 9 to
15 and the upper bits of the flags (30_encoding R166). -/
def Obligations.HeaderCodec : Prop :=
  (∀ (len core sep rep : Nat) (isReply : Bool),
    (encodeHeader len core sep rep isReply = none ↔ ¬(len < 2 ^ 32 ∧ core < 2 ^ 16 ∧ sep < 2 ^ 8 ∧ rep < 2 ^ 8)) ∧
    ∀ b, encodeHeader len core sep rep isReply = some b →
      b.length = 16 ∧ (∀ n, 9 ≤ n → n < 16 → b[n]? = some 0) ∧ b[8]? = some (if isReply = true then 1 else 0) ∧
      (∀ n < 4, b[n]? = some (BitVec.ofNat 8 (len / 2 ^ (8 * n)))) ∧
      (∀ n < 2, b[4 + n]? = some (BitVec.ofNat 8 (core / 2 ^ (8 * n)))) ∧
      b[6]? = some (BitVec.ofNat 8 sep) ∧ b[7]? = some (BitVec.ofNat 8 rep) ∧
      decodeHeader b = { length := len, senderCore := core, senderEp := sep, replyEp := rep, isReply := isReply }) ∧
  ∀ (b b' : List Byte) (f f' : Byte), b.take 8 = b'.take 8 → b[8]? = some f → b'[8]? = some f' →
    f.getLsbD 0 = f'.getLsbD 0 → decodeHeader b = decodeHeader b'

/-- Byte order is little-endian: byte `n` of a value is its bits `8n .. 8n+7`, and the bytes give the value back
(20_memory R107). -/
def Obligations.LittleEndianBytes : Prop :=
  ∀ n v : Nat,
    (natToBytes n v).length = n ∧ (∀ j < n, (natToBytes n v)[j]? = some (BitVec.ofNat 8 (v / 2 ^ (8 * j)))) ∧
      bytesToNat (natToBytes n v) = v % 2 ^ (8 * n)

end
end

