-- ==== Sys2Proof/Laws/Memory.lean ====
section
/-!
SUPPORT. The laws of memory and of byte order: a read after a write, that every write keeps the canonical form, and that
equal readings mean equal memories.
-/

namespace Sys2Proof.Machine

/-! ## Reading after writing -/

theorem Memory.read_write_self (m : Memory) (a : Nat) (b : Byte) (h : m.wf) : (Memory.write m a b).read a = b := by
  induction m with
  | nil => by_cases hb : b = Memory.blank <;> simp [Memory.write, Memory.read, hb]
  | cons c m ih =>
    simp only [Memory.wf, Bool.and_eq_true, decide_eq_true_eq, List.all_eq_true] at h
    obtain ⟨⟨-, hlt⟩, hm⟩ := h
    have skip : ∀ n : Memory, (∀ d ∈ n, a < d.1) → n.read a = Memory.blank := by
      intro n hn
      induction n with
      | nil => rfl
      | cons d n ihn =>
        have := hn d (by simp)
        rw [Memory.read, if_neg (by omega)]
        exact ihn fun e he => hn e (by simp [he])
    by_cases h1 : a < c.1
    · by_cases hb : b = Memory.blank
      · rw [Memory.write, if_pos h1, if_pos hb, hb]
        refine skip _ fun d hd => ?_
        rcases List.mem_cons.1 hd with rfl | hd
        · exact h1
        · exact lt_trans h1 (hlt d hd)
      · simp [Memory.write, h1, hb, Memory.read]
    · by_cases h2 : a = c.1
      · by_cases hb : b = Memory.blank
        · rw [Memory.write, if_neg h1, if_pos h2, if_pos hb, hb]
          exact skip _ fun d hd => h2 ▸ hlt d hd
        · simp [Memory.write, h2, hb, Memory.read]
      · rw [Memory.write, if_neg h1, if_neg h2, Memory.read, if_neg h2]
        exact ih hm

theorem Memory.read_write_of_ne (m : Memory) (a x : Nat) (b : Byte) (h : x ≠ a) :
    (Memory.write m a b).read x = m.read x := by
  induction m with
  | nil => by_cases hb : b = Memory.blank <;> simp [Memory.write, Memory.read, hb, h]
  | cons c m ih =>
    by_cases h1 : a < c.1
    · by_cases hb : b = Memory.blank <;> simp [Memory.write, Memory.read, h1, hb, h]
    · by_cases h2 : a = c.1
      · have h3 : x ≠ c.1 := h2 ▸ h
        by_cases hb : b = Memory.blank <;> simp [Memory.write, Memory.read, h2, hb, h3]
      · simp only [Memory.write, if_neg h1, if_neg h2, Memory.read, ih]

/-! ## The canonical form is kept -/

theorem Memory.mem_write (m : Memory) (a : Nat) (b : Byte) (d : Host.Cell) (h : d ∈ Memory.write m a b) :
    d = (a, b) ∨ d ∈ m := by
  induction m with
  | nil =>
    by_cases hb : b = Memory.blank <;> simp [Memory.write, hb] at h
    exact .inl h
  | cons c m ih =>
    by_cases h1 : a < c.1
    · by_cases hb : b = Memory.blank
      · simp only [Memory.write, if_pos h1, if_pos hb] at h
        exact .inr h
      · simp only [Memory.write, if_pos h1, if_neg hb, List.mem_cons] at h
        simpa [List.mem_cons] using h
    · by_cases h2 : a = c.1
      · by_cases hb : b = Memory.blank
        · simp only [Memory.write, if_neg h1, if_pos h2, if_pos hb] at h
          exact .inr (List.mem_cons_of_mem _ h)
        · simp only [Memory.write, if_neg h1, if_pos h2, if_neg hb, List.mem_cons] at h
          rcases h with h | h
          · exact .inl h
          · exact .inr (List.mem_cons_of_mem _ h)
      · simp only [Memory.write, if_neg h1, if_neg h2, List.mem_cons] at h
        rcases h with rfl | h
        · exact .inr (by simp)
        · rcases ih h with h | h
          · exact .inl h
          · exact .inr (List.mem_cons_of_mem _ h)

theorem Memory.wf_write (m : Memory) (a : Nat) (b : Byte) (h : m.wf) : (Memory.write m a b).wf := by
  induction m with
  | nil => by_cases hb : b = Memory.blank <;> simp [Memory.write, Memory.wf, hb]
  | cons c m ih =>
    have h' := h
    simp only [Memory.wf, Bool.and_eq_true, decide_eq_true_eq, List.all_eq_true] at h'
    obtain ⟨⟨hc, hlt⟩, hm⟩ := h'
    by_cases h1 : a < c.1
    · by_cases hb : b = Memory.blank
      · simpa [Memory.write, h1, hb] using h
      · simp only [Memory.write, if_pos h1, if_neg hb]
        rw [Memory.wf]
        simp only [Bool.and_eq_true, decide_eq_true_eq, List.all_eq_true]
        refine ⟨⟨hb, fun d hd => ?_⟩, h⟩
        rcases List.mem_cons.1 hd with rfl | hd
        · exact h1
        · exact lt_trans h1 (hlt d hd)
    · by_cases h2 : a = c.1
      · by_cases hb : b = Memory.blank
        · simpa [Memory.write, h1, h2, hb] using hm
        · simp only [Memory.write, if_neg h1, if_pos h2, if_neg hb]
          rw [Memory.wf]
          simp only [Bool.and_eq_true, decide_eq_true_eq, List.all_eq_true]
          exact ⟨⟨hb, fun d hd => h2 ▸ hlt d hd⟩, hm⟩
      · simp only [Memory.write, if_neg h1, if_neg h2]
        rw [Memory.wf]
        simp only [Bool.and_eq_true, decide_eq_true_eq, List.all_eq_true]
        refine ⟨⟨hc, fun d hd => ?_⟩, ih hm⟩
        rcases Memory.mem_write m a b d hd with rfl | hd
        · show c.1 < a
          omega
        · exact hlt d hd

theorem Memory.wf_writeBytes (m : Memory) (a : Nat) (bs : List Byte) (h : m.wf) : (Memory.writeBytes m a bs).wf := by
  induction bs generalizing m a with
  | nil => exact h
  | cons b bs ih => exact ih _ _ (Memory.wf_write m a b h)

/-! ## Ranges -/

theorem Memory.read_writeBytes_outside (m : Memory) (a x : Nat) (bs : List Byte) (h : x < a ∨ a + bs.length ≤ x) :
    (Memory.writeBytes m a bs).read x = m.read x := by
  induction bs generalizing m a with
  | nil => rfl
  | cons b bs ih =>
    simp only [List.length_cons] at h
    rw [Memory.writeBytes, ih _ _ (by omega), Memory.read_write_of_ne _ _ _ _ (by omega)]

theorem Memory.read_writeBytes_inside (m : Memory) (a k : Nat) (bs : List Byte) (h : m.wf) (hk : k < bs.length) :
    (Memory.writeBytes m a bs).read (a + k) = bs[k] := by
  induction bs generalizing m a k with
  | nil => simp at hk
  | cons b bs ih =>
    cases k with
    | zero =>
      rw [Memory.writeBytes, Memory.read_writeBytes_outside _ _ _ _ (by omega)]
      simpa using Memory.read_write_self m a b h
    | succ k =>
      have := ih (m.write a b) (a + 1) k (Memory.wf_write m a b h) (by simpa using hk)
      rw [Memory.writeBytes, show a + (k + 1) = a + 1 + k by omega, this]
      rfl

/-- An address below every listed one reads as blank. -/
theorem Memory.read_below (m : Memory) (a : Nat) (h : ∀ d ∈ m, a < d.1) : m.read a = Memory.blank := by
  induction m with
  | nil => rfl
  | cons c m ih =>
    have hc := h c List.mem_cons_self
    rw [Memory.read, if_neg (by omega)]
    exact ih fun d hd => h d (List.mem_cons_of_mem _ hd)

/-- Memories in canonical form that read the same everywhere are equal. -/
theorem Memory.ext_of_wf (m m' : Memory) (h : m.wf) (h' : m'.wf) (hr : ∀ a, m.read a = m'.read a) : m = m' := by
  induction m generalizing m' with
  | nil =>
    cases m' with
    | nil => rfl
    | cons d m' =>
      simp only [Memory.wf, Bool.and_eq_true, decide_eq_true_eq] at h'
      exact absurd (by simpa [Memory.read] using (hr d.1).symm) h'.1.1
  | cons c m ih =>
    cases m' with
    | nil =>
      simp only [Memory.wf, Bool.and_eq_true, decide_eq_true_eq] at h
      exact absurd (by simpa [Memory.read] using hr c.1) h.1.1
    | cons d m' =>
      simp only [Memory.wf, Bool.and_eq_true, decide_eq_true_eq, List.all_eq_true] at h h'
      have key : ∀ (x y : Host.Cell) (n : Memory), x.2 ≠ Memory.blank → (∀ z ∈ n, y.1 < z.1) → x.1 < y.1 →
          x.2 ≠ Memory.read (y :: n) x.1 := by
        intro x y n hx hn hxy he
        rw [Memory.read_below _ x.1 (by
          intro z hz
          rcases List.mem_cons.mp hz with rfl | hz
          · exact hxy
          · exact lt_trans hxy (hn z hz))] at he
        exact hx he
      have hcd : c.1 = d.1 := by
        rcases Nat.lt_trichotomy c.1 d.1 with hlt | heq | hgt
        · exact absurd (by simpa [Memory.read] using hr c.1) (key c d m' h.1.1 h'.1.2 hlt)
        · exact heq
        · exact absurd (by simpa [Memory.read] using (hr d.1).symm) (key d c m h'.1.1 h.1.2 hgt)
      have h2 : c.2 = d.2 := by simpa [Memory.read, hcd] using hr c.1
      have ht : m = m' := ih m' h.2 h'.2 fun a => by
        rcases eq_or_ne a c.1 with rfl | hne
        · rw [Memory.read_below m _ h.1.2, Memory.read_below m' _ (by rw [hcd]; exact h'.1.2)]
        · simpa [Memory.read, hne, hcd ▸ hne] using hr a
      rw [ht, show c = d from Prod.ext hcd h2]

@[simp] theorem Memory.length_readBytes (m : Memory) (a n : Nat) : (m.readBytes a n).length = n := by
  induction n generalizing a with
  | zero => rfl
  | succ n ih => simp [Memory.readBytes, ih]

/-- The bytes of a range are its addresses' bytes, in order. -/
theorem Memory.readBytes_getElem? (m : Memory) (a n k : Nat) (h : k < n) :
    (m.readBytes a n)[k]? = some (m.read (a + k)) := by
  induction n generalizing a k with
  | zero => omega
  | succ n ih =>
    cases k with
    | zero => rfl
    | succ k =>
      rw [Memory.readBytes, List.getElem?_cons_succ, ih (a + 1) k (by omega), show a + (k + 1) = a + 1 + k by omega]


theorem Memory.readBytes_congr {m m' : Memory} (a n : Nat) (h : ∀ x, a ≤ x → x < a + n → m.read x = m'.read x) :
    m.readBytes a n = m'.readBytes a n := by
  induction n generalizing a with
  | zero => rfl
  | succ n ih =>
    rw [Memory.readBytes, Memory.readBytes, h a (le_refl a) (by omega),
      ih (a + 1) fun x h1 h2 => h x (by omega) (by omega)]

/-- The bytes just written are the bytes read back. -/
theorem Memory.readBytes_writeBytes (m : Memory) (a : Nat) (bs : List Byte) (h : m.wf) :
    (Memory.writeBytes m a bs).readBytes a bs.length = bs := by
  induction bs generalizing m a with
  | nil => rfl
  | cons b bs ih =>
    rw [List.length_cons, Memory.writeBytes, Memory.readBytes, ih _ _ (Memory.wf_write m a b h),
      Memory.read_writeBytes_outside _ _ _ _ (by omega), Memory.read_write_self m a b h]

/-! ## Byte order (20_memory R107) -/

@[simp] theorem length_natToBytes (n v : Nat) : (natToBytes n v).length = n := by
  induction n generalizing v with
  | zero => rfl
  | succ n ih => simp [natToBytes, ih]

theorem bytesToNat_natToBytes (n v : Nat) (h : v < 256 ^ n) : bytesToNat (natToBytes n v) = v := by
  induction n generalizing v with
  | zero => simp at h; simp [natToBytes, bytesToNat, h]
  | succ n ih =>
    have hv : v / 256 < 256 ^ n := by
      rw [Nat.div_lt_iff_lt_mul (by decide)]
      rwa [pow_succ] at h
    rw [natToBytes, bytesToNat, ih _ hv, BitVec.toNat_ofNat]
    omega

theorem bytesToNat_lt (bs : List Byte) : bytesToNat bs < 256 ^ bs.length := by
  induction bs with
  | nil => decide
  | cons b bs ih =>
    have := b.isLt
    rw [bytesToNat, List.length_cons, pow_succ]
    omega

end Sys2Proof.Machine
end

