-- ==== Sys2Proof/Laws/State.lean ====
section
/-!
SUPPORT. One lemma per field per update of the state, each true by `rfl`, so that no later proof unfolds a record update.
-/

namespace Sys2Proof.Machine

/-! ## Updates of a tile -/

section
variable (t : Tile)

@[simp] theorem Tile.setReg_cfg (i v : Nat) : (t.setReg i v).cfg = t.cfg := rfl
@[simp] theorem Tile.setReg_cmd (i v : Nat) : (t.setReg i v).cmd = t.cmd := rfl
@[simp] theorem Tile.setReg_inb (i v : Nat) : (t.setReg i v).inb = t.inb := rfl
@[simp] theorem Tile.setReg_xfer (i v : Nat) : (t.setReg i v).xfer = t.xfer := rfl
@[simp] theorem Tile.setReg_memq (i v : Nat) : (t.setReg i v).memq = t.memq := rfl
@[simp] theorem Tile.setReg_nocq (i v : Nat) : (t.setReg i v).nocq = t.nocq := rfl
@[simp] theorem Tile.setReg_nextId (i v : Nat) : (t.setReg i v).nextId = t.nextId := rfl
@[simp] theorem Tile.setReg_retry (i v : Nat) : (t.setReg i v).retry = t.retry := rfl
@[simp] theorem Tile.setReg_fatal (i v : Nat) : (t.setReg i v).fatal = t.fatal := rfl
@[simp] theorem Tile.setReg_log (i v : Nat) : (t.setReg i v).log = t.log := rfl
@[simp] theorem Tile.setReg_denySuspend (i v : Nat) : (t.setReg i v).denySuspend = t.denySuspend := rfl
@[simp] theorem Tile.setReg_suspended (i v : Nat) : (t.setReg i v).suspended = t.suspended := rfl
@[simp] theorem Tile.setReg_mem (i v : Nat) : (t.setReg i v).mem = t.mem := rfl
@[simp] theorem Tile.setReg_memIn (i v : Nat) : (t.setReg i v).memIn = t.memIn := rfl
@[simp] theorem Tile.setReg_memOut (i v : Nat) : (t.setReg i v).memOut = t.memOut := rfl
@[simp] theorem Tile.setReg_port (i v : Nat) : (t.setReg i v).port = t.port := rfl
@[simp] theorem Tile.setReg_inbox (i v : Nat) : (t.setReg i v).inbox = t.inbox := rfl

@[simp] theorem Tile.setEp_cfg (e : Nat) (f : Field) (v : Nat) : (t.setEp e f v).cfg = t.cfg := rfl
@[simp] theorem Tile.setEp_cmd (e : Nat) (f : Field) (v : Nat) : (t.setEp e f v).cmd = t.cmd := rfl
@[simp] theorem Tile.setEp_inb (e : Nat) (f : Field) (v : Nat) : (t.setEp e f v).inb = t.inb := rfl
@[simp] theorem Tile.setEp_xfer (e : Nat) (f : Field) (v : Nat) : (t.setEp e f v).xfer = t.xfer := rfl
@[simp] theorem Tile.setEp_memq (e : Nat) (f : Field) (v : Nat) : (t.setEp e f v).memq = t.memq := rfl
@[simp] theorem Tile.setEp_nocq (e : Nat) (f : Field) (v : Nat) : (t.setEp e f v).nocq = t.nocq := rfl
@[simp] theorem Tile.setEp_nextId (e : Nat) (f : Field) (v : Nat) : (t.setEp e f v).nextId = t.nextId := rfl
@[simp] theorem Tile.setEp_retry (e : Nat) (f : Field) (v : Nat) : (t.setEp e f v).retry = t.retry := rfl
@[simp] theorem Tile.setEp_fatal (e : Nat) (f : Field) (v : Nat) : (t.setEp e f v).fatal = t.fatal := rfl
@[simp] theorem Tile.setEp_log (e : Nat) (f : Field) (v : Nat) : (t.setEp e f v).log = t.log := rfl
@[simp] theorem Tile.setEp_denySuspend (e : Nat) (f : Field) (v : Nat) : (t.setEp e f v).denySuspend = t.denySuspend := rfl
@[simp] theorem Tile.setEp_suspended (e : Nat) (f : Field) (v : Nat) : (t.setEp e f v).suspended = t.suspended := rfl
@[simp] theorem Tile.setEp_mem (e : Nat) (f : Field) (v : Nat) : (t.setEp e f v).mem = t.mem := rfl
@[simp] theorem Tile.setEp_memIn (e : Nat) (f : Field) (v : Nat) : (t.setEp e f v).memIn = t.memIn := rfl
@[simp] theorem Tile.setEp_memOut (e : Nat) (f : Field) (v : Nat) : (t.setEp e f v).memOut = t.memOut := rfl
@[simp] theorem Tile.setEp_port (e : Nat) (f : Field) (v : Nat) : (t.setEp e f v).port = t.port := rfl
@[simp] theorem Tile.setEp_inbox (e : Nat) (f : Field) (v : Nat) : (t.setEp e f v).inbox = t.inbox := rfl

@[simp] theorem Tile.deny_cfg (c : DenialCode) (o : DenialOrigin) (e a n : Nat) : (t.deny c o e a n).cfg = t.cfg := rfl
@[simp] theorem Tile.deny_regs (c : DenialCode) (o : DenialOrigin) (e a n : Nat) : (t.deny c o e a n).regs = t.regs := rfl
@[simp] theorem Tile.deny_cmd (c : DenialCode) (o : DenialOrigin) (e a n : Nat) : (t.deny c o e a n).cmd = t.cmd := rfl
@[simp] theorem Tile.deny_inb (c : DenialCode) (o : DenialOrigin) (e a n : Nat) : (t.deny c o e a n).inb = t.inb := rfl
@[simp] theorem Tile.deny_xfer (c : DenialCode) (o : DenialOrigin) (e a n : Nat) : (t.deny c o e a n).xfer = t.xfer := rfl
@[simp] theorem Tile.deny_memq (c : DenialCode) (o : DenialOrigin) (e a n : Nat) : (t.deny c o e a n).memq = t.memq := rfl
@[simp] theorem Tile.deny_nocq (c : DenialCode) (o : DenialOrigin) (e a n : Nat) : (t.deny c o e a n).nocq = t.nocq := rfl
@[simp] theorem Tile.deny_nextId (c : DenialCode) (o : DenialOrigin) (e a n : Nat) : (t.deny c o e a n).nextId = t.nextId := rfl
@[simp] theorem Tile.deny_retry (c : DenialCode) (o : DenialOrigin) (e a n : Nat) : (t.deny c o e a n).retry = t.retry := rfl
@[simp] theorem Tile.deny_fatal (c : DenialCode) (o : DenialOrigin) (e a n : Nat) : (t.deny c o e a n).fatal = t.fatal := rfl
@[simp] theorem Tile.deny_denySuspend (c : DenialCode) (o : DenialOrigin) (e a n : Nat) : (t.deny c o e a n).denySuspend = t.denySuspend := rfl
@[simp] theorem Tile.deny_suspended (c : DenialCode) (o : DenialOrigin) (e a n : Nat) : (t.deny c o e a n).suspended = t.suspended := rfl
@[simp] theorem Tile.deny_mem (c : DenialCode) (o : DenialOrigin) (e a n : Nat) : (t.deny c o e a n).mem = t.mem := rfl
@[simp] theorem Tile.deny_memIn (c : DenialCode) (o : DenialOrigin) (e a n : Nat) : (t.deny c o e a n).memIn = t.memIn := rfl
@[simp] theorem Tile.deny_memOut (c : DenialCode) (o : DenialOrigin) (e a n : Nat) : (t.deny c o e a n).memOut = t.memOut := rfl
@[simp] theorem Tile.deny_port (c : DenialCode) (o : DenialOrigin) (e a n : Nat) : (t.deny c o e a n).port = t.port := rfl
@[simp] theorem Tile.deny_inbox (c : DenialCode) (o : DenialOrigin) (e a n : Nat) : (t.deny c o e a n).inbox = t.inbox := rfl

@[simp] theorem Tile.retire_cfg : (t.retire).cfg = t.cfg := rfl
@[simp] theorem Tile.retire_inb : (t.retire).inb = t.inb := rfl
@[simp] theorem Tile.retire_xfer : (t.retire).xfer = t.xfer := rfl
@[simp] theorem Tile.retire_memq : (t.retire).memq = t.memq := rfl
@[simp] theorem Tile.retire_nocq : (t.retire).nocq = t.nocq := rfl
@[simp] theorem Tile.retire_nextId : (t.retire).nextId = t.nextId := rfl
@[simp] theorem Tile.retire_retry : (t.retire).retry = t.retry := rfl
@[simp] theorem Tile.retire_fatal : (t.retire).fatal = t.fatal := rfl
@[simp] theorem Tile.retire_log : (t.retire).log = t.log := rfl
@[simp] theorem Tile.retire_denySuspend : (t.retire).denySuspend = t.denySuspend := rfl
@[simp] theorem Tile.retire_suspended : (t.retire).suspended = t.suspended := rfl
@[simp] theorem Tile.retire_mem : (t.retire).mem = t.mem := rfl
@[simp] theorem Tile.retire_memIn : (t.retire).memIn = t.memIn := rfl
@[simp] theorem Tile.retire_memOut : (t.retire).memOut = t.memOut := rfl
@[simp] theorem Tile.retire_port : (t.retire).port = t.port := rfl
@[simp] theorem Tile.retire_inbox : (t.retire).inbox = t.inbox := rfl

@[simp] theorem Tile.enqueue_cfg (j : Job) : (t.enqueue j).cfg = t.cfg := rfl
@[simp] theorem Tile.enqueue_regs (j : Job) : (t.enqueue j).regs = t.regs := rfl
@[simp] theorem Tile.enqueue_cmd (j : Job) : (t.enqueue j).cmd = t.cmd := rfl
@[simp] theorem Tile.enqueue_inb (j : Job) : (t.enqueue j).inb = t.inb := rfl
@[simp] theorem Tile.enqueue_memq (j : Job) : (t.enqueue j).memq = t.memq := rfl
@[simp] theorem Tile.enqueue_nocq (j : Job) : (t.enqueue j).nocq = t.nocq := rfl
@[simp] theorem Tile.enqueue_nextId (j : Job) : (t.enqueue j).nextId = t.nextId := rfl
@[simp] theorem Tile.enqueue_retry (j : Job) : (t.enqueue j).retry = t.retry := rfl
@[simp] theorem Tile.enqueue_fatal (j : Job) : (t.enqueue j).fatal = t.fatal := rfl
@[simp] theorem Tile.enqueue_log (j : Job) : (t.enqueue j).log = t.log := rfl
@[simp] theorem Tile.enqueue_denySuspend (j : Job) : (t.enqueue j).denySuspend = t.denySuspend := rfl
@[simp] theorem Tile.enqueue_suspended (j : Job) : (t.enqueue j).suspended = t.suspended := rfl
@[simp] theorem Tile.enqueue_mem (j : Job) : (t.enqueue j).mem = t.mem := rfl
@[simp] theorem Tile.enqueue_memIn (j : Job) : (t.enqueue j).memIn = t.memIn := rfl
@[simp] theorem Tile.enqueue_memOut (j : Job) : (t.enqueue j).memOut = t.memOut := rfl
@[simp] theorem Tile.enqueue_port (j : Job) : (t.enqueue j).port = t.port := rfl
@[simp] theorem Tile.enqueue_inbox (j : Job) : (t.enqueue j).inbox = t.inbox := rfl

@[simp] theorem Tile.recompute_cfg : (t.recompute).cfg = t.cfg := rfl
@[simp] theorem Tile.recompute_regs : (t.recompute).regs = t.regs := rfl
@[simp] theorem Tile.recompute_cmd : (t.recompute).cmd = t.cmd := rfl
@[simp] theorem Tile.recompute_inb : (t.recompute).inb = t.inb := rfl
@[simp] theorem Tile.recompute_xfer : (t.recompute).xfer = t.xfer := rfl
@[simp] theorem Tile.recompute_memq : (t.recompute).memq = t.memq := rfl
@[simp] theorem Tile.recompute_nocq : (t.recompute).nocq = t.nocq := rfl
@[simp] theorem Tile.recompute_nextId : (t.recompute).nextId = t.nextId := rfl
@[simp] theorem Tile.recompute_retry : (t.recompute).retry = t.retry := rfl
@[simp] theorem Tile.recompute_fatal : (t.recompute).fatal = t.fatal := rfl
@[simp] theorem Tile.recompute_log : (t.recompute).log = t.log := rfl
@[simp] theorem Tile.recompute_suspended : (t.recompute).suspended = t.suspended := rfl
@[simp] theorem Tile.recompute_mem : (t.recompute).mem = t.mem := rfl
@[simp] theorem Tile.recompute_memIn : (t.recompute).memIn = t.memIn := rfl
@[simp] theorem Tile.recompute_memOut : (t.recompute).memOut = t.memOut := rfl
@[simp] theorem Tile.recompute_port : (t.recompute).port = t.port := rfl
@[simp] theorem Tile.recompute_inbox : (t.recompute).inbox = t.inbox := rfl

@[simp] theorem Tile.setReg_regs (i v : Nat) : (t.setReg i v).regs = t.regs.set i (t.cfg.wrapW v) := rfl
@[simp] theorem Tile.deny_log (c : DenialCode) (o : DenialOrigin) (e a n : Nat) :
    (t.deny c o e a n).log = t.log ++ [{ code := c, origin := o, ep := e, addr := a, size := n }] := rfl
@[simp] theorem Tile.retire_cmd : t.retire.cmd = .idle := rfl
@[simp] theorem Tile.retire_regs : t.retire.regs = t.regs.set commandReg (t.cfg.wrapW 0) := rfl
@[simp] theorem Tile.enqueue_queue (j : Job) : (t.enqueue j).xfer.queue = t.xfer.queue ++ [j] := rfl
@[simp] theorem Tile.enqueue_active (j : Job) : (t.enqueue j).xfer.active = t.xfer.active := rfl
@[simp] theorem Tile.recompute_denySuspend : t.recompute.denySuspend = t.pendingMessage := rfl

end

/-! ## Updates of the system -/

section
variable (s : State)

@[simp] theorem State.setTile_mode (k : Nat) (t : Tile) : (s.setTile k t).mode = s.mode := rfl
@[simp] theorem State.setTile_noc (k : Nat) (t : Tile) : (s.setTile k t).noc = s.noc := rfl
@[simp] theorem State.setTile_turns (k : Nat) (t : Tile) : (s.setTile k t).turns = s.turns := rfl
@[simp] theorem State.setTile_refuse (k : Nat) (t : Tile) : (s.setTile k t).refuse = s.refuse := rfl
@[simp] theorem State.setTile_tick (k : Nat) (t : Tile) : (s.setTile k t).tick = s.tick := rfl
@[simp] theorem State.setTile_cur (k : Nat) (t : Tile) : (s.setTile k t).cur = s.cur := rfl
@[simp] theorem State.setTile_failAfter (k : Nat) (t : Tile) : (s.setTile k t).failAfter = s.failAfter := rfl
@[simp] theorem State.raise_mode (k : Nat) (c : FatalCode) : (s.raise k c).mode = s.mode := rfl
@[simp] theorem State.raise_noc (k : Nat) (c : FatalCode) : (s.raise k c).noc = s.noc := rfl
@[simp] theorem State.raise_turns (k : Nat) (c : FatalCode) : (s.raise k c).turns = s.turns := rfl
@[simp] theorem State.raise_refuse (k : Nat) (c : FatalCode) : (s.raise k c).refuse = s.refuse := rfl
@[simp] theorem State.raise_tick (k : Nat) (c : FatalCode) : (s.raise k c).tick = s.tick := rfl
@[simp] theorem State.raise_cur (k : Nat) (c : FatalCode) : (s.raise k c).cur = s.cur := rfl
@[simp] theorem State.raise_failAfter (k : Nat) (c : FatalCode) : (s.raise k c).failAfter = s.failAfter := rfl
@[simp] theorem State.setTile_tiles (k : Nat) (t : Tile) : (s.setTile k t).tiles = s.tiles.set k t := rfl
@[simp] theorem State.raise_tiles (k : Nat) (c : FatalCode) :
    (s.raise k c).tiles = s.tiles.modify k fun t => { t with fatal := some c } := rfl

end

/-! ## Reading registers after an update -/

theorem Tile.reg_setReg_self (t : Tile) (i v : Nat) (h : i < t.regs.length) :
    (t.setReg i v).reg i = t.cfg.wrapW v := by
  simp [Tile.reg, Tile.setReg, h]

theorem Tile.reg_setReg_of_ne (t : Tile) (i j v : Nat) (h : j ≠ i) : (t.setReg i v).reg j = t.reg j := by
  simp [Tile.reg, Tile.setReg, h.symm]

/-- A read depends on the register file alone. -/
theorem Tile.reg_congr {t t' : Tile} (h : t'.regs = t.regs) (i : Nat) : t'.reg i = t.reg i := by
  simp [Tile.reg, h]

theorem Tile.reg_retire_of_ne (t : Tile) (j : Nat) (h : j ≠ commandReg) : t.retire.reg j = t.reg j :=
  t.reg_setReg_of_ne commandReg j 0 h

/-- COMMAND reads zero after retirement (40_command_engine R220). -/
theorem Tile.reg_retire_command (t : Tile) : t.retire.reg commandReg = 0 := by
  unfold Tile.reg Tile.retire Tile.setReg
  cases t.regs <;> simp [Config.wrapW, wrap]

@[simp] theorem Tile.reg_deny (t : Tile) (c : DenialCode) (o : DenialOrigin) (e a n i : Nat) :
    (t.deny c o e a n).reg i = t.reg i := rfl

@[simp] theorem Tile.reg_enqueue (t : Tile) (j : Job) (i : Nat) : (t.enqueue j).reg i = t.reg i := rfl

@[simp] theorem Tile.reg_recompute (t : Tile) (i : Nat) : t.recompute.reg i = t.reg i := rfl

/-- Two fields of endpoints are the same register only when endpoint and field agree (10_state R32). -/
theorem epReg_inj {e e' : Nat} {f f' : Field} (h : epReg e f = epReg e' f') : e = e' ∧ f = f' := by
  have hf : ∀ g : Field, g.num < 15 := fun g => by cases g <;> decide
  have h1 := hf f
  have h2 := hf f'
  have hn : f.num = f'.num := by unfold epReg at h; omega
  refine ⟨by unfold epReg at h; omega, ?_⟩
  revert hn
  cases f <;> cases f' <;> simp [Field.num]

theorem epReg_ne_command (e : Nat) (f : Field) : epReg e f ≠ commandReg := by
  unfold epReg commandReg; omega

/-! ## The launch of a system -/

/-- A system is launched exactly when its parameters meet the constraints of 00_scope R8, and then as constructed. -/
theorem State.launch_eq_some {m : Mode} {ps : List (Config × Memory)} {s : State} :
    State.launch m ps = some s ↔ Config.systemValid (ps.map Prod.fst) = true ∧ s = State.construct m ps := by
  unfold State.launch
  split
  · next h => exact ⟨fun e => ⟨h, (Option.some.inj e).symm⟩, fun e => e.2 ▸ rfl⟩
  · next h => exact ⟨fun e => (nomatch e), fun e => absurd e.1 h⟩

/-- The tiles of a constructed system (70_reset_and_hazards R480). -/
theorem State.construct_tile (m : Mode) (ps : List (Config × Memory)) (k : Nat) :
    (State.construct m ps).tiles[k]? = ps[k]?.map fun p => Tile.launch p.1 p.2 := by
  simp [State.construct]

end Sys2Proof.Machine
end

