-- ==== Sys2Proof/Laws/Ops.lean ====
section
/-!
SUPPORT. What the shared operations of Machine/Ops.lean can do, one lemma each, for later proofs to cite: raising, settling,
offering, committing and dispatching.
-/

namespace Sys2Proof.Machine

/-! ## Tiles of an updated system -/

theorem State.setTile_getElem? (s : State) (k j : Nat) (t t0 : Tile) (h : s.tiles[k]? = some t0) :
    (s.setTile k t).tiles[j]? = if j = k then some t else s.tiles[j]? := by
  have hk : k < s.tiles.length := (List.getElem?_eq_some_iff.1 h).1
  by_cases hj : j = k
  · subst hj; simp [hk]
  · simp [hj, Ne.symm hj]

theorem State.setTile_self (s : State) (k : Nat) (t t0 : Tile) (h : s.tiles[k]? = some t0) :
    (s.setTile k t).tiles[k]? = some t := by
  rw [s.setTile_getElem? k k t t0 h, if_pos rfl]

theorem State.raise_getElem? (s : State) (k j : Nat) (c : FatalCode) :
    (s.raise k c).tiles[j]? =
      if j = k then (s.tiles[j]?).map fun t => { t with fatal := some c } else s.tiles[j]? := by
  by_cases hj : j = k
  · subst hj; simp
  · simp [hj, Ne.symm hj]

/-! ## Fatal errors (44_async_completion R410) -/

theorem firstFatal_eq_none {l : List Tile} {n : Nat} : firstFatal l n = none ↔ ∀ t ∈ l, t.fatal = none := by
  induction l generalizing n with
  | nil => simp [firstFatal]
  | cons t ts ih => cases h : t.fatal <;> simp [firstFatal, h, ih]

theorem firstFatal_modify {l : List Tile} {n k : Nat} {c : FatalCode} (h : ∀ t ∈ l, t.fatal = none)
    (hk : k < l.length) :
    firstFatal (l.modify k fun t => { t with fatal := some c }) n = some (n + k, c) := by
  induction l generalizing n k with
  | nil => simp at hk
  | cons t ts ih =>
    cases k with
    | zero => simp [firstFatal]
    | succ k =>
      have ht : t.fatal = none := h t (by simp)
      have := ih (n := n + 1) (k := k) (fun u hu => h u (by simp [hu])) (by simpa using hk)
      simp only [List.modify_succ_cons, firstFatal, ht, this]
      congr 2
      omega

theorem State.raised_eq_none {s : State} : s.raised = none ↔ ∀ t ∈ s.tiles, t.fatal = none := firstFatal_eq_none

/-- The raising tile and its code are what a halted system shows (60_exceptions R431). -/
theorem State.raised_raise {s : State} {k : Nat} {c : FatalCode} (h : s.raised = none) (hk : k < s.tiles.length) :
    (s.raise k c).raised = some (k, c) := by
  have := firstFatal_modify (n := 0) (c := c) (State.raised_eq_none.1 h) hk
  simpa [State.raised] using this

/-- Where there is no tile `k`, nothing is recorded. -/
theorem State.raise_of_le {s : State} {k : Nat} (c : FatalCode) (h : s.tiles.length ≤ k) : s.raise k c = s := by
  have : s.tiles.modify k (fun t => { t with fatal := some c }) = s.tiles := by
    apply List.ext_getElem?
    intro j
    by_cases hj : j = k
    · subst hj; simp [h]
    · simp [Ne.symm hj]
  simp [State.raise, this]

/-! ## Sequencing -/

theorem andThen_eq_next {o : Host.Outcome State Fault Refusal} {f : State → Host.Outcome State Fault Refusal}
    {s' : State} (h : andThen o f = .next s') : ∃ s, o = .next s ∧ f s = .next s' := by
  cases o with
  | next s => exact ⟨s, rfl, h⟩
  | fault r => simp [andThen] at h
  | refused r => simp [andThen] at h

/-- A settled step either gives what its event gave, without a fatal error, or undoes the event and records the error. -/
theorem State.settle_eq_next {s s' : State} {o : Host.Outcome State Fault Refusal} (h : s.settle o = .next s') :
    (o = .next s' ∧ s'.raised = none) ∨
      ∃ s1 k c, o = .next s1 ∧ s1.raised = some (k, c) ∧ s' = s.raise k c := by
  obtain ⟨s1, rfl, h1⟩ := andThen_eq_next h
  split at h1
  · rename_i k c hr
    cases h1
    exact .inr ⟨s1, k, c, rfl, hr, rfl⟩
  · rename_i hr
    cases h1
    exact .inl ⟨rfl, hr⟩

/-! ## Offers (44_async_completion R395) -/

/-- Everything an offer can do: the item waits in its slot, or its receiver has it. -/
theorem State.send_cases (s : State) (k : Nat) (t : Tile) (item : Item) :
    (s.refuses = true ∧ s.send k t item = s.setTile k { t with retry := t.retry.fill item }) ∨
      (s.refuses = false ∧
        ((∃ r, item = .nocReq r ∧ s.send k t item =
            { s.setTile k t with noc := s.noc ++ [{ dst := t.cfg.nocCore r.addr, packet := .req r }] }) ∨
          (∃ d r, item = .nocResp d r ∧ s.send k t item =
            { s.setTile k t with noc := s.noc ++ [{ dst := d, packet := .resp r }] }) ∨
          (∃ r, item = .memReq r ∧ s.send k t item = s.setTile k { t with memIn := t.memIn ++ [r] }) ∨
          (∃ r, item = .cpuResp r ∧ s.send k t item = s.setTile k { t with inbox := t.inbox ++ [r] }))) := by
  unfold State.send
  cases hr : s.refuses
  · cases item <;> simp [State.handOver]
  · simp

/-- No offer is refused in ATOMIC mode (44_async_completion R400). -/
theorem State.refuses_atomic {s : State} (h : s.mode = .atomic) : s.refuses = false := by
  simp [State.refuses, h]

/-- Everything a rule's effect can be. -/
theorem State.commit_cases (s : State) (k : Nat) (r : Result) :
    (r = .held ∧ s.commit k r = s) ∨
      (∃ c, r = .fatal c ∧ s.commit k r = s.raise k c) ∨
      (∃ t, r = .done t none ∧ s.commit k r = s.setTile k t) ∨
      (∃ t item, r = .done t (some item) ∧ s.commit k r = s.send k t item) := by
  cases r with
  | held => exact .inl ⟨rfl, rfl⟩
  | fatal c => exact .inr (.inl ⟨c, rfl, rfl⟩)
  | done t o => cases o with
    | none => exact .inr (.inr (.inl ⟨t, rfl, rfl⟩))
    | some item => exact .inr (.inr (.inr ⟨t, item, rfl, rfl⟩))

theorem State.onTile_of_getElem? {s : State} {k : Nat} {t : Tile} (h : s.tiles[k]? = some t) (rule : Tile → Result) :
    s.onTile k rule = s.commit k (rule t) := by
  simp [State.onTile, h]

theorem State.onTile_of_none {s : State} {k : Nat} (h : s.tiles[k]? = none) (rule : Tile → Result) :
    s.onTile k rule = s := by
  simp [State.onTile, h]

/-! ## Dispatch of one instruction -/

theorem Tile.allFree_iff {t : Tile} {chs : List Channel} : t.allFree chs = true ↔ ∀ ch ∈ chs, t.free ch = true := by
  simp [Tile.allFree]

/-- With its channels free and its endpoint in range, an instruction's own rule decides. -/
theorem dispatchOn_of_ready {chs : List Channel} {ep : Nat} {rule : Tile → Result} {s : State} {t : Tile}
    (h : s.tiles[s.cur]? = some t) (hc : ∀ ch ∈ chs, t.free ch = true) (he : ep < t.cfg.numEndpoints) :
    dispatchOn chs ep rule s = .next (s.commit s.cur (rule t)) := by
  have := Tile.allFree_iff.2 hc
  simp [dispatchOn, State.onTile_of_getElem? h, this, he]

/-- An endpoint id out of range is fatal (40_command_engine R210). -/
theorem dispatchOn_of_outOfRange {chs : List Channel} {ep : Nat} {rule : Tile → Result} {s : State} {t : Tile}
    (h : s.tiles[s.cur]? = some t) (hc : ∀ ch ∈ chs, t.free ch = true) (he : t.cfg.numEndpoints ≤ ep) :
    dispatchOn chs ep rule s = .next (s.raise s.cur .epidOutOfRange) := by
  have := Tile.allFree_iff.2 hc
  simp [dispatchOn, State.onTile_of_getElem? h, this, Nat.not_lt.2 he, State.commit]

/-- With a channel it may offer on not free, a dispatch waits (44_async_completion R397). -/
theorem dispatchOn_of_blocked {chs : List Channel} {ep : Nat} {rule : Tile → Result} {s : State} {t : Tile}
    (h : s.tiles[s.cur]? = some t) {ch : Channel} (hm : ch ∈ chs) (hc : t.free ch = false) :
    dispatchOn chs ep rule s = .next s := by
  have : t.allFree chs = false := by
    rw [← Bool.not_eq_true, Tile.allFree_iff]
    intro hall
    simp [hall ch hm] at hc
  simp [dispatchOn, State.onTile_of_getElem? h, this, State.commit]

/-- Everything a dispatch can do. -/
theorem dispatchOn_cases (chs : List Channel) (ep : Nat) (rule : Tile → Result) (s : State) :
    dispatchOn chs ep rule s = .next s ∨
      ∃ t, s.tiles[s.cur]? = some t ∧
        (dispatchOn chs ep rule s = .next (s.raise s.cur .epidOutOfRange) ∨
          dispatchOn chs ep rule s = .next (s.commit s.cur (rule t))) := by
  cases h : s.tiles[s.cur]? with
  | none => exact .inl (by simp [dispatchOn, State.onTile_of_none h])
  | some t =>
    cases hc : t.allFree chs with
    | false => exact .inl (by simp [dispatchOn, State.onTile_of_getElem? h, hc, State.commit])
    | true =>
      refine .inr ⟨t, rfl, ?_⟩
      by_cases he : ep < t.cfg.numEndpoints
      · exact .inr (by simp [dispatchOn, State.onTile_of_getElem? h, hc, he])
      · exact .inl (by simp [dispatchOn, State.onTile_of_getElem? h, hc, he, State.commit])

end Sys2Proof.Machine
end

