-- ==== Sys2Proof/Laws/Evolves.lean ====
section
/-!
SUPPORT. What every rule of the model keeps at its tile: the parameters and the fatal code stay, the log only grows, a
register that changes gets a `W`-bit value, and the local memory keeps its canonical form. One lemma for each rule, for
proofs of whole-machine properties to cite.
-/

namespace Sys2Proof.Machine

/-- What one rule may do to its tile, as far as the whole-machine properties are concerned. -/
structure Tile.Evolves (t t' : Tile) : Prop where
  cfg : t'.cfg = t.cfg
  fatal : t'.fatal = t.fatal
  log : t.log <+: t'.log
  length : t'.regs.length = t.regs.length
  reg : ∀ v ∈ t'.regs, v ∈ t.regs ∨ v < 2 ^ t.cfg.W
  mem : t.mem.wf → t'.mem.wf

namespace Tile.Evolves

theorem of_eq {t t' : Tile} (hc : t'.cfg = t.cfg := by rfl) (hf : t'.fatal = t.fatal := by rfl)
    (hl : t'.log = t.log := by rfl) (hr : t'.regs = t.regs := by rfl) (hm : t'.mem = t.mem := by rfl) :
    t.Evolves t' :=
  ⟨hc, hf, hl ▸ List.prefix_rfl, by rw [hr], fun v hv => .inl (hr ▸ hv), fun h => hm ▸ h⟩

theorem refl (t : Tile) : t.Evolves t := of_eq

theorem trans {t u v : Tile} (h : t.Evolves u) (h' : u.Evolves v) : t.Evolves v where
  cfg := h'.cfg.trans h.cfg
  fatal := h'.fatal.trans h.fatal
  log := h.log.trans h'.log
  length := h'.length.trans h.length
  reg w hw := by
    rcases h'.reg w hw with hu | hlt
    · exact h.reg w hu
    · exact .inr (h.cfg ▸ hlt)
  mem := h'.mem ∘ h.mem

theorem setReg (t : Tile) (i v : Nat) : t.Evolves (t.setReg i v) where
  cfg := rfl
  fatal := rfl
  log := List.prefix_rfl
  length := by simp
  reg w hw := by
    rcases List.mem_or_eq_of_mem_set hw with h | h
    · exact .inl h
    · exact .inr (h ▸ Nat.mod_lt _ (by positivity))
  mem := id

theorem setEp (t : Tile) (e : Nat) (f : Field) (v : Nat) : t.Evolves (t.setEp e f v) := setReg t _ v

theorem deny (t : Tile) (c : DenialCode) (o : DenialOrigin) (e a n : Nat) : t.Evolves (t.deny c o e a n) :=
  ⟨rfl, rfl, ⟨_, rfl⟩, rfl, fun _ hv => .inl hv, id⟩

theorem retire (t : Tile) : t.Evolves t.retire := (setReg t commandReg 0).trans of_eq

theorem enqueue (t : Tile) (j : Job) : t.Evolves (t.enqueue j) := of_eq

theorem recompute (t : Tile) : t.Evolves t.recompute := of_eq

theorem writeMem (t : Tile) (a : Nat) (bs : List Byte) : t.Evolves { t with mem := t.mem.writeBytes a bs } :=
  ⟨rfl, rfl, List.prefix_rfl, rfl, fun _ hv => .inl hv, Memory.wf_writeBytes _ _ _⟩

theorem setCmd (t : Tile) (c : CmdState) : t.Evolves { t with cmd := c } := of_eq

end Tile.Evolves

/-- A rule's result evolves its tile: whatever it gives as the tile's new state is reached from `t`. -/
structure Result.Evolves (t : Tile) (r : Result) : Prop where
  out : ∀ t' o, r = .done t' o → t.Evolves t'

namespace Result.Evolves

theorem held (t : Tile) : Result.Evolves t .held := ⟨fun _ _ h => Result.noConfusion h⟩

theorem fatal (t : Tile) (c : FatalCode) : Result.Evolves t (.fatal c) := ⟨fun _ _ h => Result.noConfusion h⟩

theorem done {t t' : Tile} (h : t.Evolves t') (o : Option Item) : Result.Evolves t (.done t' o) :=
  ⟨fun _ _ hu => (Result.done.inj hu).1 ▸ h⟩

theorem of_tile {t u : Tile} {r : Result} (h : t.Evolves u) (hr : Result.Evolves u r) : Result.Evolves t r :=
  ⟨fun t' o ho => h.trans (hr.out t' o ho)⟩

end Result.Evolves

open Tile.Evolves (of_eq)

/-! ## Requests and responses -/

theorem memRequest_evolves (t : Tile) (r : MemReq) : Result.Evolves t (memRequest t r) :=
  .done of_eq _

theorem nocRequest_evolves (t : Tile) (q : Requester) (ep : Nat) (r : NocReq) (a : Nat) :
    Result.Evolves t (nocRequest t q ep r a) :=
  .done of_eq _

theorem respond_evolves {t u : Tile} (h : t.Evolves u) (src : Nat) (kind : NocKind) (ss : Nat) (st : Status)
    (d : List Byte) : Result.Evolves t (respond u src kind ss st d) :=
  .done h _

/-! ## The rules of the seven instructions -/

theorem idleRule_evolves (t : Tile) : Result.Evolves t (idleRule t) := .done (.setCmd t _) _

theorem advanceRing_evolves (t : Tile) (ep : Nat) : t.Evolves (t.advanceRing ep) := by
  unfold Tile.advanceRing
  simp only
  split
  · exact .deny ..
  · split
    · exact .deny ..
    · exact (Tile.Evolves.setEp ..).trans (.setEp ..)

theorem incReadPtrRule_evolves (ep : Nat) (t : Tile) : Result.Evolves t (incReadPtrRule ep t) :=
  .done ((advanceRing_evolves t ep).trans (.retire _)) _

theorem wake_evolves (t : Tile) : t.Evolves t.wake := by
  unfold Tile.wake
  split
  · exact of_eq
  · exact .refl t

theorem wakeupCoreRule_evolves (t : Tile) : Result.Evolves t (wakeupCoreRule t) :=
  .done ((wake_evolves t).trans (.retire _)) _

theorem sendRule_evolves (ep : Nat) (t : Tile) : Result.Evolves t (sendRule ep t) := by
  unfold sendRule
  simp only
  split
  · exact .fatal ..
  · split
    · exact .fatal ..
    · split
      · exact .fatal ..
      · exact .done ((Tile.Evolves.setCmd t _).trans (.enqueue ..)) _

theorem replyRule_evolves (ep : Nat) (t : Tile) : Result.Evolves t (replyRule ep t) := by
  unfold replyRule
  simp only
  split
  · exact .done ((Tile.Evolves.deny ..).trans (.retire _)) _
  · split
    · exact .done ((Tile.Evolves.deny ..).trans (.retire _)) _
    · split
      · exact .fatal ..
      · exact .of_tile (.setCmd t _) (memRequest_evolves ..)

theorem remoteAccess_evolves (need : Dir) (ep : Nat) (start : Snap → Tile → Result) (t : Tile)
    (h : ∀ sn, Result.Evolves t (start sn t)) : Result.Evolves t (remoteAccess need ep start t) := by
  unfold remoteAccess
  simp only
  split
  · exact .done ((Tile.Evolves.deny ..).trans (.retire _)) _
  · split
    · exact .fatal ..
    · split
      · exact .fatal ..
      · exact h _

theorem readStart_evolves (ep : Nat) (sn : Snap) (t : Tile) : Result.Evolves t (readStart ep sn t) :=
  .of_tile (.setCmd t _) (nocRequest_evolves ..)

theorem writeStart_evolves (ep : Nat) (sn : Snap) (t : Tile) : Result.Evolves t (writeStart ep sn t) :=
  .done ((Tile.Evolves.setCmd t _).trans (.enqueue ..)) _

/-! ## The continuations of commands -/

theorem headerFetched_evolves (ep : Nat) (sn : Snap) (d : List Byte) (t : Tile) :
    Result.Evolves t (headerFetched ep sn d t) := by
  unfold headerFetched
  simp only
  split
  · exact .fatal ..
  · split
    · exact .fatal ..
    · exact .done ((Tile.Evolves.setCmd t _).trans (.enqueue ..)) _

theorem messageOut_evolves (op : AsyncOp) (ep : Nat) (sn : Snap) (acc : List Byte) (t : Tile) :
    Result.Evolves t (messageOut op ep sn acc t) :=
  .of_tile (.setCmd t _) (nocRequest_evolves ..)

theorem writeOut_evolves (ep : Nat) (sn : Snap) (acc : List Byte) (t : Tile) :
    Result.Evolves t (writeOut ep sn acc t) :=
  .of_tile (.setCmd t _) (nocRequest_evolves ..)

theorem readComplete_evolves (ep : Nat) (sn : Snap) (r : NocResp) (t : Tile) :
    Result.Evolves t (readComplete ep sn r t) := by
  unfold readComplete
  simp only
  split
  · exact .done (.retire t) _
  · split
    · exact .fatal ..
    · exact .done ((Tile.Evolves.setCmd t _).trans (.enqueue ..)) _

/-! ## Register accesses -/

theorem writeCommand_evolves {t t' : Tile} {v : Nat} {o : Origin} (h : writeCommand t v o = .ok t') :
    t.Evolves t' := by
  unfold writeCommand at h
  split at h <;> cases h
  exact (Tile.Evolves.setReg t commandReg v).trans of_eq

theorem regAccess_evolves {t t' : Tile} {a : RegAccess} {o : Origin} {r : RegReply}
    (h : regAccess t a o = .ok (t', r)) : t.Evolves t' := by
  unfold regAccess at h
  split at h
  · cases h
  · simp only at h
    split at h
    · split at h
      · cases hw : writeCommand t a.value o with
        | error c => simp [hw, Except.map] at h
        | ok u =>
          simp only [hw, Except.map, Except.ok.injEq, Prod.mk.injEq] at h
          exact h.1 ▸ writeCommand_evolves hw
      · cases h
        exact .setReg ..
    · cases h
      exact .refl t

/-- A NoC peer's register access is the register access of a request that is not malformed. -/
theorem nocRegAccess_eq_ok {r : NocReq} {t : Tile} {p : Tile × RegReply} :
    nocRegAccess r t = .ok p ↔ regAccess t (r.regAccess t.cfg) .noc = .ok p ∧ malformedRequest r = false := by
  unfold nocRegAccess
  cases regAccess t (r.regAccess t.cfg) .noc <;> cases malformedRequest r <;> simp

theorem nocRegAccess_evolves {r : NocReq} {t : Tile} {p : Tile × RegReply} (h : nocRegAccess r t = .ok p) :
    t.Evolves p.1 :=
  regAccess_evolves (nocRegAccess_eq_ok.1 h).1

theorem regEnd_evolves (item : Item) (t : Tile) : Result.Evolves t (regEnd item t) := .done (.recompute t) _

/-! ## Inbound requests -/

theorem inboundMessage_evolves (r : NocReq) (t : Tile) : Result.Evolves t (inboundMessage r t) := by
  unfold inboundMessage
  simp only
  split
  · exact .fatal ..
  · split
    · exact .fatal ..
    · split
      · exact .fatal ..
      · split
        · exact respond_evolves (.deny ..) ..
        · exact .done of_eq _

theorem messageLanded_evolves (r : InbRec) (t : Tile) : Result.Evolves t (messageLanded r t) := by
  unfold messageLanded
  exact respond_evolves
    (((Tile.Evolves.setEp t r.ep .bufWrPtr _).trans (.setEp _ r.ep .bufMsgCnt _)).trans
      of_eq) ..

theorem inboundMemory_evolves (r : NocReq) (t : Tile) : Result.Evolves t (inboundMemory r t) := by
  unfold inboundMemory
  simp only
  split
  · exact .fatal ..
  · split
    · exact respond_evolves (.deny ..) ..
    · exact .done of_eq _

theorem memoryServed_evolves (r : InbRec) (acc : List Byte) (t : Tile) : Result.Evolves t (memoryServed r acc t) :=
  respond_evolves of_eq ..

theorem externalise_evolves (r : NocReq) (t : Tile) {res : Result} (h : Result.Evolves t res) :
    Result.Evolves t (externalise r t res) := by
  unfold externalise
  split
  · split
    · exact respond_evolves (.deny ..) ..
    · exact .fatal ..
  · exact h

/-! ## The transfer unit and the memory -/

theorem commandJobDone_evolves (acc : List Byte) (t : Tile) : Result.Evolves t (commandJobDone acc t) := by
  unfold commandJobDone
  split
  · split
    · exact messageOut_evolves ..
    · exact .held t
  · split
    · exact messageOut_evolves ..
    · exact .held t
  · split
    · exact writeOut_evolves ..
    · exact .held t
  · exact .done (.retire t) _
  · exact .held t

theorem inboundJobDone_evolves (acc : List Byte) (t : Tile) : Result.Evolves t (inboundJobDone acc t) := by
  unfold inboundJobDone
  split
  · exact .held t
  · split
    · split
      · exact messageLanded_evolves ..
      · exact memoryServed_evolves ..
    · exact .held t

theorem jobDone_evolves (o : Owner) (acc : List Byte) (t : Tile) : Result.Evolves t (jobDone o acc t) := by
  unfold jobDone
  cases o
  · exact .of_tile (of_eq) (commandJobDone_evolves ..)
  · exact .of_tile (of_eq) (inboundJobDone_evolves ..)

theorem activateJob_evolves (t : Tile) : Result.Evolves t (activateJob t) := by
  unfold activateJob
  split
  · simp only
    split
    · exact .of_tile (of_eq) (jobDone_evolves ..)
    · exact .done of_eq _
  · exact .held t

theorem issueChunk_evolves (t : Tile) : Result.Evolves t (issueChunk t) := by
  unfold issueChunk
  split
  · exact .held t
  · split
    · exact .of_tile (of_eq) (memRequest_evolves ..)
    · exact .held t

theorem memServe_wf {m : Memory} (c : Config) (r : MemReq) (h : m.wf) : (memServe c m r).1.wf := by
  unfold memServe
  split
  · exact h
  · split
    · exact h
    · exact Memory.wf_writeBytes _ _ _ h

theorem memAnswer_evolves (t : Tile) : Result.Evolves t (memAnswer t) := by
  unfold memAnswer
  split
  · exact .held t
  · refine .done (Tile.Evolves.mk ?_ ?_ ?_ ?_ ?_ ?_) _
    · rfl
    · rfl
    · exact List.prefix_rfl
    · rfl
    · exact fun _ hv => .inl hv
    · exact memServe_wf _ _

theorem transferResponse_evolves (last : Bool) (r : MemResp) (t : Tile) :
    Result.Evolves t (transferResponse last r t) := by
  have key : ∀ res : Result, Result.Evolves t res →
      Result.Evolves t (if res.isHeld then .held else if r.err then .fatal .transactionError else res) := by
    intro res h
    split
    · exact .held t
    · split
      · exact .fatal ..
      · exact h
  unfold transferResponse
  split
  · exact .held t
  · apply key
    split
    · exact jobDone_evolves ..
    · exact .done (of_eq) _

theorem headerResponse_evolves (r : MemResp) (t : Tile) : Result.Evolves t (headerResponse r t) := by
  unfold headerResponse
  split
  · split
    · exact .fatal ..
    · exact headerFetched_evolves ..
  · exact .held t

theorem memResponse_evolves (t : Tile) : Result.Evolves t (memResponse t) := by
  unfold memResponse
  split
  · simp only
    split
    · exact .of_tile (of_eq) (transferResponse_evolves ..)
    · exact .of_tile (of_eq) (headerResponse_evolves ..)
  · exact .held t

/-! ## Forwarding and responses -/

theorem forward_ends_evolves {q : CacheReq} {t : Tile} {r : Result} (h : forward q t = .ends r) :
    Result.Evolves t r := by
  have access : ∀ need, forwardAccess need q t = .ends r → Result.Evolves t r := by
    intro need hn
    unfold forwardAccess at hn
    simp only at hn
    split at hn
    · cases hn; exact .done (.deny ..) _
    · split at hn
      · cases hn; exact .fatal ..
      · split at hn <;> cases hn
        exact .fatal ..
  unfold forward at h
  split at h
  · cases h; exact .done (.refl t) _
  · cases h; exact .done (.deny ..) _
  · cases h; exact .done (.deny ..) _
  · exact access _ h
  · exact access _ h

theorem forwardOut_evolves (need : Dir) (n : NocAddress) (q : CacheReq) (t : Tile) :
    Result.Evolves t (forwardOut need n q t) :=
  nocRequest_evolves ..

theorem forwardedResponse_evolves (d : Dir) (n : Nat) (a : Nat) (r : NocResp) (t : Tile) :
    Result.Evolves t (forwardedResponse d n a r t) := by
  unfold forwardedResponse
  split
  · exact .fatal ..
  · exact .done (.refl t) _

theorem serveFunctional_evolves {r : NocReq} {t t' : Tile} {resp : NocResp}
    (h : serveFunctional r t = .ok (t', resp)) : t.Evolves t' := by
  have register : ∀ p, functionalRegister r t = .ok p → t.Evolves p.1 := by
    intro p hp
    unfold functionalRegister at hp
    simp only at hp
    split at hp
    · cases hp
    · split at hp
      · cases hp
      · cases ha : nocRegAccess r t with
        | error c => simp [ha, Except.map] at hp
        | ok u =>
          simp only [ha, Except.map, Except.ok.injEq] at hp
          subst hp
          exact (nocRegAccess_evolves ha).trans (.recompute _)
  have memory : ∀ p, functionalMemory r t = .ok p → t.Evolves p.1 := by
    intro p hp
    unfold functionalMemory at hp
    simp only at hp
    split at hp
    · cases hp
    · split at hp
      · cases hp; exact .deny ..
      · split at hp
        · cases hp
        · split at hp
          · cases hp; exact .refl t
          · cases hp; exact .writeMem ..
  have rule : ∀ p, functionalRule r t = .ok p → t.Evolves p.1 := by
    intro p hp
    unfold functionalRule at hp
    split at hp
    · cases hp
    · split at hp
      · exact register p hp
      · exact memory p hp
  unfold serveFunctional at h
  split at h
  · rename_i p hp
    cases h
    exact rule _ hp
  · split at h <;> cases h
    exact .deny ..

theorem nocResponse_evolves (r : NocResp) (t : Tile) : Result.Evolves t (nocResponse r t) := by
  have handler : ∀ e u, Result.Evolves u (responseHandler e r u) := by
    intro e u
    unfold responseHandler
    split <;> first
      | exact forwardedResponse_evolves ..
      | exact .fatal ..
      | (split <;> first
          | exact readComplete_evolves ..
          | exact .done (.retire u) _
          | exact .fatal ..)
  unfold nocResponse
  split
  · exact .fatal ..
  · split
    · exact .held t
    · split
      · exact .fatal ..
      · split
        · exact .fatal ..
        · exact .of_tile (of_eq) (handler _ _)

/-! ## The CPU's side -/

theorem suspendCpu_evolves (t : Tile) : Result.Evolves t (suspendCpu t) := by
  unfold suspendCpu
  split
  · exact .done of_eq _
  · exact .held t

theorem localRead_evolves (a n : Nat) (t : Tile) : t.Evolves (localRead a n t) := of_eq

theorem localWrite_evolves (a : Nat) (d : List Byte) (t : Tile) : t.Evolves (localWrite a d t) := by
  unfold localWrite
  split
  · exact of_eq
  · exact (Tile.Evolves.writeMem t a d).trans of_eq

end Sys2Proof.Machine
end

