-- ==== Sys2Proof/Laws/PerInstr.lean ====
section
/-!
SUPPORT. Families of lemmas with one lemma for each instruction. `EncodeFits`: the command word of a well-formed instruction is a
`W`-bit word whose reserved bits are zero.
-/

namespace Sys2Proof

/-- The numeric values fit the opcode field (00_scope R8). -/
theorem Config.opcodeValue_lt {c : Config} (h : c.valid = true) (o : Opcode) : c.opcodeValue.of o < 2 ^ c.opcodeBits := by
  simp only [Config.valid, Bool.and_eq_true, List.all_eq_true, decide_eq_true_eq] at h
  exact h.1.1.1.1.1.1.1.1.1.1.1.1.1.2 o (by cases o <;> simp [Opcode.all])

/-- The command word has no bit above the epId field (30_encoding R153, R156). -/
theorem cmdWord_lt {c : Config} (h : c.valid = true) (o : Opcode) {e : Nat} (he : e < 2 ^ c.epidBits) :
    cmdWord c o e < 2 ^ (c.opcodeBits + c.epidBits) := by
  have ho := c.opcodeValue_lt h o
  have h1 : cmdWord c o e < (e + 1) * 2 ^ c.opcodeBits := by
    rw [cmdWord, Nat.add_mul, Nat.one_mul, Nat.add_comm]
    exact Nat.add_lt_add_left ho _
  calc cmdWord c o e < (e + 1) * 2 ^ c.opcodeBits := h1
    _ ≤ 2 ^ c.epidBits * 2 ^ c.opcodeBits := Nat.mul_le_mul_right _ he
    _ = 2 ^ (c.opcodeBits + c.epidBits) := by rw [← pow_add, Nat.add_comm]

namespace Laws.EncodeFits

/-- The command word of a well-formed instruction is a `W`-bit word without reserved bits. -/
def Statement (i : Instr) : Prop :=
  ∀ c : Config, c.valid = true → c.opcodeBits + c.epidBits ≤ c.W → i.wf c = true →
    encode c i < 2 ^ c.W ∧ reservedField c (encode c i) = 0

/-- The statement holds of an instruction with any opcode. -/
theorem of_wf (i : Instr) : Statement i := by
  intro c hc hw hi
  simp only [Instr.wf, Instr.encodable, Bool.and_eq_true, decide_eq_true_eq] at hi
  have h := cmdWord_lt hc i.opcode hi.1
  exact ⟨lt_of_lt_of_le h (Nat.pow_le_pow_right (by decide) hw), by
    unfold reservedField bits encode
    rw [Nat.div_eq_of_lt h, Nat.zero_mod]⟩

theorem idle (ep : Nat) : Statement (.idle ep) := of_wf _
theorem send (ep : Nat) : Statement (.send ep) := of_wf _
theorem reply (ep : Nat) : Statement (.reply ep) := of_wf _
theorem read (ep : Nat) : Statement (.read ep) := of_wf _
theorem write (ep : Nat) : Statement (.write ep) := of_wf _
theorem incReadPtr (ep : Nat) : Statement (.incReadPtr ep) := of_wf _
theorem wakeupCore (ep : Nat) : Statement (.wakeupCore ep) := of_wf _

end Laws.EncodeFits

end Sys2Proof
end

