-- ==== Sys2Proof/Laws/Step.lean ====
section
/-!
SUPPORT. What a step can do: the equations of a step from a known choice, and the one induction over the ATOMIC chain, so
that a property of every event's own step is a property of every step.
-/

namespace Sys2Proof.Machine

/-! ## Running states -/

theorem State.raised_setTile {s : State} {k : Nat} {t : Tile} (h : s.raised = none) (ht : t.fatal = none) :
    (s.setTile k t).raised = none := by
  rw [State.raised_eq_none] at h ⊢
  intro u hu
  rcases List.mem_or_eq_of_mem_set hu with hu | rfl
  · exact h u hu
  · exact ht

/-- An offer raises nothing. -/
theorem State.raised_send {s : State} {k : Nat} {t : Tile} {item : Item} (h : s.raised = none) (ht : t.fatal = none) :
    (s.send k t item).raised = none := by
  unfold State.send
  split
  · exact State.raised_setTile h ht
  · cases item <;> exact State.raised_setTile h ht

theorem State.fatal_eq_none {s : State} {k : Nat} {t : Tile} (h : s.raised = none) (ht : s.tiles[k]? = some t) :
    t.fatal = none :=
  State.raised_eq_none.1 h t (List.mem_of_getElem? ht)

theorem State.settle_of_running {s s' : State} (h : s'.raised = none) : s.settle (.next s') = .next s' := by
  simp [State.settle, andThen, h]

theorem State.settle_of_raised {s s' : State} {k : Nat} {c : FatalCode} (h : s'.raised = some (k, c)) :
    s.settle (.next s') = .next (s.raise k c) := by
  simp [State.settle, andThen, h]

/-- A rule that raises: the step keeps its start state but for the code (60_exceptions R431). -/
theorem State.settle_raise {s u : State} {k : Nat} {c : FatalCode} (h : u.raised = none) (hk : k < u.tiles.length) :
    s.settle (.next (u.raise k c)) = .next (s.raise k c) :=
  State.settle_of_raised (State.raised_raise h hk)

/-- A rule that does not raise: the step's settling changes nothing. -/
theorem State.settle_commit_done {s u : State} {k : Nat} {t : Tile} (o : Option Item) (h : u.raised = none)
    (ht : t.fatal = none) :
    s.settle (.next (u.commit k (.done t o))) = .next (u.commit k (.done t o)) := by
  apply State.settle_of_running
  cases o with
  | none => exact State.raised_setTile h ht
  | some item => exact State.raised_send h ht

theorem State.settle_commit_fatal {s u : State} {k : Nat} {t : Tile} {c : FatalCode} (h : u.raised = none)
    (ht : u.tiles[k]? = some t) : s.settle (.next (u.commit k (.fatal c))) = .next (s.raise k c) :=
  State.settle_raise h (List.getElem?_eq_some_iff.1 ht).1

/-! ## The step of a known choice -/

@[simp] theorem State.chosen_tiles (s : State) (r : Bool) (rest : List Turn) : (s.chosen r rest).tiles = s.tiles := rfl
@[simp] theorem State.chosen_noc (s : State) (r : Bool) (rest : List Turn) : (s.chosen r rest).noc = s.noc := rfl
@[simp] theorem State.chosen_mode (s : State) (r : Bool) (rest : List Turn) : (s.chosen r rest).mode = s.mode := rfl
@[simp] theorem State.chosen_refuse (s : State) (r : Bool) (rest : List Turn) : (s.chosen r rest).refuse = r := rfl
@[simp] theorem State.chosen_raised (s : State) (r : Bool) (rest : List Turn) :
    (s.chosen r rest).raised = s.raised := rfl

/-- The step of a known choice in TIMED mode is the settled step of its event. -/
theorem step_of_due {s : State} {e : Event} {r : Bool} {rest : List Turn} (h : s.Due e r rest) :
    step s = (s.chosen r rest).settle
      (perform (runChain (s.chosen r rest).chainBound (s.chosen r rest)) e (s.chosen r rest)) := by
  obtain ⟨hm, hr, ht⟩ := h
  simp [step, hr, State.nextTurn, ht, State.stepEvent, hm, State.chosen]

/-- The state after the environment's choice differs from the one before in the choice alone. -/
theorem State.nextTurn_fields (s : State) :
    s.nextTurn.2.mode = s.mode ∧ s.nextTurn.2.tiles = s.tiles ∧ s.nextTurn.2.noc = s.noc ∧ s.nextTurn.2.cur = s.cur := by
  unfold State.nextTurn
  split <;> exact ⟨rfl, rfl, rfl, rfl⟩

/-! ## The transport of responses -/

/-- In TIMED mode the NoC counts no response and fails none by count. -/
theorem State.countResponse_of_timed {s : State} (h : s.mode = .timed) : s.countResponse = s := by
  simp [State.countResponse, h]

theorem State.carried_of_timed {s : State} (h : s.mode = .timed) (r : NocResp) : s.carried r = r := by
  simp [State.carried, State.failsNow, h]

@[simp] theorem State.countResponse_mode (s : State) : s.countResponse.mode = s.mode := by
  unfold State.countResponse; split <;> simp_all

@[simp] theorem State.countResponse_tiles (s : State) : s.countResponse.tiles = s.tiles := by
  unfold State.countResponse; split <;> rfl

@[simp] theorem State.countResponse_noc (s : State) : s.countResponse.noc = s.noc := by
  unfold State.countResponse; split <;> rfl

/-- The failure of a transport changes packets in flight only. -/
theorem transportFails_eq (i : Nat) (s : State) : transportFails i s = { s with noc := (transportFails i s).noc } := by
  unfold transportFails
  repeat' split
  all_goals rfl

/-! ## The induction over a step -/

/-- A relation between the start and a state of a step, kept by every event's own step: the nested chain of a register
access is one of its steps. -/
structure Kept (Inv : State → Prop) : Prop where
  event : ∀ (run : State → Host.Outcome State Fault Refusal),
    (∀ u u', Inv u → run u = .next u' → Inv u') → ∀ e u u', Inv u → perform run e u = .next u' → Inv u'
  raise : ∀ u k c, Inv u → Inv (u.raise k c)
  turn : ∀ u : State, Inv u → Inv u.nextTurn.2

theorem Kept.chain {Inv : State → Prop} (h : Kept Inv) {start : State} (hs : Inv start) :
    ∀ n u u', Inv u → runChain n start u = .next u' → Inv u' := by
  intro n
  induction n with
  | zero => intro u u' _ hr; simp [runChain] at hr
  | succ n ih =>
    intro u u' hu hr
    rw [runChain] at hr
    split at hr
    · rename_i k c _
      cases hr
      exact h.raise start k c hs
    · split at hr
      · cases hr
        exact hu
      · rename_i e _
        obtain ⟨v, hv, hv'⟩ := andThen_eq_next hr
        exact ih v u' (h.event (runChain n start) ih e u v hu hv) hv'

/-- What every event's own step keeps, every step keeps. -/
theorem Kept.step {Inv : State → Prop} (h : Kept Inv) {s s' : State} (hs : Inv s) (hst : step s = .next s') : Inv s' := by
  have hn := h.turn s hs
  have settled : ∀ o, (∀ u, o = .next u → Inv u) → s.nextTurn.2.settle o = .next s' → Inv s' := by
    intro o ho hset
    rcases State.settle_eq_next hset with ⟨ho', -⟩ | ⟨-, k, c, -, -, rfl⟩
    · exact ho s' ho'
    · exact h.raise _ k c hn
  have hchain := h.chain hn s.nextTurn.2.chainBound
  unfold Machine.step at hst
  split at hst
  · cases hst
  · unfold State.stepEvent at hst
    simp only at hst
    split at hst
    · exact settled _ (fun u hu => h.event _ hchain _ _ u hn hu) hst
    · refine settled _ (fun u hu => ?_) hst
      obtain ⟨v, hv, hv'⟩ := andThen_eq_next hu
      exact hchain v u (h.event _ hchain _ _ v hn hv) hv'

end Sys2Proof.Machine
end

