-- ==== Sys2Proof/Tests/Slice0.lean ====
section
/-!
SUPPORT. Tests of single steps, with the results of the spec's examples (R211 to R305) and test vectors (95_test_vectors, V and
P), and a witness for the hypotheses of every statement: the theorem `witness_X` shows values that meet those of
`Obligations.X`, clause by clause, at the boundaries of their ranges.
-/

namespace Sys2Proof.Tests

open Sys2Proof.Machine

/-! ## Small states -/

/-- Tile `k` at reset. -/
def tile (k : Nat) : Tile := Tile.launch (Config.default k) []

/-- `t` with fields of endpoint `e` set. -/
def withEp (t : Tile) (e : Nat) (fs : List (Field × Nat)) : Tile := fs.foldl (fun u p => u.setEp e p.1 p.2) t

/-- `t` with the word `w` in COMMAND, its dispatch scheduled. -/
def withCmd (t : Tile) (w : Nat) : Tile := { t.setReg commandReg w with cmd := .scheduled .cpu }

/-- Two tiles in TIMED mode: tile 0 is `a`, tile 1 is at reset, and the next choice is the event `e`. -/
def sys (a : Tile) (noc : List Flight) (e : Event) (r : Bool) : State where
  mode := .timed
  tiles := [a, tile 1]
  noc := noc
  turns := [{ event := e, refuse := r }]
  refuse := false
  tick := 0
  cur := 0
  failAfter := none

theorem due {a : Tile} (h : a.fatal = none) (noc : List Flight) (e : Event) (r : Bool) :
    (sys a noc e r).Due e r [] :=
  ⟨rfl, by simp [State.raised, sys, firstFatal, h, tile, Tile.launch], rfl⟩

/-- The next state, if there is one. -/
def result (o : Host.Outcome State Fault Refusal) : Option State :=
  match o with
  | .next s => some s
  | _ => none

/-- Tile `k` of the next state. -/
def tileOf (k : Nat) (o : Host.Outcome State Fault Refusal) : Option Tile := (result o).bind fun s => s.tiles[k]?

/-- The packets in flight in the next state. -/
def nocOf (o : Host.Outcome State Fault Refusal) : Option (List Flight) := (result o).map State.noc

/-- The fatal code of tile `k` in the next state. -/
def fatalOf (k : Nat) (o : Host.Outcome State Fault Refusal) : Option FatalCode := (tileOf k o).bind Tile.fatal

theorem next_of {o : Host.Outcome State Fault Refusal} (P : State → Bool) (h : (result o).any P = true) :
    ∃ s', o = .next s' ∧ P s' = true := by
  cases o <;> simp_all [result]

theorem next_tile {o : Host.Outcome State Fault Refusal} (k : Nat) (P : Tile → Bool) (h : (tileOf k o).any P = true) :
    ∃ s' t', o = .next s' ∧ s'.tiles[k]? = some t' ∧ P t' = true := by
  cases o with
  | next s =>
    obtain ⟨t', h1, h2⟩ := Option.any_eq_true .. |>.mp h
    exact ⟨s, t', rfl, h1, h2⟩
  | fault _ => simp [tileOf, result] at h
  | refused _ => simp [tileOf, result] at h

/-- `exec` of an instruction at tile 0, which is `t`. -/
def run (i : Instr) (t : Tile) : Host.Outcome State Fault Refusal := exec i (sys t [] (.dispatch 0) false)

/-! ## Well-formedness (30_encoding R152, R156; 00_scope R8) -/

theorem test_wf_accepts : (Instr.send 7).wf (Config.default 0) = true := by decide
theorem test_wf_refuses_encoding : (Instr.send 256).encodable (Config.default 0) = false := by decide
theorem test_wf_refuses_endpoint : (Instr.idle 8).inRange (Config.default 0) = false := by decide
theorem test_wf_refuses : (Instr.send 256).wf (Config.default 0) = false ∧ (Instr.idle 8).wf (Config.default 0) = false := by
  decide
theorem test_config_valid : (Config.default 0).valid = true ∧ (Config.default 1).valid = true := by decide
/-- One ill-formed record for each constraint of R8. -/
theorem test_config_refuses :
    let c := Config.default 0
    let bad : List Config :=
      [{ c with W := 36 }, { c with W := 24 }, { c with opcodeBits := 2 }, { c with epidBits := 0 },
        { c with numEndpoints := 0 }, { c with numEndpoints := 257 }, { c with opcodeValue := { wakeupCore := 8 } },
        { c with opcodeValue := { send := 0 } }, { c with memEp := 8 }, { c with inboundWindowEp := 8 },
        { c with memCoreId := 2 ^ 64 }, { c with memBase := 2 ^ 64 }, { c with memSize := 2 ^ 64 },
        { c with ownCoreId := 256 }]
      ++ [{ c with regBase := 4 }, { c with nocOffsetBits := 47 }, { c with bufSize := 0 }, { c with bufCount := 0 },
        { c with maxNocPacketSize := 15 }, { c with localMemSize := 2 ^ 64 + 1 }]
    ∀ d ∈ bad, d.valid = false := by decide
/-- The constraints of R8 on the tiles together: too many tiles for a core field, a core id that is no tile's, core ids that are
not the tiles' positions. -/
theorem test_system_refuses :
    let c := Config.default
    Config.systemValid [c 0, c 1] = true ∧ Config.systemValid [{ c 0 with nocCoreBits := 0, nocOffsetBits := 56 }, c 1] = false ∧
      Config.systemValid [c 0, c 2] = false ∧ Config.systemValid [c 1, c 0] = false ∧
      (State.launch .timed [(c 1, []), (c 0, [])]).isNone = true := by decide
theorem test_launch_reset : State.launch .atomic [(Config.default 0, []), (Config.default 1, [])] = some State.reset := by
  decide

/-! ## Decoding (30_encoding R150 to R156; V2) -/

theorem test_decode_idle : decodeTableWord 64 0b00000111_000 = some (.idle 7) := by decide
theorem test_decode_send : decodeTableWord 64 0b00000010_001 = some (.send 2) := by decide
theorem test_decode_reply : decodeTableWord 64 0b00000011_010 = some (.reply 3) := by decide
theorem test_decode_read : decodeTableWord 64 0b00000001_011 = some (.read 1) := by decide
theorem test_decode_write : decodeTableWord 64 0b00000001_100 = some (.write 1) := by decide
theorem test_decode_incReadPtr : decodeTableWord 64 0b00000011_101 = some (.incReadPtr 3) := by decide
theorem test_decode_wakeupCore : decodeTableWord 64 0b11111111_110 = some (.wakeupCore 255) := by decide

/-- The error of a word. -/
def decodeError (c : Config) (v : Nat) : Option DecodeError :=
  match decode c v with
  | .error e => some e
  | .ok _ => none

/-- V2.4, V2.5, V2.9 to V2.11. -/
theorem test_decode_rejects :
    [0x07, 0x47, 0x800, 0x807, 0x8000000000000001].map (decodeError (Config.default 0)) =
      [some .unknownOpcode, some .unknownOpcode, some .reservedCmdBits, some .reservedCmdBits, some .reservedCmdBits] := by
  decide
/-- V2.12. -/
theorem test_decode_width : decodeError { Config.default 0 with epidBits := 62 } 0 = some .decodeWidth := by decide
/-- V2.13. -/
theorem test_decode_wide_opcode : decodeError { Config.default 0 with opcodeBits := 4 } 0x0F = some .unknownOpcode := by
  decide
/-- V2.14. -/
theorem test_decode_wide_read :
    (match decode { Config.default 0 with opcodeBits := 4 } 0x13 with
      | .ok i => some i
      | .error _ => none) = some (.read 1) := by decide
/-- The reference table of command words. -/
theorem test_encode :
    [Instr.idle 7, .send 5, .reply 4, .read 3, .write 2, .incReadPtr 1, .wakeupCore 0].map (encode (Config.default 0)) =
      [0x38, 0x29, 0x22, 0x1B, 0x14, 0x0D, 0x06] := by decide

/-! ## The instructions -/

/-- V3.2: COMMAND keeps the word. -/
theorem test_idle :
    (tileOf 0 (step (sys (withCmd (tile 0) 0x08) [] (.dispatch 0) false))).map (fun t => (t.reg commandReg, t.cmd, t.log)) =
      some (0x08, .idle, []) := by decide
/-- V2.7: the endpoint id of IDLE is checked too. -/
theorem test_idle_range : fatalOf 0 (step (sys (withCmd (tile 0) 0x40) [] (.dispatch 0) false)) = some .epidOutOfRange := by
  decide

/-- The ring of endpoint 3, its log and COMMAND after INC_READ_PTR. -/
def ringAfter (rd slots cnt : Nat) : Option (Nat × Nat × Nat × List Denial × Nat) :=
  (tileOf 0 (run (.incReadPtr 3)
    (withCmd (withEp (tile 0) 3 [(.bufRdPtr, rd), (.bufSlots, slots), (.bufMsgCnt, cnt)]) 0x1D))).map
    fun t => (t.ep 3 .bufRdPtr, t.ep 3 .bufSlots, t.ep 3 .bufMsgCnt, t.log, t.reg commandReg)

/-- V5.1, V5.5, V5.6, V5.7. -/
theorem test_incReadPtr :
    ringAfter 3 4 2 = some (0, 4, 1, [], 0) ∧ ringAfter 5 4 1 = some (2, 4, 0, [], 0) ∧
      ringAfter 0 4 9 = some (1, 4, 8, [], 0) ∧ ringAfter 0 1 1 = some (0, 1, 0, [], 0) :=
  ⟨by decide, by decide, by decide, by decide⟩
/-- V5.3, V5.4. -/
theorem test_incReadPtr_denied :
    ringAfter 0 4 0 = some (0, 4, 0, [{ code := .readPtrUnderflow, origin := .cmd, ep := 3, addr := 0, size := 0 }], 0) ∧
      ringAfter 2 0 1 = some (2, 0, 1, [{ code := .ringInvalid, origin := .cmd, ep := 3, addr := 2, size := 0 }], 0) :=
  ⟨by decide, by decide⟩

/-- V6.1, V6.2, V6.3. -/
theorem test_wakeupCore :
    let r := fun t : Tile => (tileOf 0 (run (.wakeupCore 0) (withCmd t 6))).map fun u => (u.suspended, u.reg commandReg, u.cmd)
    r { tile 0 with suspended := true } = some (false, 0, .idle) ∧ r (tile 0) = some (false, 0, .idle) ∧
      r { tile 0 with cfg := { Config.default 0 with cpuAttached := false } } = some (false, 0, .idle) := by decide

/-- Endpoint 2 of the example of 42_message_unit R302. -/
def sender : Tile := withEp (tile 0) 2 [(.tgtCore, 1), (.tgtEp, 3), (.locAddr, 0x400), (.dataSize, 4), (.replyEp, 4)]
/-- Header 11.1. -/
def header1 : List Byte := [0x04, 0, 0, 0, 0, 0, 0x02, 0x04, 0, 0, 0, 0, 0, 0, 0, 0]

/-- The example of R302: header, address and payload job. -/
theorem test_send :
    (tileOf 0 (run (.send 2) sender)).map (fun t => (t.cmd, t.xfer.queue)) =
      some
        (.exec .send 2 .xferOut
          { tgtCore := 1, tgtEp := 3, remBase := 0, remSize := 0, perm := 0, locAddr := 0x400, dataSize := 4, reqOffset := 0,
            replyEp := 4, nocAddr := 0x0103000000000000, hdr := header1 },
         [{ dir := .toNoc, loc := 0x400, size := 4, data := [], owner := .cmd }]) := by decide
/-- V14.4 to V14.7. -/
theorem test_send_fatal :
    let f := fun l => fatalOf 0 (run (.send 2) (withEp sender 2 l))
    f [(.dataSize, 1009)] = some .packetTooLarge ∧ f [(.replyEp, 0x100)] = some .headerFieldRange ∧
      f [(.dataSize, 1009), (.replyEp, 0x100)] = some .packetTooLarge ∧ f [(.tgtCore, 0x100)] = some .nocAddrRange ∧
      f [(.tgtEp, 0x100)] = some .nocAddrRange ∧ f [(.dataSize, 1008)] = none := by decide

/-- Endpoint 3 of the example of 42_message_unit R305. -/
def replier : Tile :=
  withEp (tile 1) 3
    [(.bufAddr, 0x1000), (.bufSlotSize, 0x40), (.bufSlots, 4), (.bufRdPtr, 0), (.bufMsgCnt, 1), (.locAddr, 0x500),
      (.dataSize, 2), (.replyEp, 0)]
/-- The snapshot of the reply. -/
def replySnap : Snap := { Snap.ofEndpoint replier 3 with slotAddr := 0x1000 }

/-- The example of R305 and V14.13: the header fetch. -/
theorem test_reply :
    (tileOf 0 (run (.reply 3) replier)).map (fun t => (t.cmd, t.memIn.map fun q => (q.op, q.addr, q.len), t.memq)) =
        some (.exec .reply 3 .hdr replySnap, [(.read, 0x1000, 16)], [.header 3 .cmd]) ∧
      (tileOf 0 (run (.reply 3) (withEp replier 3 [(.bufRdPtr, 2)]))).map (fun t => t.memIn.map MemReq.addr) =
        some [0x1080] :=
  ⟨by decide, by decide⟩
/-- The tile that has its header answered. -/
def headerTile (data : List Byte) : Tile :=
  { replier with
    cmd := .exec .reply 3 .hdr replySnap
    memq := [.header 3 .cmd]
    memOut := [{ err := false, data := data, ss := .header 3 .cmd }] }
/-- R306 with header 11.1 of tile 0, endpoint 2, reply endpoint 4 (V14.10). -/
theorem test_reply_header :
    ((tileOf 0 (step (sys (headerTile header1) [] (.memResponse 0) false))).map fun t =>
      match t.cmd with
      | .exec .reply 3 .xferOut sn => some (sn.tgtCore, sn.tgtEp, sn.nocAddr, sn.hdr)
      | _ => none) =
      some (some (0, 4, 0x0004000000000000, [0x02, 0, 0, 0, 0x01, 0, 0x03, 0, 0x01, 0, 0, 0, 0, 0, 0, 0])) := by decide

/-- Endpoint 1 of the example of 41_memory_unit R252. -/
def reader : Tile :=
  withEp (tile 0) 1
    [(.tgtCore, 1), (.remBase, 0x2000), (.remSize, 0x100), (.perm, 3), (.locAddr, 0x300), (.dataSize, 8), (.reqOffset, 0x10)]

/-- V7.1: the READ_REQ. -/
theorem test_read :
    nocOf (run (.read 1) reader) =
      some [{ dst := 1, packet := .req { kind := .readReq, addr := 0x0100000000002010, size := 8, data := [], src := 0, ss := 0,
                                         dir := .read } }] := by decide
/-- V7.4, V7.7, V7.8, V7.9, V7.10, V7.12, V7.13: denials come before fatal errors. -/
theorem test_read_checks :
    let l := fun fs => (tileOf 0 (run (.read 1) (withEp reader 1 fs))).map fun t => (t.log.map Denial.code, t.fatal)
    l [(.reqOffset, 0xF8), (.dataSize, 0x10)] = some ([.outOfBounds], none) ∧ l [(.perm, 2)] = some ([.noReadPerm], none) ∧
      l [(.remSize, 0x1000), (.reqOffset, 0), (.dataSize, 0x401)] = some ([], some .packetTooLarge) ∧
      l [(.reqOffset, 0), (.dataSize, 0x401)] = some ([.outOfBounds], none) ∧
      l [(.tgtCore, 0x100)] = some ([], some .nocAddrRange) ∧
      l [(.remBase, 0xFFFFFFFFFFF0), (.reqOffset, 0), (.dataSize, 0x10)] = some ([], none) ∧
      l [(.remBase, 0xFFFFFFFFFFF0), (.reqOffset, 8), (.dataSize, 0x10)] = some ([], some .nocAddrRange) ∧
      l [(.remBase, 0x1000000000000), (.reqOffset, 0), (.dataSize, 0)] = some ([], some .nocAddrRange) := by decide
/-- V7.2: the job, and the WRITE_REQ once its data is read. -/
theorem test_write :
    (tileOf 0 (run (.write 1) (withEp reader 1 [(.locAddr, 0x200)]))).map (fun t => t.xfer.queue) =
      some [{ dir := .toNoc, loc := 0x200, size := 8, data := [], owner := .cmd }] := by decide
/-- V7.5, V7.6. -/
theorem test_write_denied :
    let l := fun fs => (tileOf 0 (run (.write 1) (withEp reader 1 fs))).map Tile.log
    l [(.reqOffset, 0xFFFFFFFFFFFFFFF8), (.dataSize, 0x10)] =
        some [{ code := .addrOverflow, origin := .cmd, ep := 1, addr := 0xFFFFFFFFFFFFFFF8, size := 0x10 }] ∧
      l [(.perm, 1)] = some [{ code := .noWritePerm, origin := .cmd, ep := 1, addr := 0x10, size := 8 }] := by decide

/-- The host's own question: the word placed by `withFetchWord` is run by the next step, in ATOMIC mode from reset. -/
theorem test_fetch_word :
    (tileOf 0 (step (State.reset.withFetchWord 64 0x0C))).map (fun t => (t.log.map Denial.code, t.cmd)) =
      some ([.noWritePerm], .idle) := by decide

/-! ## Operands -/

/-- V4. -/
theorem test_check :
    let k := (Config.default 0).check
    [k .read 0 0x100 0x100 3, k .read 0xF8 0x10 0x100 3, k .read 0x100 0 0x100 3, k .read 0x100 1 0x100 3,
      k .read 0x101 0 0x100 3, k .read 0xFFFFFFFFFFFFFFF8 0x10 0x100 3, k .read 0xFFFFFFFFFFFFFFF0 0x10 0x100 3,
      k .read 0 (2 ^ 64 - 1) (2 ^ 64 - 1) 3, k .read 0 8 0x100 2, k .write 0 8 0x100 1,
      k .write 0xFFFFFFFFFFFFFFF8 0x10 0x100 0, k .read 0 0 0 1, k .read 0 1 0 1] =
    [none, some .outOfBounds, none, some .outOfBounds, some .outOfBounds, some .addrOverflow, some .addrOverflow, none,
      some .noReadPerm, some .noWritePerm, some .noWritePerm, none, some .outOfBounds] := by decide
/-- V10. -/
theorem test_noc_address :
    let c := Config.default 0
    c.nocAddr 0xFF 0xFF 0xFFFFFFFFFFFF = some 0xFFFFFFFFFFFFFFFF ∧ c.nocTarget 1 0x4000 0x500 0x10 = some 0x0100000000004500 ∧
      c.nocTarget 0x100 0 0 0 = none ∧ c.nocTarget 1 0x1000000000000 0 0 = none ∧
      (c.nocCore 0x01000000F0000000, c.nocEp 0x01000000F0000000, c.nocOff 0x01000000F0000000) = (1, 0, 0xF0000000) := by
  decide
/-- V11.4, V11.5, V11.6. -/
theorem test_header :
    encodeHeader 0x3F0 0xFF 7 6 true = some [0xF0, 0x03, 0, 0, 0xFF, 0, 0x07, 0x06, 0x01, 0, 0, 0, 0, 0, 0, 0] ∧
      encodeHeader 4 0 2 0x100 false = none ∧
      decodeHeader [0x04, 0, 0, 0, 0x01, 0, 0x02, 0x05, 0xFF, 0x11, 0x22, 0x33, 0x44, 0x55, 0x66, 0x77] =
        { length := 4, senderCore := 1, senderEp := 2, replyEp := 5, isReply := true } := by decide
/-- V13.5, V13.8. -/
theorem test_chunks :
    let c := Config.default 0
    let chunks := fun a n => (List.range (c.chunkCount n)).map fun k => (c.chunkAddr a k, c.chunkLen n k, c.chunkLast n k)
    chunks 0x1010 200 = [(0x1010, 64, false), (0x1050, 64, false), (0x1090, 64, false), (0x10D0, 8, true)] ∧
      chunks 0xFFFFFFFFFFFFFFF0 100 = [(0xFFFFFFFFFFFFFFF0, 64, false), (0x30, 36, true)] ∧ chunks 0x1000 0 = [] := by decide

/-! ## Accesses and inbound traffic -/

/-- A CPU register access. -/
def access (a size : Nat) (isWrite : Bool) (v : Nat) : Event :=
  .cpu 0 (.reg { addr := a, size := size, isWrite := isWrite, value := v })

/-- V1.7 to V1.9, V1.11, V1.12. -/
theorem test_register_forms :
    let f := fun a n => fatalOf 0 (step (sys (tile 0) [] (access a n false 0) false))
    f 0xF0000100 4 = some .regAccessSize ∧ f 0xF0000104 8 = some .regAccessSize ∧ f 0xF0000008 8 = some .regReserved ∧
      f 0xF0000478 8 = some .regReserved ∧ f 0xF0000008 4 = some .regAccessSize := by decide
/-- V1.3, V1.13, V15.2. -/
theorem test_register_access :
    (tileOf 0 (step (sys (tile 0) [] (access 0xF0000418 8 false 0) false))).map Tile.inbox = some [.regResp 0x100000] ∧
      (tileOf 0 (step (sys (tile 0) [] (access 0xF0000270 8 true 5) false))).map
        (fun t => (t.ep 3 .bufMsgCnt, t.denySuspend, t.inbox)) = some (5, true, [.regAck]) := by decide
/-- V1.16: a second write to COMMAND before the dispatch. -/
theorem test_command_twice :
    fatalOf 0 (step (sys (withCmd (tile 0) 0x11) [] (access 0xF0000000 8 true 0) false)) = some .cmdInProgress := by decide

/-- A packet for tile 0. -/
def flight (k : NocKind) (addr : NocAddress) (size : Nat) (data : List Byte) (dir : Dir) : Flight :=
  { dst := 0, packet := .req { kind := k, addr := addr, size := size, data := data, src := 1, ss := 9, dir := dir } }
/-- The receiver of V8, as core 0. -/
def window : Tile := withEp (tile 0) 7 [(.remBase, 0x1000), (.remSize, 0x1000), (.perm, 1)]
/-- The delivery of a packet to tile 0. -/
def delivered (t : Tile) (f : Flight) : Host.Outcome State Fault Refusal := step (sys t [f] (.deliver 0 0) false)

/-- What becomes of a packet at the receiver of V8. -/
def served (f : Flight) : Option (List (DenialCode × Nat × Nat) × List Job) :=
  (tileOf 0 (delivered window f)).map fun t => (t.log.map fun d => (d.code, d.addr, d.size), t.xfer.queue)
/-- V8.1, V8.2, V8.3, V8.5, V8.13: the log record, and the job of an accepted request. -/
theorem test_inbound_memory :
    served (flight .readReq 0x1800 0x10 [] .read) =
        some ([], [{ dir := .toNoc, loc := 0x1800, size := 0x10, data := [], owner := .inb }]) ∧
      served (flight .readReq 0x800 0x10 [] .read) = some ([(.outOfBounds, 0x800, 0x10)], []) ∧
      served (flight .writeReq 0x1800 4 [1, 2, 3, 4] .write) = some ([(.noWritePerm, 0x1800, 4)], []) ∧
      served (flight .readReq 0x1FF9 8 [] .read) = some ([(.outOfBounds, 0x1FF9, 8)], []) ∧
      served (flight .readReq 0xEFFFFFF8 0x10 [] .read) = some ([(.outOfBounds, 0xEFFFFFF8, 0x10)], []) :=
  ⟨by decide, by decide, by decide, by decide, by decide⟩
/-- V8.7, V8.8, V8.9, V8.11. -/
theorem test_inbound_fatal :
    let bad := flight .writeReq 0x1800 8 [1, 2, 3, 4] .write
    fatalOf 0 (delivered window bad) = some .malformedRequest ∧
      (tileOf 0 (delivered { window with cfg := { Config.default 0 with externalErrorsAsDenial := true } } bad)).map Tile.log =
        some [{ code := .externalInvariant, origin := .noc, ep := 0, addr := 0x1800, size := 8 }] ∧
      fatalOf 0 (delivered window (flight .readReq 0x0100000000001800 8 [] .read)) = some .misrouted ∧
      fatalOf 0 (delivered window (flight .readReq 0xF0000204 8 [] .read)) = some .regAccessSize := by decide
/-- D46: a NoC write into the register window whose data is shorter than its size; a wrong size comes first (R443). -/
theorem test_register_malformed :
    fatalOf 0 (delivered (tile 0) (flight .writeReq 0xF0000270 8 [1, 2, 3, 4] .write)) = some .malformedRequest ∧
      fatalOf 0 (delivered (tile 0) (flight .writeReq 0xF0000270 4 [1, 2, 3, 4, 5] .write)) = some .regAccessSize := by decide
/-- A job's local address has `W` bits (R43): an offset beyond them wraps, as the chunk addresses do (R352). -/
theorem test_offset_wraps :
    let t := withEp (Tile.launch { Config.default 0 with W := 32 } []) 7
      [(.remBase, 0xFFFFF000), (.remSize, 0x2000)]
    (tileOf 0 (delivered t (flight .readReq 0x0000000100000800 8 [] .read))).map (fun u => u.xfer.queue.map Job.loc) =
      some [0x800] := by decide
/-- R407: a request at the port of a suspended CPU stays there, and is accepted once the CPU runs. -/
theorem test_port :
    let q : CpuReq := .reg { addr := 0xF0000000, size := 8, isWrite := true, value := 6 }
    let after := fun t => (tileOf 0 (step (sys t [] (.cpuAgain 0 0) false))).map fun u => (u.port, u.cmd, u.inbox)
    after { tile 0 with suspended := true, port := [q] } = some ([q], .idle, []) ∧
      after { tile 0 with port := [q] } = some ([], .scheduled .cpu, [.regAck]) := by decide
/-- V8.12: a command issued through the NoC. -/
theorem test_inbound_command :
    (tileOf 0 (delivered window (flight .writeReq 0xF0000000 8 [6, 0, 0, 0, 0, 0, 0, 0] .write))).map
      (fun t => (t.reg commandReg, t.cmd)) = some (6, .scheduled .noc) := by decide

/-- The receiver of V12, as core 0. -/
def ring (wr cnt : Nat) : Tile :=
  withEp (tile 0) 3 [(.bufAddr, 0x1000), (.bufSlotSize, 0x40), (.bufSlots, 4), (.bufWrPtr, wr), (.bufMsgCnt, cnt)]
/-- A message of `n` bytes for endpoint `e`, its header naming `len` bytes of payload. -/
def message (e n len : Nat) : Flight :=
  flight .message (BitVec.ofNat 64 (e * 2 ^ 48)) n (BitVec.ofNat 8 len :: List.replicate (n - 1) 0) .write
/-- What becomes of a message. -/
def received (t : Tile) (f : Flight) : Option (List DenialCode × Option FatalCode × List Nat) :=
  (tileOf 0 (delivered t f)).map fun u => (u.log.map Denial.code, u.fatal, u.xfer.queue.map Job.loc)
/-- V12.3 to V12.5, V12.8 to V12.11. -/
theorem test_message :
    received (ring 0 0) (message 3 65 49) = some ([.msgTooLarge], none, []) ∧
      received (ring 1 4) (message 3 20 4) = some ([.bufferFull], none, []) ∧
      received (ring 3 1) (message 3 20 4) = some ([], none, [0x10C0]) ∧
      received (ring 9 0) (message 3 20 4) = some ([], none, [0x1240]) ∧
      received (ring 0 0) (message 3 15 0) = some ([], some .malformedMessage, []) ∧
      received (ring 0 0) (message 3 20 5) = some ([], some .malformedMessage, []) ∧
      received (ring 0 0) (message 8 20 4) = some ([], some .epidOutOfRange, []) :=
  ⟨by decide, by decide, by decide, by decide, by decide, by decide, by decide⟩

/-- A cache-memory request of the CPU of tile 0. -/
def cacheReq (cls : CacheClass) (a : Nat) (n : Nat) (data : List Byte) (functional : Bool) : CpuReq :=
  .cache { cls := cls, addr := a, size := n, data := data, functional := functional }
/-- What becomes of a CPU request at reset: denials, answers, forwarded addresses. -/
def requested (q : CpuReq) : Option (List DenialCode × List CpuResp × List Nat) :=
  (tileOf 0 (step (sys (tile 0) [] (.cpu 0 q) false))).map fun t =>
    (t.log.map Denial.code, t.inbox, t.nocq.map NocSS.origAddr)
/-- V9.1, V9.3, V9.6 to V9.8. -/
theorem test_forwarding :
    requested (cacheReq .read 0x1000 8 [] false) = some ([], [], [0x1000]) ∧
      requested (cacheReq .read 0xFFFFC 8 [] false) = some ([.outOfBounds], [.memResp false .denied 0xFFFFC []], []) ∧
      requested (cacheReq .cleanEvict 0x1000 64 [] false) = some ([], [], []) ∧
      requested (cacheReq .invalidateReq 0x1000 64 [] false) =
        some ([.coherenceUnsupported], [.memResp false .denied 0x1000 []], []) ∧
      requested (cacheReq .other 0x1000 64 [] false) =
        some ([.unsupportedRequest], [.memResp false .denied 0x1000 []], []) :=
  ⟨by decide, by decide, by decide, by decide, by decide⟩
/-- V9.10, V9.11: functional accesses of the other tile's registers. -/
theorem test_functional :
    let t := withEp (tile 0) 7 [(.tgtCore, 1), (.remBase, 0xF0000000), (.remSize, 0x480), (.perm, 3)]
    fatalOf 1 (step (sys t [] (.cpu 0 (cacheReq .write 0 8 [6, 0, 0, 0, 0, 0, 0, 0] true)) false)) =
        some .functionalCmdWrite ∧
      (tileOf 1 (step (sys t [] (.cpu 0 (cacheReq .write 0x200 8 [1, 0, 0, 0, 0, 0, 0, 0] true)) false))).map
        (fun u => u.ep 3 .tgtCore) = some 1 := by decide

/-- V16.1: a response no request waits for. -/
theorem test_response_mismatch :
    fatalOf 0 (step (sys (tile 0)
      [{ dst := 0, packet := .resp { kind := .readReq, status := .ok, err := false, data := [], ss := 5 } }]
      (.deliver 0 0) false)) = some .responseMismatch := by decide
/-- The system of V7 in ATOMIC mode: tile 0 reads from core `c` by its endpoint 1, and the NoC fails as `n` says. -/
def atomicRead (c : Nat) (n : Option Nat) : State :=
  { sys (withCmd (withEp (tile 0) 1 [(.tgtCore, c), (.remSize, 0x100), (.perm, 3), (.dataSize, 8)]) 0x0B) [] (.dispatch 0)
      false with
    mode := .atomic, failAfter := n }
/-- V7.17: the response has `err` set; R400: a command to a core that no tile is does not stay in progress. -/
theorem test_transport_fails :
    fatalOf 0 (step (atomicRead 1 (some 0))) = some .transactionError ∧
      fatalOf 0 (step (atomicRead 2 none)) = some .transactionError ∧
      (tileOf 0 (step (atomicRead 1 none))).map (fun t => (t.fatal, t.cmd, t.nocq)) = some (none, .idle, []) := by
  refine ⟨?_, ?_, ?_⟩ <;> decide
/-- V7.14: a request beyond the local memory. -/
theorem test_beyond_memory :
    (memServe (Config.default 0) [] { op := .read, addr := 0xFFFFC, len := 8, data := [], ss := .header 0 .cmd }).2.err = true ∧
      (memServe (Config.default 0) [] { op := .read, addr := 0xFFFF8, len := 8, data := [], ss := .header 0 .cmd }).2.data =
        List.replicate 8 Memory.blank := by decide

/-! ## Witnesses for the hypotheses: encoding, one step, reset -/

theorem sys_all {P : Tile → Prop} {a : Tile} (h0 : P a) (h1 : P (tile 1)) {noc : List Flight} {e : Event} {r : Bool} :
    ∀ t ∈ (sys a noc e r).tiles, P t := by simp [sys, h0, h1]

theorem witness_DecodeOfEncode :
    ((Config.default 0).valid = true ∧ 3 + 8 ≤ (Config.default 0).W ∧ (Instr.send 255).encodable (Config.default 0) = true) ∧
      ({ Config.default 0 with W := 32, epidBits := 29 } : Config).valid = true ∧
      (Instr.wakeupCore (2 ^ 29 - 1)).encodable { Config.default 0 with W := 32, epidBits := 29 } = true := by decide

theorem witness_EncodeOfDecode : 0x7FE < 2 ^ 64 ∧ decode (Config.default 0) 0x7FE = .ok (.wakeupCore 255) :=
  ⟨by decide, rfl⟩

/-- The dispatch of the word `w` at tile 0. -/
def dispatching (w : Nat) : State := sys (withCmd (tile 0) w) [] (.dispatch 0) false

theorem witness_DispatchRejectsBadWords :
    (∀ w, (dispatching w).Due (.dispatch 0) false [] ∧ (dispatching w).tiles[0]? = some (withCmd (tile 0) w)) ∧
      ((withCmd (tile 0) 0x800).reg commandReg).testBit 11 = true ∧
      ((withCmd (tile 0) (2 ^ 63)).reg commandReg).testBit 63 = true ∧
      (∀ b < 64, 11 ≤ b → ((withCmd (tile 0) 7).reg commandReg).testBit b = false) ∧
      (∀ p ∈ Opcode.all, (Config.default 0).opcodeValue.of p ≠ (withCmd (tile 0) 7).reg commandReg % 2 ^ 3) ∧
      ({ Config.default 0 with epidBits := 62 } : Config).W < 3 + 62 :=
  ⟨fun _ => ⟨due rfl .., rfl⟩, by decide, by decide, by decide, by decide, by decide⟩

theorem witness_StepRunsDecodedInstruction :
    ((dispatching 0x0B).raised = none ∧ (dispatching 0x0B).mode = .timed ∧ (withCmd (tile 0) 0x0B).cmd = .scheduled .cpu ∧
      decode (withCmd (tile 0) 0x0B).cfg ((withCmd (tile 0) 0x0B).reg commandReg) = .ok (.read 1)) ∧
    (State.reset.withFetchWord 64 0x0B).mode = .atomic ∧
      (State.reset.withFetchWord 64 0x0B).turns = [{ event := .dispatch 0, refuse := false }] ∧
      (State.reset.withFetchWord 64 0x0B).tiles[0]? = some (withCmd (tile 0) 0x0B) :=
  ⟨⟨rfl, rfl, rfl, rfl⟩, rfl, rfl, rfl⟩

theorem witness_FatalErrorHaltsTheSystem :
    (∃ s', step (dispatching 0x07) = .next s' ∧ s'.raised.isSome = true) ∧
      (∃ s', step (dispatching 0x00) = .next s' ∧ s'.raised.isNone = true) ∧
      ∃ t ∈ (sys { tile 0 with fatal := some .misrouted } [] (.dispatch 0) false).tiles, t.fatal ≠ none :=
  ⟨next_of (fun s => s.raised.isSome) (by decide), next_of (fun s => s.raised.isNone) (by decide),
    { tile 0 with fatal := some .misrouted }, List.mem_cons_self, by decide⟩

/-- Parameters and memories of two tiles. -/
def launchPairs : List (Config × Memory) := [(Config.default 0, [(5, 1)]), (Config.default 1, [])]

theorem test_reset_memories : State.reset.MemoriesCanonical := by
  have : ∀ t ∈ State.reset.tiles, t.mem.wf = true := by decide
  exact this

theorem witness_LaunchState :
    (∀ p ∈ launchPairs, p.1.valid = true ∧ launchPairs.length ≤ 2 ^ p.1.nocCoreBits ∧ p.1.ownCoreId < launchPairs.length) ∧
      launchPairs[0]? = some (Config.default 0, [(5, 1)]) ∧
      ∃ s, State.launch .timed launchPairs = some s ∧ s.tiles[0]? = some (Tile.launch (Config.default 0) [(5, 1)]) :=
  ⟨by decide, rfl, _, rfl, rfl⟩

theorem witness_LaunchMeetsInvariants :
    (∃ s, State.launch .timed launchPairs = some s) ∧ ∀ p ∈ launchPairs, p.2.wf = true := ⟨⟨_, rfl⟩, by decide⟩

/-! ## Witnesses: invariants of every step -/

set_option maxRecDepth 4000 in
theorem tile_fits (k : Nat) (h : k = 0 ∨ k = 1) : (tile k).RegsFit := by
  rcases h with rfl | rfl <;> exact ⟨by decide, by decide⟩

/-- A tile that asked its memory for a header and for four chunks of an inbound job of five. -/
def busyTile : Tile :=
  let job : Job := { dir := .fromNoc, loc := 0, size := 300, data := List.replicate 300 1, owner := .inb }
  let ss : List MemSS :=
    [.transfer 0 .inb 0 false 64, .transfer 0 .inb 1 false 64, .header 3 .cmd, .transfer 0 .inb 2 false 64,
      .transfer 0 .inb 3 false 64]
  { tile 0 with
    cmd := .exec .reply 3 .hdr replySnap
    inb := .busy { kind := .writeReq, src := 1, ss := 0, size := 300, dir := .write }
    xfer := { queue := [], active := some { job := job, issued := 4, completed := 0, inflight := 4, acc := [] } }
    memq := ss
    memIn := ss.map fun m => { op := .read, addr := 0, len := 1, data := [], ss := m } }

theorem busyTile_path : busyTile.MemPathOk where
  params := by decide
  path := by decide
  noJob := fun h => nomatch h
  chunks := fun a h => by cases h; decide
  counts := fun a h => by cases h; decide
  headers := by decide

theorem tile_path (k : Nat) (h : k = 0 ∨ k = 1) : (tile k).MemPathOk := by
  rcases h with rfl | rfl <;>
  exact
    { params := by decide, path := by decide, noJob := fun _ => rfl, chunks := fun a h => (nomatch h),
      counts := fun a h => (nomatch h), headers := by decide }

theorem tile_jobs (k : Nat) (h : k = 0 ∨ k = 1) : (tile k).JobsOk := by
  rcases h with rfl | rfl <;> exact ⟨by decide, by decide, by decide⟩

theorem busyTile_jobs : busyTile.JobsOk := ⟨by decide, by decide, by decide⟩

/-- At reset nothing waits for a retry. -/
theorem fetch_noRetry (w : Nat) : (State.reset.withFetchWord 64 w).NoRetry := by
  intro t ht ch
  have h : t.retry = Retry.empty := by
    simp only [State.withFetchWord, State.reset, State.construct, List.map_cons, List.map_nil] at ht
    rcases List.mem_cons.1 ht with rfl | ht
    · rfl
    · rw [List.mem_singleton.1 ht]
      rfl
  rw [h]
  cases ch <;> rfl

theorem witness_AtomicStepRunsToQuiescence :
    (State.reset.withFetchWord 64 0x0B).mode = .atomic ∧ (State.reset.withFetchWord 64 0x0B).NoRetry ∧
      (tile 0).MemPathOk ∧ (tile 0).JobsOk ∧
      ∃ s', step (State.reset.withFetchWord 64 0x0B) = .next s' ∧ s'.raised.isNone = true :=
  ⟨rfl, fetch_noRetry 0x0B, tile_path 0 (.inl rfl), tile_jobs 0 (.inl rfl), next_of (fun s => s.raised.isNone) (by decide)⟩

/-- A tile whose READ waits for its data. -/
def waitingReader : Tile :=
  { reader with
    cmd := .exec .read 1 .waitData (Snap.ofEndpoint reader 1)
    nextId := 1
    nocq := [{ id := 0, kind := .readReq, ep := 1, requester := .cmd, origAddr := 0, size := 8, dir := .read }] }

theorem waitingReader_ok : waitingReader.RequestsOk := ⟨by decide, by decide, by decide⟩

theorem tile_requests (k : Nat) (h : k = 0 ∨ k = 1) : (tile k).RequestsOk := by
  rcases h with rfl | rfl <;> exact ⟨by decide, by decide, by decide⟩

theorem witness_StepKeepsMemoriesCanonical :
    (sys { tile 0 with mem := [(5, 1)] } [] (.cpu 0 (.localWrite 5 [0])) false).MemoriesCanonical ∧
      ∃ s', step (sys { tile 0 with mem := [(5, 1)] } [] (.cpu 0 (.localWrite 5 [0])) false) = .next s' ∧
        s'.raised.isNone = true :=
  ⟨sys_all (P := fun t => t.mem.wf = true) (by decide) (by decide), next_of (fun s => s.raised.isNone) (by decide)⟩

theorem witness_StepKeepsRegistersFit :
    (∀ t ∈ (sys (tile 0) [] (access 0xF0000080 8 true (2 ^ 64)) false).tiles, t.RegsFit) ∧
      ∃ s', step (sys (tile 0) [] (access 0xF0000080 8 true (2 ^ 64)) false) = .next s' ∧ s'.raised.isNone = true :=
  ⟨sys_all (tile_fits 0 (.inl rfl)) (tile_fits 1 (.inr rfl)), next_of (fun s => s.raised.isNone) (by decide)⟩

theorem witness_StepKeepsParameters : ∃ s', step (dispatching 0x05) = .next s' ∧ s'.raised.isNone = true :=
  next_of (fun s => s.raised.isNone) (by decide)

theorem witness_AtomicStepKeepsRetryEmpty :
    (State.reset.withFetchWord 64 0x03).mode = .atomic ∧ (State.reset.withFetchWord 64 0x03).NoRetry ∧
      ∃ s', step (State.reset.withFetchWord 64 0x03) = .next s' ∧ s'.raised.isNone = true :=
  ⟨rfl, fetch_noRetry 0x03, next_of (fun s => s.raised.isNone) (by decide)⟩

theorem witness_StepKeepsRequestsInOrder :
    (∀ t ∈ (sys waitingReader [] (access 0xF0000080 8 false 0) false).tiles, t.RequestsOk) ∧
      (∀ t ∈ (sys busyTile [] (.memAnswer 0) false).tiles, t.JobsOk) ∧
      (∃ s', step (sys waitingReader [] (access 0xF0000080 8 false 0) false) = .next s' ∧ s'.raised.isNone = true) ∧
      ∃ s', step (sys busyTile [] (.memAnswer 0) false) = .next s' ∧ s'.raised.isNone = true :=
  ⟨sys_all waitingReader_ok (tile_requests 1 (.inr rfl)), sys_all busyTile_jobs (tile_jobs 1 (.inr rfl)),
    next_of (fun s => s.raised.isNone) (by decide), next_of (fun s => s.raised.isNone) (by decide)⟩

theorem witness_StepKeepsMemoryPathInOrder :
    (∀ t ∈ (sys busyTile [] (.memAnswer 0) false).tiles, t.MemPathOk) ∧
      ∃ s', step (sys busyTile [] (.memAnswer 0) false) = .next s' ∧ s'.raised.isNone = true :=
  ⟨sys_all busyTile_path (tile_path 1 (.inr rfl)), next_of (fun s => s.raised.isNone) (by decide)⟩

/-- The bounds are reached. -/
theorem witness_MemoryPathBounds : busyTile.MemPathOk ∧ busyTile.memq.length = busyTile.cfg.bufCount + 1 :=
  ⟨busyTile_path, by decide⟩

/-- A ring whose last free slot is being filled. -/
def landingTile : Tile :=
  { ring 3 3 with inb := .busy { kind := .message, src := 1, ss := 0, size := 20, dir := .write, ep := 3, slot := 3, slots := 4 } }

set_option maxRecDepth 4000 in
theorem landingTile_ring : landingTile.RingOk 3 4 where
  fits := ⟨by decide, by decide⟩
  endpoint := by decide
  slots := by decide
  pos := by decide
  count := by decide
  writePtr := by decide
  landing := fun r h _ _ => by cases h; decide

theorem witness_TimedStepKeepsRing :
    (sys landingTile [] (access 0xF0000200 8 true 9) false).Due (access 0xF0000200 8 true 9) false [] ∧
      (∀ f ∈ ringFields,
        (sys landingTile [] (access 0xF0000200 8 true 9) false).softwareStores (access 0xF0000200 8 true 9) ≠
          some (0, epReg 3 f)) ∧
      landingTile.RingOk 3 4 ∧
      ∃ s', step (sys landingTile [] (access 0xF0000200 8 true 9) false) = .next s' ∧ s'.raised.isNone = true :=
  ⟨due rfl .., by decide, landingTile_ring, next_of (fun s => s.raised.isNone) (by decide)⟩

theorem witness_TimedStepIsLocal :
    (dispatching 0x05).Due (.dispatch 0) false [] ∧
      ((dispatching 0x05).offered (.dispatch 0)).any CpuReq.isFunctional = false ∧ (Event.dispatch 0).tile ≠ some 1 ∧
      ∃ s', step (dispatching 0x05) = .next s' ∧ s'.raised.isNone = true :=
  ⟨due rfl .., rfl, by decide, next_of (fun s => s.raised.isNone) (by decide)⟩

theorem witness_StepExtendsLog : ∃ s', step (dispatching 0x05) = .next s' ∧ s'.tiles.any (fun t => !t.log.isEmpty) = true :=
  next_of (fun s => s.tiles.any fun t => !t.log.isEmpty) (by decide)

theorem witness_TimedDenySuspend :
    (sys (tile 0) [] (access 0xF0000270 8 true 1) false).Due (access 0xF0000270 8 true 1) false [] ∧
      ∃ s' t', step (sys (tile 0) [] (access 0xF0000270 8 true 1) false) = .next s' ∧ s'.tiles[0]? = some t' ∧
        t'.denySuspend = true :=
  ⟨due rfl .., next_tile 0 (fun t => t.denySuspend) (by decide)⟩

theorem witness_TimedSuspension :
    ((sys (tile 0) [] (.suspend 0) false).Due (.suspend 0) false [] ∧
      ∃ s' t', step (sys (tile 0) [] (.suspend 0) false) = .next s' ∧ s'.tiles[0]? = some t' ∧ t'.suspended = true) ∧
    (∃ s' t', step (sys (withCmd { tile 0 with suspended := true } 0x06) [] (.dispatch 0) false) = .next s' ∧
      s'.tiles[0]? = some t' ∧ (!t'.suspended) = true) ∧
    ∃ s', step (sys { tile 0 with suspended := true, port := [.localRead 0 1] } [] (.cpuAgain 0 0) false) = .next s' ∧
      s'.raised.isNone = true :=
  ⟨⟨due rfl .., next_tile 0 (fun t => t.suspended) (by decide)⟩, next_tile 0 (fun t => !t.suspended) (by decide),
    next_of (fun s => s.raised.isNone) (by decide)⟩

theorem witness_TimedBusyCommandWord :
    ((dispatching 0x08).Due (.dispatch 0) false [] ∧ (withCmd (tile 0) 0x08).cmd ≠ .idle) ∧
      (∃ s' t', step (dispatching 0x08) = .next s' ∧ s'.tiles[0]? = some t' ∧ decide (t'.cmd = .idle) = true) ∧
      (∃ s' t', step (dispatching 0x05) = .next s' ∧ s'.tiles[0]? = some t' ∧ decide (t'.cmd = .idle) = true) ∧
      ∃ s' t', step (dispatching 0x01) = .next s' ∧ s'.tiles[0]? = some t' ∧ decide (t'.cmd ≠ .idle) = true :=
  ⟨⟨due rfl .., by decide⟩, next_tile 0 (fun t => decide (t.cmd = .idle)) (by decide),
    next_tile 0 (fun t => decide (t.cmd = .idle)) (by decide), next_tile 0 (fun t => decide (t.cmd ≠ .idle)) (by decide)⟩

/-! ## Witnesses: the seven instructions -/

/-- The tile that runs the instruction in the witnesses below. -/
theorem witness_tile (a : Tile) (noc : List Flight) (e : Event) (r : Bool) :
    (sys a noc e r).tiles[(sys a noc e r).cur]? = some a ∧ (sys a noc e r).tiles[0]? = some a := ⟨rfl, rfl⟩

theorem witness_ExecIdle : (dispatching 0x38).tiles[(dispatching 0x38).cur]? = some (withCmd (tile 0) 0x38) ∧
    7 < (withCmd (tile 0) 0x38).cfg.numEndpoints := ⟨rfl, by decide⟩

theorem fits_withEp {t : Tile} (h : t.RegsFit) (e : Nat) (fs : List (Field × Nat)) : (withEp t e fs).RegsFit := by
  induction fs generalizing t with
  | nil => exact h
  | cons p fs ih =>
    refine ih ⟨by simpa [Tile.setEp, Tile.setReg] using h.length, fun v hv => ?_⟩
    rcases List.mem_or_eq_of_mem_set hv with hv | rfl
    · exact h.bound v hv
    · exact Nat.mod_lt _ (Nat.two_pow_pos _)

theorem witness_ExecIncReadPtr :
    (∀ fs, (sys (withEp (tile 0) 7 fs) [] (.dispatch 0) false).tiles[0]? = some (withEp (tile 0) 7 fs) ∧
      (withEp (tile 0) 7 fs).RegsFit) ∧
      (tile 0).ep 7 .bufMsgCnt = 0 ∧ (withEp (tile 0) 7 [(.bufMsgCnt, 1)]).ep 7 .bufMsgCnt ≠ 0 ∧
      (withEp (tile 0) 7 [(.bufMsgCnt, 1)]).ep 7 .bufSlots = 0 ∧
      (withEp (tile 0) 7 [(.bufMsgCnt, 1), (.bufSlots, 1)]).ep 7 .bufSlots ≠ 0 :=
  ⟨fun fs => ⟨rfl, fits_withEp (tile_fits 0 (.inl rfl)) 7 fs⟩, by decide, by decide, by decide, by decide⟩

theorem witness_ExecWakeupCore :
    (sys { tile 0 with suspended := true } [] (.dispatch 0) false).tiles[0]? = some { tile 0 with suspended := true } ∧
      7 < (tile 0).cfg.numEndpoints := ⟨rfl, by decide⟩

theorem witness_ExecSend :
    let t := withEp sender 2 [(.dataSize, 1008), (.replyEp, 255), (.tgtCore, 255), (.tgtEp, 255)]
    1024 < 16 + (withEp sender 2 [(.dataSize, 1009)]).ep 2 .dataSize ∧
      16 + t.ep 2 .dataSize ≤ t.cfg.maxNocPacketSize ∧
      ¬(withEp t 2 [(.replyEp, 256)]).ep 2 .replyEp < 2 ^ 8 ∧
      (t.ep 2 .dataSize < 2 ^ 32 ∧ t.cfg.ownCoreId < 2 ^ 16 ∧ 2 < 2 ^ 8 ∧ t.ep 2 .replyEp < 2 ^ 8) ∧
      2 ^ t.cfg.nocCoreBits ≤ (withEp t 2 [(.tgtCore, 256)]).ep 2 .tgtCore ∧
      2 ^ t.cfg.nocEpBits ≤ (withEp t 2 [(.tgtEp, 256)]).ep 2 .tgtEp ∧
      t.ep 2 .tgtCore < 2 ^ t.cfg.nocCoreBits ∧ t.ep 2 .tgtEp < 2 ^ t.cfg.nocEpBits := by decide

theorem witness_ExecReply :
    replier.retry.memReq = none ∧ (tile 0).ep 3 .bufMsgCnt = 0 ∧ replier.ep 3 .bufMsgCnt ≠ 0 ∧
      (withEp replier 3 [(.bufSlots, 0)]).ep 3 .bufSlots = 0 ∧ replier.ep 3 .bufSlots ≠ 0 ∧
      1024 < 16 + (withEp replier 3 [(.dataSize, 1009)]).ep 3 .dataSize ∧
      16 + (withEp replier 3 [(.dataSize, 1008)]).ep 3 .dataSize ≤ replier.cfg.maxNocPacketSize ∧
      State.refuses (sys replier [] (.dispatch 0) false) = false ∧
      State.refuses { sys replier [] (.dispatch 0) true with refuse := true } = true := by decide

theorem witness_ExecRead :
    let c := Config.default 0
    let k := fun t : Tile => c.check .read (t.ep 1 .reqOffset) (t.ep 1 .dataSize) (t.ep 1 .remSize) (t.ep 1 .perm)
    let a := fun t : Tile => c.nocTarget (t.ep 1 .tgtCore) (t.ep 1 .remBase) (t.ep 1 .reqOffset) (t.ep 1 .dataSize)
    let top := withEp reader 1 [(.remSize, 1024), (.reqOffset, 0), (.dataSize, 1024)]
    reader.retry.nocReq = none ∧ c.valid = true ∧ k (withEp reader 1 [(.perm, 2)]) = some .noReadPerm ∧
      (k top = none ∧ top.ep 1 .dataSize ≤ 1024 ∧ a top = some 0x0100000000002000) ∧
      (k (withEp top 1 [(.remSize, 1025), (.dataSize, 1025)]) = none) ∧
      k (withEp top 1 [(.tgtCore, 256)]) = none ∧ a (withEp top 1 [(.tgtCore, 256)]) = none := by decide

theorem witness_ExecWrite :
    let c := Config.default 0
    let k := fun t : Tile => c.check .write (t.ep 1 .reqOffset) (t.ep 1 .dataSize) (t.ep 1 .remSize) (t.ep 1 .perm)
    let a := fun t : Tile => c.nocTarget (t.ep 1 .tgtCore) (t.ep 1 .remBase) (t.ep 1 .reqOffset) (t.ep 1 .dataSize)
    let top := withEp reader 1 [(.remSize, 1024), (.reqOffset, 0), (.dataSize, 1024)]
    k (withEp reader 1 [(.perm, 1)]) = some .noWritePerm ∧
      (k top = none ∧ top.ep 1 .dataSize ≤ 1024 ∧ a top = some 0x0100000000002000) ∧
      (k (withEp top 1 [(.remSize, 1025), (.dataSize, 1025)]) = none) ∧
      k (withEp top 1 [(.tgtCore, 256)]) = none ∧ a (withEp top 1 [(.tgtCore, 256)]) = none := by decide

theorem witness_ExecEndpointOutOfRange :
    (tile 0).cfg.numEndpoints ≤ (Instr.idle 8).ep ∧ (tile 0).allFree (dispatchChannels (Instr.read 8).opcode) = true ∧
      (tile 0).allFree (dispatchChannels (Instr.reply 255).opcode) = true := by decide

theorem witness_SynchronousFrame :
    (Instr.idle 0).opcode = .idle ∧ (Instr.incReadPtr 0).opcode = .incReadPtr ∧ (Instr.wakeupCore 0).opcode = .wakeupCore ∧
      ∀ i ∈ [Instr.idle 0, .incReadPtr 0, .wakeupCore 0, .idle 8],
        ∃ s', exec i (dispatching 0) = .next s' ∧ decide (s'.tiles.length = 2) = true :=
  ⟨rfl, rfl, rfl, fun i hi =>
    next_of (fun s => decide (s.tiles.length = 2)) (by revert i; decide)⟩

theorem witness_TransmissionFrame :
    (Instr.send 0).opcode = .send ∧ (Instr.reply 0).opcode = .reply ∧ (Instr.read 0).opcode = .read ∧
      (Instr.write 0).opcode = .write ∧
      ∀ i ∈ [Instr.send 0, .reply 0, .read 0, .write 0, .read 7, .write 7],
        ∃ s', exec i (dispatching 0) = .next s' ∧ decide (s'.tiles.length = 2) = true :=
  ⟨rfl, rfl, rfl, rfl, fun i hi =>
    next_of (fun s => decide (s.tiles.length = 2)) (by revert i; decide)⟩

/-! ## Witnesses: register accesses and channels -/

/-- Both ways in which a running CPU offers a request: for the first time, and again from its port. -/
theorem offers {t : Tile} (hf : t.fatal = none) (hr : t.cpuRuns = true) (q : CpuReq) (r : Bool) :
    (sys t [] (.cpu 0 q) r).CpuOffers 0 q r [] t ∧
      (sys { t with port := [q] } [] (.cpuAgain 0 0) r).CpuOffers 0 q r [] { t with port := [] } :=
  ⟨⟨hr, .inl ⟨due hf .., rfl⟩⟩, hr, .inr ⟨0, { t with port := [q] }, due (a := { t with port := [q] }) hf .., rfl, rfl, rfl⟩⟩

theorem witness_CpuReadsRegister :
    (∀ q r, (sys (tile 0) [] (.cpu 0 q) r).CpuOffers 0 q r [] (tile 0) ∧
      (sys { tile 0 with port := [q] } [] (.cpuAgain 0 0) r).CpuOffers 0 q r [] (tile 0)) ∧
      (tile 0).cfg.valid = true ∧ (tile 0).retry.cpuResp = none ∧
      ∀ i ∈ [0, 16, 142], i < 16 * ((tile 0).cfg.numEndpoints + 1) ∧ (i = 0 ∨ 16 ≤ i ∧ i % 16 ≠ 15) :=
  ⟨offers rfl rfl, by decide, by decide, by decide⟩

theorem witness_CpuWritesRegister :
    (∀ q r, (sys (tile 0) [] (.cpu 0 q) r).CpuOffers 0 q r [] (tile 0) ∧
      (sys { tile 0 with port := [q] } [] (.cpuAgain 0 0) r).CpuOffers 0 q r [] (tile 0)) ∧
      (tile 0).cfg.valid = true ∧ (tile 0).retry.cpuResp = none ∧
      ∀ i ∈ [16, 142], i < 16 * ((tile 0).cfg.numEndpoints + 1) ∧ 16 ≤ i ∧ i % 16 ≠ 15 :=
  ⟨offers rfl rfl, by decide, by decide, by decide⟩

theorem witness_CpuWritesCommand :
    (∀ w q r, (sys (withCmd (tile 0) w) [] (.cpu 0 q) r).CpuOffers 0 q r [] (withCmd (tile 0) w) ∧
      (sys { withCmd (tile 0) w with port := [q] } [] (.cpuAgain 0 0) r).CpuOffers 0 q r [] (withCmd (tile 0) w)) ∧
      (∀ q r, (sys (tile 0) [] (.cpu 0 q) r).CpuOffers 0 q r [] (tile 0)) ∧
      ((tile 0).cfg.valid = true ∧ (tile 0).retry.cpuResp = none ∧ (tile 0).cmd = .idle) ∧
      (withCmd (tile 0) 0x11).retry.cpuResp = none ∧ (withCmd (tile 0) 0x11).cmd ≠ .idle :=
  ⟨fun _ => offers rfl rfl, fun q r => (offers rfl rfl q r).1, by decide, by decide, by decide⟩

/-- The tile at reset with EXTERNAL_ERRORS_AS_DENIAL. -/
def lenient : Tile := { tile 0 with cfg := { Config.default 0 with externalErrorsAsDenial := true } }

theorem witness_RegisterFormErrors :
    (∀ q r, (sys (tile 0) [] (.cpu 0 q) r).CpuOffers 0 q r [] (tile 0)) ∧
      (∀ f : Flight, (sys (tile 0) [f] (.deliver 0 0) false).Due (.deliver 0 0) false []) ∧
      (∀ f : Flight, (sys lenient [f] (.deliver 0 0) false).Due (.deliver 0 0) false []) ∧
      ((tile 0).retry.cpuResp = none ∧ (tile 0).inb = .idle ∧ (tile 0).retry.nocResp = none ∧
        (tile 0).cfg.nocCore 0xF0000478 = (tile 0).cfg.ownCoreId ∧ (tile 0).cfg.nocOff 0xF0000478 = 0xF0000478 ∧
        (tile 0).cfg.externalErrorsAsDenial = false ∧ lenient.cfg.externalErrorsAsDenial = true) ∧
      (∀ a ∈ [0xF0000001, 0xF0000104, 0xF000047F],
        (tile 0).cfg.regBase ≤ a ∧ a < (tile 0).cfg.regBase + 16 * ((tile 0).cfg.numEndpoints + 1) * (tile 0).cfg.WB ∧
          (a - (tile 0).cfg.regBase) % (tile 0).cfg.WB ≠ 0) ∧ 4 ≠ (tile 0).cfg.WB ∧
      ∀ i ∈ [1, 15, 31, 143],
        (tile 0).cfg.regBase + i * (tile 0).cfg.WB <
            (tile 0).cfg.regBase + 16 * ((tile 0).cfg.numEndpoints + 1) * (tile 0).cfg.WB ∧
          (1 ≤ i ∧ i ≤ 15 ∨ 16 ≤ i ∧ i % 16 = 15) :=
  ⟨fun q r => (offers rfl rfl q r).1, fun _ => due rfl .., fun _ => due rfl .., by decide, by decide, by decide, by decide⟩

theorem witness_NocPeerAccessesRegister :
    (∀ (f : Flight) (w : Nat), (sys (withCmd (tile 0) w) [f] (.deliver 0 0) false).Due (.deliver 0 0) false []) ∧
      (∀ f : Flight, (sys (tile 0) [f] (.deliver 0 0) false).Due (.deliver 0 0) false []) ∧
      ((tile 0).inb = .idle ∧ (tile 0).retry.nocResp = none ∧ (tile 0).cfg.valid = true ∧ (tile 0).cmd = .idle ∧
        (withCmd (tile 0) 0).cmd ≠ .idle ∧ (tile 0).cfg.externalErrorsAsDenial = false ∧
        (withCmd lenient 0).cmd ≠ .idle ∧ (withCmd lenient 0).cfg.externalErrorsAsDenial = true) ∧
      (∀ j ∈ [0, 16, 142],
        (tile 0).cfg.nocCore (BitVec.ofNat 64 (0xF0000000 + j * 8)) = (tile 0).cfg.ownCoreId ∧
          (tile 0).cfg.nocOff (BitVec.ofNat 64 (0xF0000000 + j * 8)) = (tile 0).cfg.regBase + j * (tile 0).cfg.WB ∧
          j < 16 * ((tile 0).cfg.numEndpoints + 1) ∧ (j = 0 ∨ 16 ≤ j ∧ j % 16 ≠ 15)) ∧
      (∀ k ∈ [NocKind.readReq, .writeReq, .cacheMemReq], k ≠ .message ∧ k ≠ .cacheMemReqFunc) ∧
      (List.replicate 8 (1 : Byte)).length = (tile 0).cfg.WB ∧ (List.replicate 7 (1 : Byte)).length ≠ (tile 0).cfg.WB :=
  ⟨fun _ _ => due rfl .., fun _ => due rfl .., by decide, by decide, by decide, by decide, by decide⟩

theorem witness_OfferIsTakenOrKept :
    State.reset.mode = .atomic ∧ State.refuses { sys (tile 0) [] (.issue 0) true with refuse := true } = true ∧
      State.refuses (sys (tile 0) [] (.issue 0) false) = false := by decide

/-- A memory request that was refused. -/
def refusedReq : MemReq := { op := .read, addr := 0, len := 8, data := [], ss := .header 0 .cmd }
/-- Tile 0 with an item waiting on each channel. -/
def blocked (t : Tile) : Tile :=
  { t with
    retry :=
      { nocReq := some { kind := .message, addr := 0, size := 16, data := [], src := 0, ss := 0, dir := .write }
        nocResp := some (1, { kind := .message, status := .ok, err := false, data := [], ss := 0 })
        memReq := some refusedReq
        cpuResp := some .regAck } }

theorem witness_RetryOffersTheWaitingItem :
    (∀ ch r, (sys (tile 0) [] (.retryReady 0 ch) r).Due (.retryReady 0 ch) r []) ∧
      (∀ ch r, (sys (blocked (tile 0)) [] (.retryReady 0 ch) r).Due (.retryReady 0 ch) r []) ∧
      ∀ ch, (tile 0).retry.slot ch = none ∧ ((blocked (tile 0)).retry.slot ch).isSome = true :=
  ⟨fun _ _ => due rfl .., fun _ _ => due rfl .., fun ch => by cases ch <;> decide⟩

/-- A tile whose last chunk is answered: the job `j`, on behalf of the command `c` and the service `b`. -/
def lastChunk (t : Tile) (c : CmdState) (b : InbState) (j : Job) (err : Bool) (data : List Byte) : Tile :=
  { t with
    cmd := c
    inb := b
    xfer := { queue := [], active := some { job := j, issued := 1, completed := 0, inflight := 1, acc := [] } }
    memq := [.transfer 1 j.owner 0 true j.size]
    memOut := [{ err := err, data := data, ss := .transfer 1 j.owner 0 true j.size }] }
/-- An 8-byte job. -/
def job8 (d : XferDir) (o : Owner) : Job := { dir := d, loc := 0x300, size := 8, data := List.replicate 8 1, owner := o }
/-- An inbound request of a kind and a direction in service. -/
def serving (k : NocKind) (d : Dir) : InbState :=
  .busy { kind := k, src := 1, ss := 9, size := 8, dir := d, ep := 3, slot := 3, slots := 4 }
/-- The snapshot of the example of R252. -/
def snap1 : Snap := Snap.ofEndpoint reader 1

theorem witness_BlockedStepsWait :
    (∀ e t, (sys (blocked t) [] e false).Due e false [] ∨ t.fatal ≠ none) ∧
      ((blocked (tile 0)).cpuRuns = true ∧ (blocked (tile 0)).retry.cpuResp ≠ none ∧ (blocked (tile 0)).retry.nocReq ≠ none ∧
        (blocked (tile 0)).retry.memReq ≠ none ∧ (blocked (tile 0)).retry.nocResp ≠ none) ∧
      ((blocked (withCmd (tile 0) 0x0B)).hasScheduled = true ∧
        decode (tile 0).cfg ((blocked (withCmd (tile 0) 0x0B)).reg commandReg) = .ok (.read 1)) ∧
      ((blocked (withCmd (tile 0) 0x1A)).hasScheduled = true ∧
        decode (tile 0).cfg ((blocked (withCmd (tile 0) 0x1A)).reg commandReg) = .ok (.reply 3)) ∧
      ((blocked (lastChunk (tile 0) (.exec .write 1 .xferOut snap1) .idle (job8 .toNoc .cmd) false [])).memq =
        [.transfer 1 .cmd 0 true 8]) ∧
      ((blocked (lastChunk (tile 0) .idle (serving .readReq .read) (job8 .toNoc .inb) false [])).memq =
        [.transfer 1 .inb 0 true 8]) ∧
      ([({ id := 5, kind := .cacheMemReq, ep := 7, requester := .cpu, origAddr := 0, size := 8, dir := .read } : NocSS)].find?
        (fun x => x.id == 5)).map NocSS.requester = some .cpu :=
  ⟨fun e t => by
    cases h : t.fatal with
    | none => exact .inl (due (by simpa [blocked] using h) ..)
    | some c => exact .inr (by simp), by decide, ⟨rfl, rfl⟩, ⟨rfl, rfl⟩, rfl, rfl, rfl⟩

/-! ## Witnesses: inbound traffic -/

/-- The facts of a packet that the hypotheses about messages speak of. -/
def messageFacts (f : Flight) : Option (Bool × Bool × Bool × Bool) :=
  match f.packet with
  | .req q =>
    some (decide ((tile 0).cfg.nocCore q.addr = (tile 0).cfg.ownCoreId), decide (q.data.length = q.size),
      decide (16 ≤ q.size), decide (bytesToNat (q.data.take 4) = q.size - 16))
  | .resp _ => none

theorem witness_InboundMessage :
    (∀ wr cnt f, (sys (ring wr cnt) [f] (.deliver 0 0) false).Due (.deliver 0 0) false []) ∧
      ((ring 0 0).inb = .idle ∧ (ring 0 0).retry.nocResp = none ∧ (ring 0 0).cfg.externalErrorsAsDenial = false) ∧
      messageFacts (message 3 64 48) = some (true, true, true, true) ∧
      messageFacts (message 3 65 49) = some (true, true, true, true) ∧
      messageFacts (message 3 16 0) = some (true, true, true, true) ∧
      messageFacts (message 3 15 0) = some (true, true, false, true) ∧
      messageFacts (message 3 20 5) = some (true, true, true, false) ∧
      messageFacts (flight .message 0x0103000000000000 16 [] .write) = some (false, false, true, true) ∧
      ((ring 0 0).ep 3 .bufSlotSize < 65 ∧ 64 ≤ (ring 0 0).ep 3 .bufSlotSize ∧ (ring 1 4).ep 3 .bufSlots ≤ (ring 1 4).ep 3 .bufMsgCnt ∧
        (ring 0 3).ep 3 .bufMsgCnt < (ring 0 3).ep 3 .bufSlots ∧ (ring 0 0).cfg.numEndpoints ≤ 8) :=
  ⟨fun _ _ _ => due rfl .., by decide, by decide, by decide, by decide, by decide, by decide, by decide, by decide⟩

set_option maxRecDepth 4000 in
theorem witness_MessageFinalised :
    let t := lastChunk (ring 3 3) .idle (serving .message .write) (job8 .fromNoc .inb) false []
    (sys t [] (.memResponse 0) false).Due (.memResponse 0) false [] ∧ t.retry.nocResp = none ∧ t.RegsFit ∧
      t.inb = .busy { kind := .message, src := 1, ss := 9, size := 8, dir := .write, ep := 3, slot := 3, slots := 4 } ∧
      t.memOut = [{ err := false, data := [], ss := .transfer 1 .inb 0 true 8 }] ∧ t.memq = [.transfer 1 .inb 0 true 8] ∧
      3 < t.cfg.numEndpoints ∧ 4 ≤ 2 ^ t.cfg.W :=
  ⟨due rfl .., rfl, ⟨by decide, by decide⟩, rfl, rfl, rfl, by decide, by decide⟩

theorem witness_InboundMemoryRequest :
    (∀ f, (sys window [f] (.deliver 0 0) false).Due (.deliver 0 0) false []) ∧
      (window.inb = .idle ∧ window.retry.nocResp = none ∧ window.cfg.inboundWindowEp = 7 ∧
        window.cfg.externalErrorsAsDenial = false ∧ lenient.cfg.externalErrorsAsDenial = true) ∧
      (∀ f, (sys lenient [f] (.deliver 0 0) false).Due (.deliver 0 0) false []) ∧
      window.cfg.nocCore 0x0100000000001800 ≠ window.cfg.ownCoreId ∧
      (∀ off ∈ [0xFFF, 0x1000, 0x1FF8, 0x1FF9, 0x2000, 0xEFFFFFFF, 0xF0000480],
        window.cfg.nocCore (BitVec.ofNat 64 off) = window.cfg.ownCoreId ∧ window.cfg.nocOff (BitVec.ofNat 64 off) = off ∧
          (off < window.cfg.regBase ∨
            window.cfg.regBase + 16 * (window.cfg.numEndpoints + 1) * window.cfg.WB ≤ off)) ∧
      ((window.ep 7 .perm).testBit 0 = true ∧ (window.ep 7 .perm).testBit 1 = false ∧
        ((withEp window 7 [(.perm, 2)]).ep 7 .perm).testBit 0 = false ∧
        ((withEp window 7 [(.perm, 2)]).ep 7 .perm).testBit 1 = true) ∧
      (0xFFF < window.ep 7 .remBase ∧ window.ep 7 .remBase ≤ 0x1000 ∧ 2 ^ 64 ≤ 0x1000 - window.ep 7 .remBase + 2 ^ 64 ∧
        window.ep 7 .remSize < 0x1FF9 - window.ep 7 .remBase + 8 ∧ 0x1FF8 - window.ep 7 .remBase + 8 ≤ window.ep 7 .remSize ∧
        0x2000 - window.ep 7 .remBase + 0 ≤ window.ep 7 .remSize) :=
  ⟨fun _ => due rfl .., by decide, fun _ => due rfl .., by decide, by decide, by decide, by decide⟩

theorem witness_InboundMemoryAnswered :
    ∀ p ∈ [(NocKind.readReq, Dir.read, XferDir.toNoc), (.cacheMemReq, .write, .fromNoc)],
      let t := lastChunk (tile 0) .idle (serving p.1 p.2.1) (job8 p.2.2 .inb) false []
      (sys t [] (.memResponse 0) false).Due (.memResponse 0) false [] ∧ p.1 ≠ .message ∧ t.retry.nocResp = none ∧
        (p.2.1 = .read → (job8 p.2.2 .inb).dir = .toNoc) ∧ t.memq = [.transfer 1 .inb 0 true 8] :=
  fun p hp => ⟨due rfl .., by revert p; decide, rfl, by revert p; decide, rfl⟩

/-! ## Witnesses: the local memory and the transfer unit -/

theorem witness_LocalMemoryAnswers :
    (∀ q, (sys { tile 0 with memIn := [q] } [] (.memAnswer 0) false).Due (.memAnswer 0) false []) ∧
      (tile 0).mem.wf = true ∧ (refusedReq.op = .read ∧ refusedReq.addr + refusedReq.len ≤ (tile 0).cfg.localMemSize) ∧
      (let q : MemReq := { op := .write, addr := 0xFFFF8, len := 8, data := List.replicate 8 1, ss := .header 0 .cmd }
       q.data.length = q.len ∧ q.addr + q.len ≤ (tile 0).cfg.localMemSize) ∧
      (tile 0).cfg.localMemSize < 0xFFFF9 + 8 :=
  ⟨fun _ => due rfl .., by decide, by decide, by decide, by decide⟩

theorem witness_Activation :
    (∀ c b j, (sys { tile 0 with cmd := c, inb := b, xfer := { queue := [j], active := none } } [] (.activate 0) false).Due
        (.activate 0) false []) ∧
      (sys busyTile [] (.activate 0) false).Due (.activate 0) false [] ∧ busyTile.xfer.active ≠ none ∧
      (tile 0).xfer.queue = [] ∧ (job8 .toNoc .cmd).size ≠ 0 ∧ ({ job8 .fromNoc .cmd with size := 0 } : Job).size = 0 ∧
      (serving .readReq .read) ≠ .idle ∧ NocKind.readReq ≠ .message ∧ (tile 0).retry.nocResp = none ∧
      (tile 0).retry.nocReq = none ∧ (blocked (tile 0)).retry.nocReq ≠ none ∧ (blocked (tile 0)).retry.nocResp ≠ none ∧
      ∀ op ∈ [AsyncOp.send, .reply, .write], op ≠ .read :=
  ⟨fun _ _ _ => due rfl .., due rfl .., by decide, by decide, by decide, by decide, by decide, by decide, by decide, by decide,
    by decide, by decide, by decide⟩

theorem witness_ChunkIssue :
    ((sys (tile 0) [] (.issue 0) false).Due (.issue 0) false [] ∧ (tile 0).xfer.active = none) ∧
      ((sys busyTile [] (.issue 0) false).Due (.issue 0) false [] ∧ busyTile.xfer.active.map ActiveJob.inflight = some 4 ∧
        busyTile.cfg.bufCount = 4) ∧
      (let t : Tile :=
        { tile 0 with
          cmd := .exec .write 1 .xferOut snap1
          xfer := { queue := [], active := some { job := { job8 .toNoc .cmd with size := 65 }, issued := 1, completed := 0, inflight := 1, acc := [] } } }
       (sys t [] (.issue 0) true).Due (.issue 0) true [] ∧ t.retry.memReq = none ∧ 1 < (65 + 64 - 1) / 64 ∧ 1 < t.cfg.bufCount) ∧
      ((65 + 64 - 1) / 64 ≤ 2 ∧ 0 < (tile 0).cfg.bufSize) :=
  ⟨⟨due rfl .., rfl⟩, ⟨due rfl .., rfl, rfl⟩, ⟨due rfl .., rfl, by decide, by decide⟩, by decide⟩

theorem witness_ChunkGeometry :
    (Config.default 0).valid = true ∧ (List.replicate 65 (1 : Byte)).length = 65 ∧
      0 < (Config.default 0).chunkCount 65 ∧ 1 < (Config.default 0).chunkCount 65 ∧
      (Config.default 0).chunkLast 65 0 = false ∧ (Config.default 0).chunkLast 65 1 = true := by decide

theorem witness_ChunkResponse :
    (∀ c b j e d, (sys (lastChunk (tile 0) c b j e d) [] (.memResponse 0) false).Due (.memResponse 0) false []) ∧
      (∀ d, (sys (headerTile d) [] (.memResponse 0) false).Due (.memResponse 0) false []) ∧
      (headerTile []).cmd.fetchesHeader = true ∧
      (lastChunk (tile 0) (.exec .write 1 .xferOut snap1) .idle (job8 .toNoc .cmd) true []).retry = Retry.empty ∧
      (lastChunk (tile 0) (.exec .read 1 .xferIn snap1) .idle (job8 .fromNoc .cmd) true []).cmd = .exec .read 1 .xferIn snap1 ∧
      (lastChunk (tile 0) .idle (serving .readReq .read) (job8 .toNoc .inb) true []).inb ≠ .idle ∧
      (let t := { lastChunk (tile 0) .idle (serving .readReq .read) (job8 .toNoc .inb) false [] with
                  memq := [.transfer 0 .inb 0 false 64] }
       (sys t [] (.memResponse 0) false).Due (.memResponse 0) false [] ∧ t.xfer.active ≠ none) :=
  ⟨fun _ _ _ _ _ => due rfl .., fun _ => due rfl .., rfl, rfl, rfl, by decide, due rfl .., by decide⟩

theorem witness_CommandJobCompletes :
    (∀ c j, (sys (lastChunk (tile 0) c .idle j false []) [] (.memResponse 0) false).Due (.memResponse 0) false []) ∧
      (∀ op ∈ [AsyncOp.send, .reply, .write, .read], ∀ ph ∈ [Phase.xferOut, .xferIn],
        (lastChunk (tile 0) (.exec op 1 ph snap1) .idle (job8 .toNoc .cmd) false []).cmd = .exec op 1 ph snap1) ∧
      (tile 0).retry.nocReq = none ∧ (job8 .toNoc .cmd).dir = .toNoc ∧ (job8 .toNoc .cmd).owner = .cmd :=
  ⟨fun _ _ => due rfl .., fun _ _ _ _ => rfl, rfl, rfl, rfl⟩

theorem witness_HeaderFetched :
    (∀ d, (sys (headerTile d) [] (.memResponse 0) false).Due (.memResponse 0) false [] ∧ (headerTile d).memq = [.header 3 .cmd] ∧
      (headerTile d).cmd = .exec .reply 3 .hdr replySnap) ∧
      encodeHeader replySnap.dataSize 1 3 256 true = none ∧ (encodeHeader replySnap.dataSize 1 3 replySnap.replyEp true).isSome = true ∧
      replier.cfg.nocAddr (decodeHeader header1).senderCore (decodeHeader header1).replyEp 0 = some 0x0004000000000000 ∧
      replier.cfg.nocAddr (decodeHeader [0, 0, 0, 0, 0, 1, 0, 0]).senderCore 0 0 = none :=
  ⟨fun _ => ⟨due rfl .., rfl, rfl⟩, by decide, by decide, by decide, by decide⟩

/-! ## Witnesses: responses and forwarding -/

/-- A response for tile 0. -/
def reply (k : NocKind) (st : Status) (err : Bool) (data : List Byte) (ss : Nat) : Flight :=
  { dst := 0, packet := .resp { kind := k, status := st, err := err, data := data, ss := ss } }
/-- Tile 0 with one outstanding request of a kind and a requester. -/
def outstanding (c : CmdState) (k : NocKind) (q : Requester) : Tile :=
  { tile 0 with
    cmd := c
    nextId := 1
    nocq := [{ id := 0, kind := k, ep := 1, requester := q, origAddr := 0x500, size := 8, dir := .read }] }

theorem witness_ResponseMatching :
    (∀ f, (sys waitingReader [f] (.deliver 0 0) false).Due (.deliver 0 0) false []) ∧ waitingReader.retry.cpuResp = none ∧
      waitingReader.RequestsOk ∧ (∀ n ∈ waitingReader.nocq, n.id ≠ 1) ∧
      (∃ n ∈ waitingReader.nocq, n.id = 0 ∧ n.kind ≠ .writeReq ∧ n.kind = .readReq ∧ n.requester = .cmd) ∧
      (outstanding .idle .cacheMemReq .cpu).retry.cpuResp = none ∧
      (∃ n ∈ (outstanding .idle .cacheMemReq .cpu).nocq, n.id = 0 ∧ n.kind = .cacheMemReq ∧ n.requester = .cpu) ∧
      (∀ f, (sys waitingReader [f] (.transportError 0) false).Due (.transportError 0) false []) ∧
      ((sys waitingReader [] (.transportError 0) false).tiles[2]? = none ∧
        (sys waitingReader [] (.transportError 0) false).tiles[1]? ≠ none) ∧
      ∀ f, ({ sys waitingReader [f] (.deliver 0 0) false with mode := .atomic, failAfter := some 0 } : State).raised = none :=
  ⟨fun _ => due rfl .., rfl, waitingReader_ok, by decide, by decide, by decide, by decide, fun _ => due rfl .., by decide,
    fun f => (due (a := waitingReader) rfl [f] (.deliver 0 0) false).running⟩

theorem witness_CommandResponse :
    (∀ t ∈ [outstanding (.exec .write 1 .waitAck snap1) .writeReq .cmd, outstanding (.exec .send 1 .waitAck snap1) .message .cmd,
          outstanding (.exec .reply 1 .waitAck snap1) .message .cmd, outstanding (.exec .read 1 .waitData snap1) .readReq .cmd],
        t.RequestsOk ∧ t.nocq.map NocSS.id = [0] ∧ t.nocq.map NocSS.requester = [.cmd] ∧
        ∀ f, (sys t [f] (.deliver 0 0) false).Due (.deliver 0 0) false []) ∧
      (List.replicate 8 (1 : Byte)).length = snap1.dataSize ∧ ([] : List Byte).length ≠ snap1.dataSize := by
  refine ⟨?_, by decide, by decide⟩
  simp only [List.mem_cons, List.not_mem_nil, or_false]
  rintro t (rfl | rfl | rfl | rfl) <;>
    exact ⟨⟨by decide, by decide, by decide⟩, by decide, by decide, fun _ => due rfl ..⟩

theorem witness_ForwardedResponse :
    (outstanding .idle .cacheMemReq .cpu).RequestsOk ∧ (outstanding .idle .cacheMemReq .cpu).retry.cpuResp = none ∧
      (∀ f, (sys (outstanding .idle .cacheMemReq .cpu) [f] (.deliver 0 0) false).Due (.deliver 0 0) false []) ∧
      ∃ n ∈ (outstanding .idle .cacheMemReq .cpu).nocq,
        n.id = 0 ∧ n.kind = .cacheMemReq ∧ n.requester = .cpu ∧ n.dir = .read ∧ n.size = 8 :=
  ⟨⟨by decide, by decide, by decide⟩, rfl, fun _ => due rfl .., by decide⟩

theorem witness_CacheRequestForwarded :
    (∀ q r, (sys (tile 0) [] (.cpu 0 q) r).CpuOffers 0 q r [] (tile 0) ∧
      (sys { tile 0 with port := [q] } [] (.cpuAgain 0 0) r).CpuOffers 0 q r [] (tile 0)) ∧
      ((tile 0).retry.cpuResp = none ∧ (tile 0).retry.nocReq = none ∧ (tile 0).cfg.memEp = 7) ∧
      (∀ a ∈ [0, 0xFFFF8, 0xFFFFC, 0xEFFFFFFF, 0xF0000480, 0xFFFFFFFFFFFFFFF8],
        (a < (tile 0).cfg.regBase ∨
          (tile 0).cfg.regBase + 16 * ((tile 0).cfg.numEndpoints + 1) * (tile 0).cfg.WB ≤ a) ∧
        (tile 0).cfg.forwardsAddr a = true) ∧
      (let c := fun a n => (tile 0).cfg.check .read a n ((tile 0).ep 7 .remSize) ((tile 0).ep 7 .perm)
       c 0xFFFF8 8 = none ∧ c 0xFFFFC 8 = some .outOfBounds ∧ c 0xFFFFFFFFFFFFFFF8 16 = some .addrOverflow ∧ c 0 1025 = none) ∧
      (tile 0).cfg.nocTarget ((tile 0).ep 7 .tgtCore) ((tile 0).ep 7 .remBase) 0xFFFF8 8 = some 0x00000000000FFFF8 ∧
      (tile 0).cfg.nocTarget ((withEp (tile 0) 7 [(.tgtCore, 256)]).ep 7 .tgtCore) 0 0 8 = none :=
  ⟨offers rfl rfl, by decide, by decide, by decide, by decide, by decide⟩

/-- Tile 0 with memEp at the whole of a tile's flat address space. -/
def accessor (core base : Nat) : Tile :=
  withEp (tile 0) 7 [(.tgtCore, core), (.remBase, base), (.remSize, 0x200000), (.perm, 3)]

theorem witness_FunctionalMemoryAccess :
    (∀ c b q r, (sys (accessor c b) [] (.cpu 0 q) r).CpuOffers 0 q r [] (accessor c b) ∧
      (sys { accessor c b with port := [q] } [] (.cpuAgain 0 0) r).CpuOffers 0 q r [] (accessor c b) ∧
      ((sys (accessor c b) [] (.cpu 0 q) r).tiles.set 0 (accessor c b))[1]? = some (tile 1) ∧
      ((sys (accessor c b) [] (.cpu 0 q) r).tiles.set 0 (accessor c b))[0]? = some (accessor c b)) ∧
      ((accessor 1 0).retry.cpuResp = none ∧ (accessor 1 0).cfg.memEp = 7 ∧ (tile 1).cfg.inboundWindowEp = 7 ∧
        (tile 1).mem.wf = true ∧ (tile 1).cfg.externalErrorsAsDenial = false) ∧
      (∀ p ∈ [(0, 0xFFFF8), (0, 0xFFFF9), (0xF0000000, 0), (0xF0000000, 8), (0xF0000000, 0x80), (0xF0000000, 0x470),
          (0xF0000000, 0x480), (0xEFF00000, 0xFFFFF)],
        let t := accessor 1 p.1
        let n : NocAddress := BitVec.ofNat 64 (2 ^ 56 + (p.1 + p.2))
        (p.2 < t.cfg.regBase ∧ t.cfg.forwardsAddr p.2 = true ∧
          (∀ need ∈ [Dir.read, .write], t.cfg.check need p.2 8 (t.ep 7 .remSize) (t.ep 7 .perm) = none) ∧
          t.cfg.nocTarget (t.ep 7 .tgtCore) (t.ep 7 .remBase) p.2 8 = some n ∧ t.cfg.nocCore n = 1 ∧
          (tile 1).cfg.nocCore n = (tile 1).cfg.ownCoreId ∧ (tile 1).cfg.nocOff n = p.1 + p.2)) ∧
      (let u := tile 1
       (∀ need ∈ [Dir.read, .write], u.cfg.check need 0xFFFF8 8 (u.ep 7 .remSize) (u.ep 7 .perm) = none) ∧
         0xFFFF8 + 8 ≤ u.cfg.localMemSize ∧ u.ep 7 .remSize < 0xFFFF9 + 8 ∧
         (let v := withEp u 7 [(.remBase, 0x1000), (.remSize, 0x200000), (.perm, 1)]
          v.cfg.localMemSize < 0xFFFF9 + 8 ∧ 0xFFFF9 - v.ep 7 .remBase + 8 ≤ v.ep 7 .remSize ∧ 0xFFF < v.ep 7 .remBase ∧
            (v.ep 7 .perm).testBit 0 = true ∧ (v.ep 7 .perm).testBit 1 = false)) ∧
      (Config.default 2).nocCore 0x01000000000FFFF8 ≠ (Config.default 2).ownCoreId ∧ lenient.cfg.externalErrorsAsDenial = true ∧
      ((accessor 2 0).cfg.nocTarget ((accessor 2 0).ep 7 .tgtCore) ((accessor 2 0).ep 7 .remBase) 0xFFFF8 8
          = some 0x02000000000FFFF8 ∧
        (accessor 2 0).cfg.nocCore 0x02000000000FFFF8 = 2 ∧ (sys (accessor 2 0) [] (.issue 0) false).tiles[2]? = none) :=
  ⟨fun c b q r => ⟨(offers rfl rfl q r).1, (offers rfl rfl q r).2, rfl, rfl⟩, by decide, by decide, by decide, by decide, rfl,
    by decide⟩

theorem witness_NocAddressFields : (Config.default 0).valid = true := by decide

theorem witness_HeaderCodec :
    (List.replicate 16 (0 : Byte)).take 8 = (List.replicate 8 (0 : Byte) ++ [0xFE, 1]).take 8 ∧
      (0 : Byte).getLsbD 0 = (0xFE : Byte).getLsbD 0 := by decide

end Sys2Proof.Tests
end

section
/-!
PROOFS about the local memory (20_memory R106, R110): its service of one request, case by case, the step that answers the
oldest request, and from these the obligation O45.
-/

namespace Sys2Proof.Machine

/-! ## A step that is one tile's rule -/

/-- A step whose rule ends at its tile without an offer: the tile changes and nothing else does. -/
theorem State.settle_onTile_done {s u : State} {k : Nat} {t t' : Tile} {rule : Tile → Result} (hu : u.raised = none)
    (ht : u.tiles[k]? = some t) (hrule : rule t = .done t' none) (hf : t'.fatal = none) :
    s.settle (.next (u.onTile k rule)) = .next (u.setTile k t') := by
  rw [State.onTile_of_getElem? ht, hrule, State.settle_commit_done none hu hf]
  rfl

/-! ## The service of one request -/

@[simp] theorem memServe_ss (c : Config) (m : Memory) (q : MemReq) : (memServe c m q).2.ss = q.ss := by
  unfold memServe
  split
  · rfl
  · split <;> rfl

theorem memServe_err_iff (c : Config) (m : Memory) (q : MemReq) :
    (memServe c m q).2.err = true ↔ c.localMemSize < q.addr + q.len := by
  unfold memServe
  split
  next h => simpa [Config.beyondMem] using h
  next h =>
    have hin : ¬ c.localMemSize < q.addr + q.len := by simpa [Config.beyondMem] using h
    split <;> simp [hin]

theorem memServe_beyond {c : Config} {q : MemReq} (m : Memory) (h : c.localMemSize < q.addr + q.len) :
    memServe c m q = (m, { err := true, data := [], ss := q.ss }) := by
  simp [memServe, Config.beyondMem, h]

theorem memServe_read {c : Config} {q : MemReq} (m : Memory) (h : q.addr + q.len ≤ c.localMemSize) (hop : q.op = .read) :
    memServe c m q = (m, { err := false, data := m.readBytes q.addr q.len, ss := q.ss }) := by
  simp [memServe, Config.beyondMem, Nat.not_lt.2 h, hop]

theorem memServe_write {c : Config} {q : MemReq} (m : Memory) (h : q.addr + q.len ≤ c.localMemSize) (hop : q.op = .write)
    (hlen : q.data.length = q.len) :
    memServe c m q = (m.writeBytes q.addr q.data, { err := false, data := [], ss := q.ss }) := by
  simp [memServe, Config.beyondMem, Nat.not_lt.2 h, hop, List.take_of_length_le hlen.le]

/-- A request beyond the memory and a read leave its bytes as they are. -/
theorem memServe_keeps {c : Config} {q : MemReq} (m : Memory) (h : c.localMemSize < q.addr + q.len ∨ q.op = .read) :
    (memServe c m q).1 = m := by
  by_cases hb : c.localMemSize < q.addr + q.len
  · rw [memServe_beyond m hb]
  · rw [memServe_read m (Nat.not_lt.1 hb) (h.resolve_left hb)]

/-! ## The memory's step -/

theorem memAnswer_of_cons {t : Tile} {q : MemReq} {qs : List MemReq} (h : t.memIn = q :: qs) :
    memAnswer t =
      .done
        { t with
          mem := (memServe t.cfg t.mem q).1
          memIn := qs
          memOut := t.memOut ++ [(memServe t.cfg t.mem q).2] }
        none := by
  simp [memAnswer, h]

theorem step_memAnswer {s : State} {k : Nat} {r : Bool} {rest : List Turn} {t : Tile} {q : MemReq} {qs : List MemReq}
    (hdue : s.Due (.memAnswer k) r rest) (ht : s.tiles[k]? = some t) (hq : t.memIn = q :: qs) :
    step s = .next ((s.chosen r rest).setTile k
      { t with
        mem := (memServe t.cfg t.mem q).1
        memIn := qs
        memOut := t.memOut ++ [(memServe t.cfg t.mem q).2] }) := by
  have hfatal : t.fatal = none := State.fatal_eq_none hdue.running ht
  rw [step_of_due hdue]
  exact State.settle_onTile_done hdue.running ht (memAnswer_of_cons hq) hfatal

/-- Settles O45: the step is `memServe` of the oldest request, and the laws of `memServe` and of the memory give each
clause. -/
theorem localMemoryAnswers : Obligations.LocalMemoryAnswers := by
  intro s k r rest t q qs hdue ht hq hwf hlen
  refine ⟨_, (memServe t.cfg t.mem q).2, step_memAnswer hdue ht hq, rfl, memServe_ss .., memServe_err_iff .., ?keeps, ?read,
    ?write⟩
  case keeps => exact memServe_keeps t.mem
  case read =>
    intro hin hop
    rw [memServe_read t.mem hin hop]
    exact ⟨Memory.length_readBytes .., fun n hn => Memory.readBytes_getElem? _ _ _ _ hn⟩
  case write =>
    intro hin hop
    have hdata : q.data.length = q.len := hlen hop
    simp only [memServe_write t.mem hin hop hdata, ← hdata]
    refine ⟨fun n hn => ?_, fun x hx => Memory.read_writeBytes_outside _ _ _ _ hx⟩
    rw [Memory.read_writeBytes_inside _ _ _ _ hwf hn, List.getElem?_eq_getElem hn]

end Sys2Proof.Machine
end

section
/-!
PROOFS about the dispatch of a word that is no command (40_command_engine R209, 30_encoding R153, R155): which check of the
decoder a word fails, what the dispatch step does with it, and from these the obligation O4.
-/

namespace Sys2Proof

/-! ## The decoder's errors -/

theorem testBit_bits (v lo width b : Nat) : (bits v lo width).testBit b = (decide (b < width) && v.testBit (lo + b)) := by
  simp [bits, Nat.testBit_mod_two_pow, Nat.testBit_div_two_pow, Nat.add_comm]

/-- The reserved field is zero exactly when no bit of the `W`-bit word above the epId field is set (30_encoding R153). -/
theorem reservedField_eq_zero_iff {c : Config} (hw : c.opcodeBits + c.epidBits ≤ c.W) (v : Nat) :
    reservedField c v = 0 ↔ ∀ b, c.opcodeBits + c.epidBits ≤ b → b < c.W → v.testBit b = false := by
  constructor
  · intro h b hlo hhi
    have hbit : (reservedField c v).testBit (b - (c.opcodeBits + c.epidBits)) = false := by simp [h]
    rw [reservedField, testBit_bits, Nat.add_sub_cancel' hlo, decide_eq_true (by omega), Bool.true_and] at hbit
    exact hbit
  · intro h
    refine Nat.eq_of_testBit_eq fun b => ?_
    rw [reservedField, testBit_bits, Nat.zero_testBit, Bool.and_eq_false_imp]
    intro hb
    exact h _ (Nat.le_add_right ..) (by have := of_decide_eq_true hb; omega)

theorem Opcode.mem_all (o : Opcode) : o ∈ Opcode.all := by
  cases o <;> decide

theorem opcodeOfValue_eq_none_iff {c : Config} {n : Nat} :
    opcodeOfValue c n = none ↔ ∀ o, c.opcodeValue.of o ≠ n := by
  simp [opcodeOfValue, Opcode.mem_all]

theorem opcodeField_eq_mod (c : Config) (v : Nat) : opcodeField c v = v % 2 ^ c.opcodeBits := by
  simp [opcodeField, bits]

theorem decode_of_narrow {c : Config} (h : c.W < c.opcodeBits + c.epidBits) (v : Nat) :
    decode c v = .error .decodeWidth :=
  if_pos h

theorem decode_of_reserved {c : Config} {v : Nat} (hw : c.opcodeBits + c.epidBits ≤ c.W) (h : reservedField c v ≠ 0) :
    decode c v = .error .reservedCmdBits := by
  rw [decode, if_neg (Nat.not_lt.2 hw), if_pos h]

theorem decode_of_noOpcode {c : Config} {v : Nat} (hw : c.opcodeBits + c.epidBits ≤ c.W) (hres : reservedField c v = 0)
    (h : opcodeOfValue c (opcodeField c v) = none) : decode c v = .error .unknownOpcode := by
  rw [decode, if_neg (Nat.not_lt.2 hw), if_neg (not_not.2 hres), h]

namespace Machine

/-! ## The dispatch step -/

theorem dispatchStep_of_decode_error {s : State} {k : Nat} {t : Tile} {o : Origin} {err : DecodeError}
    (ht : s.tiles[k]? = some t) (hcmd : t.cmd = .scheduled o) (hdec : decode t.cfg (t.reg commandReg) = .error err) :
    dispatchStep k s = .next (s.raise k (decodeFatal err)) := by
  simp [dispatchStep, ht, Tile.hasScheduled, hcmd, Tile.decoded, hdec]

theorem step_dispatch_of_decode_error {s : State} {k : Nat} {r : Bool} {rest : List Turn} {t : Tile} {o : Origin}
    {err : DecodeError} (hdue : s.Due (.dispatch k) r rest) (ht : s.tiles[k]? = some t) (hcmd : t.cmd = .scheduled o)
    (hdec : decode t.cfg (t.reg commandReg) = .error err) :
    step s = .next ((s.chosen r rest).raise k (decodeFatal err)) := by
  have hk : k < s.tiles.length := (List.getElem?_eq_some_iff.1 ht).1
  have hdispatch : dispatchStep k (s.chosen r rest) = .next ((s.chosen r rest).raise k (decodeFatal err)) :=
    dispatchStep_of_decode_error ht hcmd hdec
  rw [step_of_due hdue, perform, hdispatch]
  exact State.settle_raise hdue.running hk

/-- Settles O4: each clause names the check of `decode` that the word fails, and the step raises its code. -/
theorem dispatchRejectsBadWords : Obligations.DispatchRejectsBadWords := by
  intro s k r rest t o hdue ht hcmd
  have raises : ∀ {err}, decode t.cfg (t.reg commandReg) = .error err →
      step s = .next ((s.chosen r rest).raise k (decodeFatal err)) := step_dispatch_of_decode_error hdue ht hcmd
  refine ⟨fun hnarrow => raises (decode_of_narrow hnarrow _), fun hw => ⟨?reserved, ?opcode⟩⟩
  case reserved =>
    rintro ⟨b, hlo, hhi, hset⟩
    refine raises (decode_of_reserved hw fun hzero => ?_)
    have hclear := (reservedField_eq_zero_iff hw _).1 hzero b hlo hhi
    exact Bool.false_ne_true (hclear.symm.trans hset)
  case opcode =>
    intro hclear hnone
    refine raises (decode_of_noOpcode hw ((reservedField_eq_zero_iff hw _).2 hclear) ?_)
    rw [opcodeField_eq_mod]
    exact opcodeOfValue_eq_none_iff.2 hnone

end Machine

end Sys2Proof
end

section
/-!
PROOFS about the three commands that dispatch completes (40_command_engine R211 to R213): the fields of an endpoint after a
write or a retirement, the ring advance case by case, and from these the obligations O23, O24 and O25.
-/

namespace Sys2Proof

theorem Config.wrapW_of_lt {c : Config} {v : Nat} (h : v < 2 ^ c.W) : c.wrapW v = v := Nat.mod_eq_of_lt h

@[simp] theorem Config.wrapW_zero (c : Config) : c.wrapW 0 = 0 := Nat.zero_mod _

namespace Machine

/-! ## A dispatch that ends at its tile -/

theorem dispatchOn_done {ep : Nat} (rule : Tile → Result) {s : State} {t t' : Tile} (ht : s.tiles[s.cur]? = some t)
    (he : ep < t.cfg.numEndpoints) (hrule : rule t = .done t' none) :
    dispatchOn [] ep rule s = .next (s.setTile s.cur t') := by
  rw [dispatchOn_of_ready ht (by simp) he, hrule]
  rfl

/-! ## Registers and endpoint fields after an update -/

/-- What evolves keeps the size of the register file and the width of the registers (10_state R31). -/
theorem Tile.RegsFit.of_evolves {t t' : Tile} (h : t.RegsFit) (hev : t.Evolves t') : t'.RegsFit where
  length := by rw [hev.length, hev.cfg, h.length]
  bound v hv := by
    rw [hev.cfg]
    exact (hev.reg v hv).elim (h.bound v) id

theorem Tile.RegsFit.reg_lt {t : Tile} (h : t.RegsFit) (i : Nat) : t.reg i < 2 ^ t.cfg.W := by
  by_cases hi : i < t.regs.length
  · simpa [Tile.reg, hi] using h.bound _ (List.getElem_mem hi)
  · simp [Tile.reg, Nat.not_lt.1 hi]

/-- The fields of an existing endpoint are registers of the tile (10_state R31, R32). -/
theorem Tile.RegsFit.epReg_lt {t : Tile} (h : t.RegsFit) {e : Nat} (he : e < t.cfg.numEndpoints) (f : Field) :
    epReg e f < t.regs.length := by
  have hf : f.num < 16 := by cases f <;> decide
  rw [h.length, Config.regfileWords, epReg]
  omega

theorem Tile.ep_setEp_self {t : Tile} (h : t.RegsFit) {e : Nat} (he : e < t.cfg.numEndpoints) (f : Field) {v : Nat}
    (hv : v < 2 ^ t.cfg.W) : (t.setEp e f v).ep e f = v :=
  (t.reg_setReg_self _ v (h.epReg_lt he f)).trans (Config.wrapW_of_lt hv)

theorem Tile.ep_setEp_of_ne (t : Tile) (e : Nat) {f g : Field} (v : Nat) (h : g ≠ f) : (t.setEp e f v).ep e g = t.ep e g :=
  t.reg_setReg_of_ne _ _ v fun heq => h (epReg_inj heq).2

@[simp] theorem Tile.ep_retire (t : Tile) (e : Nat) (f : Field) : t.retire.ep e f = t.ep e f :=
  t.reg_retire_of_ne _ (epReg_ne_command e f)

@[simp] theorem Tile.ep_deny (t : Tile) (c : DenialCode) (o : DenialOrigin) (ep a n e : Nat) (f : Field) :
    (t.deny c o ep a n).ep e f = t.ep e f := rfl

/-! ## The wake-up (40_command_engine R213) -/

/-- After the wake-up an attached CPU is active; it is the only thing that may have changed. -/
theorem Tile.wake_eq (t : Tile) :
    t.wake = { t with suspended := if t.cfg.cpuAttached = true then false else t.suspended } := by
  unfold Tile.wake
  split
  next h =>
    have ha : t.cfg.cpuAttached = true := ((Bool.and_eq_true ..).mp h).1
    rw [if_pos ha]
  next h =>
    have hsame : (if t.cfg.cpuAttached = true then false else t.suspended) = t.suspended := by
      split
      next ha => simpa [ha] using h
      next => rfl
    rw [hsame]

theorem Tile.retire_wake (t : Tile) :
    t.wake.retire =
      { t with
        suspended := if t.cfg.cpuAttached = true then false else t.suspended
        regs := t.regs.set commandReg 0
        cmd := .idle } := by
  simp [Tile.wake_eq, Tile.retire, Tile.setReg]

/-! ## The ring advance (40_command_engine R212) -/

theorem Tile.advanceRing_of_empty {t : Tile} {e : Nat} (hcnt : t.ep e .bufMsgCnt = 0) :
    t.advanceRing e = t.deny .readPtrUnderflow .cmd e (t.ep e .bufRdPtr) 0 :=
  if_pos hcnt

theorem Tile.advanceRing_of_noSlots {t : Tile} {e : Nat} (hcnt : t.ep e .bufMsgCnt ≠ 0) (hslots : t.ep e .bufSlots = 0) :
    t.advanceRing e = t.deny .ringInvalid .cmd e (t.ep e .bufRdPtr) 0 := by
  rw [Tile.advanceRing, if_neg hcnt, if_pos hslots]

theorem Tile.advanceRing_of_pending {t : Tile} {e : Nat} (hcnt : t.ep e .bufMsgCnt ≠ 0) (hslots : t.ep e .bufSlots ≠ 0) :
    t.advanceRing e =
      (t.setEp e .bufRdPtr ((t.ep e .bufRdPtr + 1) % t.ep e .bufSlots)).setEp e .bufMsgCnt (t.ep e .bufMsgCnt - 1) := by
  rw [Tile.advanceRing, if_neg hcnt, if_neg hslots]

/-- Everything the ring advance can do. -/
theorem Tile.advanceRing_cases (t : Tile) (e : Nat) :
    (∃ code, t.advanceRing e = t.deny code .cmd e (t.ep e .bufRdPtr) 0) ∨
      ∃ rd cnt, t.advanceRing e = (t.setEp e .bufRdPtr rd).setEp e .bufMsgCnt cnt := by
  by_cases hcnt : t.ep e .bufMsgCnt = 0
  · exact .inl ⟨_, advanceRing_of_empty hcnt⟩
  · by_cases hslots : t.ep e .bufSlots = 0
    · exact .inl ⟨_, advanceRing_of_noSlots hcnt hslots⟩
    · exact .inr ⟨_, _, advanceRing_of_pending hcnt hslots⟩

/-- Registers, log and `dtu.cmd` are all that INC_READ_PTR may change. -/
theorem Tile.retire_advanceRing_frame (t : Tile) (e : Nat) :
    (t.advanceRing e).retire =
      { t with regs := (t.advanceRing e).retire.regs, log := (t.advanceRing e).retire.log, cmd := .idle } := by
  obtain ⟨code, h⟩ | ⟨rd, cnt, h⟩ := t.advanceRing_cases e <;> rw [h] <;> rfl

theorem Tile.reg_advanceRing_of_ne (t : Tile) {e i : Nat} (hrd : i ≠ epReg e .bufRdPtr) (hcnt : i ≠ epReg e .bufMsgCnt) :
    (t.advanceRing e).reg i = t.reg i := by
  obtain ⟨code, h⟩ | ⟨rd, cnt, h⟩ := t.advanceRing_cases e
  · rw [h, Tile.reg_deny]
  · rw [h, Tile.setEp, Tile.reg_setReg_of_ne _ _ _ _ hcnt, Tile.setEp, Tile.reg_setReg_of_ne _ _ _ _ hrd]

theorem Tile.advanceRing_bufRdPtr {t : Tile} {e : Nat} (hfit : t.RegsFit) (he : e < t.cfg.numEndpoints)
    (hcnt : t.ep e .bufMsgCnt ≠ 0) (hslots : t.ep e .bufSlots ≠ 0) :
    (t.advanceRing e).ep e .bufRdPtr = (t.ep e .bufRdPtr + 1) % t.ep e .bufSlots := by
  have hnext : (t.ep e .bufRdPtr + 1) % t.ep e .bufSlots < 2 ^ t.cfg.W :=
    (Nat.mod_lt _ (Nat.pos_of_ne_zero hslots)).trans (hfit.reg_lt _)
  rw [advanceRing_of_pending hcnt hslots, Tile.ep_setEp_of_ne _ _ _ (by decide), Tile.ep_setEp_self hfit he _ hnext]

theorem Tile.advanceRing_bufMsgCnt {t : Tile} {e : Nat} (hfit : t.RegsFit) (he : e < t.cfg.numEndpoints)
    (hcnt : t.ep e .bufMsgCnt ≠ 0) (hslots : t.ep e .bufSlots ≠ 0) :
    (t.advanceRing e).ep e .bufMsgCnt = t.ep e .bufMsgCnt - 1 := by
  have hless : t.ep e .bufMsgCnt - 1 < 2 ^ t.cfg.W := (Nat.sub_le ..).trans_lt (hfit.reg_lt _)
  rw [advanceRing_of_pending hcnt hslots]
  exact Tile.ep_setEp_self (hfit.of_evolves (.setEp t e .bufRdPtr _)) he _ hless

end Machine

/-! ## The obligations

They stand in a namespace of their own: `Machine.execIdle` and its like are the model's handlers. -/

namespace Engine

open Machine

/-- Settles O23: the rule of IDLE ends at its tile, where it clears `dtu.cmd` alone. -/
theorem execIdle : Obligations.ExecIdle :=
  fun _ _ _ ht he => dispatchOn_done idleRule ht he rfl

/-- Settles O24: the tile after the step is the retired ring advance, which has one lemma for each case. -/
theorem execIncReadPtr : Obligations.ExecIncReadPtr := by
  intro s t e ht he hfit
  refine ⟨(t.advanceRing e).retire, dispatchOn_done (incReadPtrRule e) ht he rfl, t.retire_advanceRing_frame e,
    Tile.reg_retire_command _, ?others, ?empty, ?noSlots, ?pending⟩
  case others =>
    intro i hcmd hrd hcnt
    rw [Tile.reg_retire_of_ne _ _ hcmd, Tile.reg_advanceRing_of_ne _ hrd hcnt]
  case empty =>
    intro hcnt
    simp [Tile.advanceRing_of_empty hcnt, hcnt]
  case noSlots =>
    intro hcnt hslots
    simp [Tile.advanceRing_of_noSlots hcnt hslots]
  case pending =>
    intro hcnt hslots
    simp only [Tile.ep_retire, Tile.retire_log]
    refine ⟨Tile.advanceRing_bufRdPtr hfit he hcnt hslots, Tile.advanceRing_bufMsgCnt hfit he hcnt hslots, ?_⟩
    rw [Tile.advanceRing_of_pending hcnt hslots, Tile.setEp_log, Tile.setEp_log]

/-- Settles O25: the rule of WAKEUP_CORE ends at its tile, which wakes and retires. -/
theorem execWakeupCore : Obligations.ExecWakeupCore :=
  fun _ t _ ht he => t.retire_wake ▸ dispatchOn_done wakeupCoreRule ht he rfl

end Engine

end Sys2Proof
end

section
/-!
PROOFS about the permission and bounds check (41_memory_unit R250): its five answers, each with what it was given, and from these
the obligation O57.
-/

namespace Sys2Proof

open Machine

/-- The permission flag of the direction is set: bit 0 for a read, bit 1 for a write (41_memory_unit R250). -/
def permits (need : Dir) (perm : Nat) : Prop :=
  (need = .read ∧ perm.testBit 0 = true) ∨ (need = .write ∧ perm.testBit 1 = true)

theorem not_permits_iff {need : Dir} {perm : Nat} :
    ¬ permits need perm ↔ (need = .read ∧ perm.testBit 0 = false) ∨ (need = .write ∧ perm.testBit 1 = false) := by
  cases need <;> simp [permits]

theorem Config.check_read_of_clear (c : Config) (rel size remSize : Nat) {perm : Nat} (h : perm.testBit 0 = false) :
    c.check .read rel size remSize perm = some .noReadPerm :=
  if_pos ⟨rfl, h⟩

theorem Config.check_write_of_clear (c : Config) (rel size remSize : Nat) {perm : Nat} (h : perm.testBit 1 = false) :
    c.check .write rel size remSize perm = some .noWritePerm := by
  simp [check, h]

/-- A permitted access is checked against the address space and then against the region. -/
theorem Config.check_of_permits (c : Config) {need : Dir} (rel size remSize : Nat) {perm : Nat} (h : permits need perm) :
    c.check need rel size remSize perm =
      if 2 ^ c.W ≤ rel + size then some .addrOverflow else if remSize < rel + size then some .outOfBounds else none := by
  obtain ⟨rfl, hbit⟩ | ⟨rfl, hbit⟩ := h <;> simp [check, hbit]

/-- Settles O57: an access without its flag has one answer; for a permitted one two comparisons of the exact sum decide. -/
theorem permissionAndBoundsCheck : Obligations.PermissionAndBoundsCheck := by
  intro c need rel size remSize perm permitted
  by_cases hperm : permits need perm
  case pos =>
    have hp : permitted := hperm
    obtain ⟨hread, hwrite⟩ := not_or.1 (mt not_permits_iff.2 (not_not.2 hperm))
    rw [c.check_of_permits rel size remSize hperm]
    by_cases hover : 2 ^ c.W ≤ rel + size
    · simp [hp, hread, hwrite, hover, hover.not_gt, -Nat.testBit_zero]
    · have hlt : rel + size < 2 ^ c.W := Nat.not_le.1 hover
      rw [if_neg hover]
      by_cases hout : remSize < rel + size
      · simp [hp, hread, hwrite, hlt, hout, -Nat.testBit_zero]
      · simp [hp, hread, hwrite, hlt, hout, Nat.not_lt.1 hout, -Nat.testBit_zero]
  case neg =>
    have hp : ¬ permitted := hperm
    obtain ⟨rfl, hclear⟩ | ⟨rfl, hclear⟩ := not_permits_iff.1 hperm
    · simp [c.check_read_of_clear rel size remSize hclear, hp, hclear]
    · simp [c.check_write_of_clear rel size remSize hclear, hp, hclear]

end Sys2Proof
end

section
/-!
PROOFS about the response to a command (44_async_completion R391, R392; 41_memory_unit R255, R258; 42_message_unit R304): the
matching of its sender-state, the handler it is given to, the step that delivers it, and from these the obligation O53.
-/

namespace Sys2Proof.Machine

/-! ## Matching -/

/-- The tile once the sender-state with the id `ss` is consumed (44_async_completion R391). -/
def Tile.consumed (t : Tile) (ss : Nat) : Tile := { t with nocq := t.nocq.filter fun e => e.id != ss }

/-- Ids are distinct, so an outstanding request is the one its id finds. -/
theorem Tile.RequestsOk.find?_eq {t : Tile} (h : t.RequestsOk) {n : NocSS} (hn : n ∈ t.nocq) :
    t.nocq.find? (fun e => e.id == n.id) = some n := by
  have hsome : (t.nocq.find? fun e => e.id == n.id).isSome = true := List.find?_isSome.2 ⟨n, hn, beq_self_eq_true _⟩
  obtain ⟨m, hm⟩ := Option.isSome_iff_exists.1 hsome
  have hid : m.id = n.id := by simpa using List.find?_some hm
  rw [hm, List.inj_on_of_nodup_map h.distinct (List.mem_of_find?_eq_some hm) hn hid]

/-- A response that matches an outstanding request is dispatched once its channel is free. -/
theorem nocResponse_of_match {t : Tile} {q : NocResp} {n : NocSS} (hok : t.RequestsOk) (hn : n ∈ t.nocq) (hid : n.id = q.ss)
    (hkind : n.kind = q.kind) (hfree : n.requester = .cpu → t.free .cpuResp = true) (herr : q.err = false) :
    nocResponse q t = responseHandler n q (t.consumed q.ss) := by
  have hfind : t.nocq.find? (fun e => e.id == q.ss) = some n := hid ▸ hok.find?_eq hn
  have hready : ¬ (n.requester = .cpu ∧ t.free .cpuResp = false) := fun ⟨hcpu, hbusy⟩ => by simp [hfree hcpu] at hbusy
  simp [nocResponse, hfind, hready, hkind, herr, Tile.consumed]

/-! ## The handlers of a command's response -/

/-- The response that ends a command without data: a WRITE's, a SEND's or a REPLY's. -/
theorem responseHandler_of_ack {n : NocSS} {t : Tile} {op : AsyncOp} {e : Nat} {sn : Snap} (q : NocResp)
    (hop : (op = .write ∧ n.kind = .writeReq) ∨ ((op = .send ∨ op = .reply) ∧ n.kind = .message))
    (hreq : n.requester = .cmd) (hcmd : t.cmd = .exec op e .waitAck sn) : responseHandler n q t = .done t.retire none := by
  obtain ⟨rfl, hkind⟩ | ⟨rfl | rfl, hkind⟩ := hop <;> simp [responseHandler, hreq, hkind, hcmd]

theorem responseHandler_of_read {n : NocSS} {t : Tile} {e : Nat} {sn : Snap} (q : NocResp) (hkind : n.kind = .readReq)
    (hreq : n.requester = .cmd) (hcmd : t.cmd = .exec .read e .waitData sn) :
    responseHandler n q t = readComplete e sn q t := by
  simp [responseHandler, hreq, hkind, hcmd]

theorem readComplete_of_denied {q : NocResp} (h : q.status = .denied) (e : Nat) (sn : Snap) (t : Tile) :
    readComplete e sn q t = .done t.retire none :=
  if_pos h

theorem readComplete_of_wrongLength {q : NocResp} {sn : Snap} (h : q.status = .ok) (hlen : q.data.length ≠ sn.dataSize)
    (e : Nat) (t : Tile) : readComplete e sn q t = .fatal .responseMismatch := by
  simp [readComplete, h, hlen]

theorem readComplete_of_data {q : NocResp} {sn : Snap} (h : q.status = .ok) (hlen : q.data.length = sn.dataSize)
    (e : Nat) (t : Tile) :
    readComplete e sn q t =
      .done
        ({ t with cmd := .exec .read e .xferIn sn }.enqueue
          { dir := .fromNoc, loc := sn.locAddr, size := sn.dataSize, data := q.data, owner := .cmd })
        none := by
  simp [readComplete, h, hlen]

/-! ## The step that delivers a response -/

/-- In TIMED mode a response that its tile takes leaves the NoC, and the matching decides what it does. -/
theorem deliver_response_of_timed (run : State → Host.Outcome State Fault Refusal) {i k : Nat} {s : State} {t : Tile}
    {q : NocResp} (hmode : s.mode = .timed) (hnoc : s.noc[i]? = some { dst := k, packet := .resp q })
    (ht : s.tiles[k]? = some t) (hheld : (nocResponse q t).isHeld = false) :
    deliver run i k s = .next (State.commit { s with noc := s.noc.eraseIdx i } k (nocResponse q t)) := by
  have htakes : takes k t { dst := k, packet := .resp q } = true := by simp [takes, hheld]
  have hcount : State.countResponse { s with noc := s.noc.eraseIdx i } = { s with noc := s.noc.eraseIdx i } :=
    State.countResponse_of_timed hmode
  simp only [deliver, hnoc, ht, htakes, if_true, State.carried_of_timed hmode, hcount]

section
variable {s : State} {k i : Nat} {r : Bool} {rest : List Turn} {t : Tile} {q : NocResp}
  (hdue : s.Due (.deliver i k) r rest) (hnoc : s.noc[i]? = some { dst := k, packet := .resp q })
  (ht : s.tiles[k]? = some t)
include hdue hnoc ht

theorem step_deliver_response (hheld : (nocResponse q t).isHeld = false) :
    step s = (s.chosen r rest).settle
      (.next ({ s.chosen r rest with noc := s.noc.eraseIdx i }.commit k (nocResponse q t))) := by
  rw [step_of_due hdue]
  exact congrArg _ (deliver_response_of_timed (s := s.chosen r rest) _ hdue.timed hnoc ht hheld)

theorem step_deliver_done {t' : Tile} (h : nocResponse q t = .done t' none) :
    step s = .next ({ s.chosen r rest with noc := s.noc.eraseIdx i }.setTile k t') := by
  have hfatal : t'.fatal = none :=
    ((nocResponse_evolves q t).out t' none h).fatal.trans (State.fatal_eq_none hdue.running ht)
  rw [step_deliver_response hdue hnoc ht (by rw [h]; rfl), h]
  exact State.settle_commit_done none hdue.running hfatal

theorem step_deliver_fatal {c : FatalCode} (h : nocResponse q t = .fatal c) :
    step s = .next ((s.chosen r rest).raise k c) := by
  rw [step_deliver_response hdue hnoc ht (by rw [h]; rfl), h]
  exact State.settle_commit_fatal hdue.running ht

end

/-- Settles O53: the response is dispatched on the consumed tile, and its handler retires, raises or enqueues there. -/
theorem commandResponse : Obligations.CommandResponse := by
  intro s k i r rest t q n e sn u s1 hdue hnoc ht hok hn hid hkind hreq herr hu hs1
  have hmatch : nocResponse q t = responseHandler n q (t.consumed q.ss) :=
    nocResponse_of_match hok hn hid hkind (by simp [hreq]) herr
  subst hu hs1
  refine ⟨fun op hop hcmd => ?ack, fun hread hcmd => ?read⟩
  case ack =>
    rw [← hkind] at hop
    exact step_deliver_done hdue hnoc ht (hmatch.trans (responseHandler_of_ack q hop hreq hcmd))
  case read =>
    have hhandler : nocResponse q t = readComplete e sn q (t.consumed q.ss) :=
      hmatch.trans (responseHandler_of_read q (hkind.trans hread) hreq hcmd)
    refine ⟨fun hst => ?denied, fun hst hlen => ?wrongLength, fun hst hlen => ?data⟩
    case denied => exact step_deliver_done hdue hnoc ht (hhandler.trans (readComplete_of_denied hst ..))
    case wrongLength => exact step_deliver_fatal hdue hnoc ht (hhandler.trans (readComplete_of_wrongLength hst hlen ..))
    case data => exact step_deliver_done hdue hnoc ht (hhandler.trans (readComplete_of_data hst hlen ..))

end Sys2Proof.Machine
end

section
/-!
PROOFS about the response at a tile's memory port (43_transfer_unit R354, R361, R362): the rule it is dispatched to, the step that
handles it; the landing of a message (42_message_unit R312) and the header fetch of a REPLY (R306); and from these the obligations
O42 and O51.
-/

namespace Sys2Proof

namespace Machine

/-! ## The step at the memory port -/

section
variable {s : State} {k : Nat} {r : Bool} {rest : List Turn} {t : Tile}
  (hdue : s.Due (.memResponse k) r rest) (ht : s.tiles[k]? = some t)
include hdue ht

theorem step_memResponse :
    step s = (s.chosen r rest).settle (.next ((s.chosen r rest).commit k (memResponse t))) := by
  rw [step_of_due hdue, perform, State.onTile_of_getElem? (s := s.chosen r rest) ht]

theorem step_memResponse_done {t' : Tile} {o : Option Item} (h : memResponse t = .done t' o) :
    step s = .next ((s.chosen r rest).commit k (.done t' o)) := by
  have hfatal : t'.fatal = none :=
    ((memResponse_evolves t).out t' o h).fatal.trans (State.fatal_eq_none hdue.running ht)
  rw [step_memResponse hdue ht, h]
  exact State.settle_commit_done o hdue.running hfatal

theorem step_memResponse_fatal {c : FatalCode} (h : memResponse t = .fatal c) :
    step s = .next ((s.chosen r rest).raise k c) := by
  rw [step_memResponse hdue ht, h]
  exact State.settle_commit_fatal hdue.running ht

end

/-! ## The rule a memory response is dispatched to -/

/-- The tile once the response at its memory port is taken and matched: `ms` and `mq` are what is left (43_transfer_unit R361). -/
def Tile.matched (t : Tile) (ms : List MemResp) (mq : List MemSS) : Tile := { t with memOut := ms, memq := mq }

section
variable {t : Tile} {m : MemResp} {ms : List MemResp} {mq : List MemSS} {p : Nat} {o : Owner} (hout : t.memOut = m :: ms)
include hout

theorem memResponse_of_transfer {j len : Nat} {last : Bool} (hq : t.memq = .transfer p o j last len :: mq) :
    memResponse t = transferResponse last m (t.matched ms mq) := by
  simp [memResponse, hout, hq, Tile.matched]

theorem memResponse_of_header (hq : t.memq = .header p o :: mq) :
    memResponse t = headerResponse m (t.matched ms mq) := by
  simp [memResponse, hout, hq, Tile.matched]

end

/-- The last chunk's response without an error completes the active job, or waits as the completion does. -/
theorem transferResponse_of_last {t : Tile} {m : MemResp} {a : ActiveJob} (hact : t.xfer.active = some a)
    (herr : m.err = false) :
    transferResponse true m t =
      jobDone a.job.owner (if a.job.dir = .toNoc then a.acc ++ m.data else a.acc) t := by
  cases hres : jobDone a.job.owner (if a.job.dir = .toNoc then a.acc ++ m.data else a.acc) t <;>
    simp [transferResponse, hact, herr, hres, Result.isHeld]

theorem headerResponse_of_reply {t : Tile} {m : MemResp} {e : Nat} {sn : Snap} (hcmd : t.cmd = .exec .reply e .hdr sn)
    (herr : m.err = false) : headerResponse m t = headerFetched e sn m.data t := by
  simp [headerResponse, hcmd, herr]

/-! ## The landing of a message (42_message_unit R312) -/

/-- The tile once the write pointer has moved past the slot of the message in service. -/
def Tile.slotPassed (t : Tile) (b : InbRec) : Tile := t.setEp b.ep .bufWrPtr ((b.slot + 1) % b.slots)

/-- The tile once the message in service is counted too and the service has ended. -/
def Tile.landed (t : Tile) (b : InbRec) : Tile :=
  { ((t.slotPassed b).setEp b.ep .bufMsgCnt
      (t.cfg.wrapW ((t.slotPassed b).ep b.ep .bufMsgCnt + 1))).recompute with inb := .idle }

theorem messageLanded_eq (b : InbRec) (t : Tile) : messageLanded b t = respond (t.landed b) b.src .message b.ss .ok [] := rfl

/-- Registers, DENY_SUSPEND and `dtu.inb` are all that the landing of a message may change. -/
theorem Tile.landed_frame (t : Tile) (b : InbRec) :
    t.landed b = { t with regs := (t.landed b).regs, denySuspend := (t.landed b).pendingMessage, inb := .idle } := rfl

theorem Tile.landed_bufWrPtr {t : Tile} {b : InbRec} (hfit : t.RegsFit) (he : b.ep < t.cfg.numEndpoints)
    (hpos : 0 < b.slots) (hslots : b.slots ≤ 2 ^ t.cfg.W) : (t.landed b).ep b.ep .bufWrPtr = (b.slot + 1) % b.slots := by
  have hnext : (b.slot + 1) % b.slots < 2 ^ t.cfg.W := (Nat.mod_lt _ hpos).trans_le hslots
  exact (Tile.ep_setEp_of_ne _ _ _ (by decide)).trans (Tile.ep_setEp_self hfit he _ hnext)

theorem Tile.landed_bufMsgCnt {t : Tile} {b : InbRec} (hfit : t.RegsFit) (he : b.ep < t.cfg.numEndpoints) :
    (t.landed b).ep b.ep .bufMsgCnt = t.cfg.wrapW (t.ep b.ep .bufMsgCnt + 1) := by
  have hcount : (t.slotPassed b).ep b.ep .bufMsgCnt = t.ep b.ep .bufMsgCnt :=
    Tile.ep_setEp_of_ne _ _ _ (by decide)
  have hwrap : t.cfg.wrapW (t.ep b.ep .bufMsgCnt + 1) < 2 ^ t.cfg.W := Nat.mod_lt _ (by positivity)
  rw [← hcount] at hwrap ⊢
  exact Tile.ep_setEp_self (hfit.of_evolves (.setEp t b.ep .bufWrPtr _)) he _ hwrap

theorem Tile.reg_landed_of_ne (t : Tile) {b : InbRec} {i : Nat} (hwr : i ≠ epReg b.ep .bufWrPtr)
    (hcnt : i ≠ epReg b.ep .bufMsgCnt) : (t.landed b).reg i = t.reg i :=
  (Tile.reg_setReg_of_ne _ _ _ _ hcnt).trans (Tile.reg_setReg_of_ne _ _ _ _ hwr)

/-- The tile with no job active any more (43_transfer_unit R355). -/
def Tile.jobEnded (t : Tile) : Tile := { t with xfer := { t.xfer with active := none } }

theorem jobDone_of_message {t : Tile} {b : InbRec} (acc : List Byte) (hinb : t.inb = .busy b) (hkind : b.kind = .message)
    (hfree : t.retry.nocResp = none) : jobDone .inb acc t = messageLanded b t.jobEnded := by
  simp [jobDone, inboundJobDone, Tile.jobEnded, hinb, hkind, Tile.free, Retry.slot, hfree]

/-- The response to the last chunk of the message in service finalises it. -/
theorem memResponse_of_lastMessageChunk {t : Tile} {m : MemResp} {ms : List MemResp} {mq : List MemSS} {p j len : Nat}
    {o : Owner} {a : ActiveJob} {b : InbRec} (hout : t.memOut = m :: ms) (hq : t.memq = .transfer p o j true len :: mq)
    (herr : m.err = false) (hact : t.xfer.active = some a) (howner : a.job.owner = .inb) (hinb : t.inb = .busy b)
    (hkind : b.kind = .message) (hfree : t.retry.nocResp = none) :
    memResponse t = messageLanded b (t.matched ms mq).jobEnded := by
  rw [memResponse_of_transfer hout hq, transferResponse_of_last (t := t.matched ms mq) hact herr, howner]
  exact jobDone_of_message (t := t.matched ms mq) _ hinb hkind hfree

/-! ## The header fetch of a REPLY (42_message_unit R306) -/

section
variable {e : Nat} {sn : Snap} {data : List Byte} {t : Tile}

theorem headerFetched_of_noHeader (h : encodeHeader sn.dataSize t.cfg.ownCoreId e sn.replyEp true = none) :
    headerFetched e sn data t = .fatal .headerFieldRange := by
  simp [headerFetched, h]

variable {hdr : List Byte} (hhdr : encodeHeader sn.dataSize t.cfg.ownCoreId e sn.replyEp true = some hdr)
include hhdr

theorem headerFetched_of_noAddr
    (h : t.cfg.nocAddr (decodeHeader data).senderCore (decodeHeader data).replyEp 0 = none) :
    headerFetched e sn data t = .fatal .nocAddrRange := by
  simp [headerFetched, hhdr, h]

theorem headerFetched_of_addr {na : NocAddress}
    (h : t.cfg.nocAddr (decodeHeader data).senderCore (decodeHeader data).replyEp 0 = some na) :
    headerFetched e sn data t =
      .done
        ({ t with
            cmd := .exec .reply e .xferOut
              { sn with
                tgtCore := (decodeHeader data).senderCore, tgtEp := (decodeHeader data).replyEp, hdr := hdr
                nocAddr := na } }.enqueue
          (payloadJob sn))
        none := by
  simp [headerFetched, hhdr, h]

end

/-- The response to the header fetch of the command in service, a REPLY, goes on with its header. -/
theorem memResponse_of_replyHeader {t : Tile} {m : MemResp} {ms : List MemResp} {mq : List MemSS} {p e : Nat} {o : Owner}
    {sn : Snap} (hout : t.memOut = m :: ms) (hq : t.memq = .header p o :: mq) (herr : m.err = false)
    (hcmd : t.cmd = .exec .reply e .hdr sn) : memResponse t = headerFetched e sn m.data (t.matched ms mq) :=
  (memResponse_of_header hout hq).trans (headerResponse_of_reply hcmd herr)

end Machine

/-! ## The obligations

They stand in a namespace of their own: `Machine.headerFetched` is the model's handler. -/

namespace MessageUnit

open Machine

/-- Settles O42: the last chunk's response finalises the message, and the laws of `Tile.landed` give each clause. -/
theorem messageFinalised : Obligations.MessageFinalised := by
  intro s k r rest t m ms p j len o mq a b hdue ht hout hq herr hact howner hinb hkind hfree hfit he hpos hslots
  have hrule := memResponse_of_lastMessageChunk hout hq herr hact howner hinb hkind hfree
  have hended : (t.matched ms mq).jobEnded.RegsFit := hfit.of_evolves .of_eq
  rw [messageLanded_eq] at hrule
  exact ⟨_, step_memResponse_done hdue ht hrule, Tile.landed_frame _ b, Tile.landed_bufWrPtr hended he hpos hslots,
    Tile.landed_bufMsgCnt hended he, fun _ hwr hcnt => Tile.reg_landed_of_ne _ hwr hcnt⟩

/-- Settles O51: the header's handler runs on the matched tile, where it raises or enqueues. -/
theorem headerFetched : Obligations.HeaderFetched := by
  intro s k r rest t m ms p o mq e sn h hdue ht hout hq herr hcmd hh
  have hrule := memResponse_of_replyHeader hout hq herr hcmd
  subst hh
  refine ⟨fun hnone => ?noHeader, fun hdr hhdr => ⟨fun hnone => ?noAddr, fun na hna => ?fetched⟩⟩
  case noHeader => exact step_memResponse_fatal hdue ht (hrule.trans (headerFetched_of_noHeader hnone))
  case noAddr => exact step_memResponse_fatal hdue ht (hrule.trans (headerFetched_of_noAddr hhdr hnone))
  case fetched => exact step_memResponse_done hdue ht (hrule.trans (headerFetched_of_addr (t := t.matched ms mq) hhdr hna))

end MessageUnit

end Sys2Proof
end

section
/-!
PROOFS about the issue of a chunk (43_transfer_unit R352, R353): when it waits, the request it sends, the step that takes it, and
from these the obligation O47.
-/

namespace Sys2Proof

/-- The number of chunks as R352 writes it, for a buffer that holds a byte. -/
theorem Config.chunkCount_eq {c : Config} (hpos : 0 < c.bufSize) (size : Nat) :
    c.chunkCount size = (size + c.bufSize - 1) / c.bufSize := by
  rw [chunkCount, Nat.add_sub_assoc hpos]

namespace Machine

theorem Tile.free_memReq_iff {t : Tile} : t.free .memReq = true ↔ t.retry.memReq = none := by
  simp [Tile.free, Retry.slot]

/-! ## The endpoint of a chunk's sender-state -/

theorem Tile.chunkEp_cmd {t : Tile} {op : AsyncOp} {e : Nat} {ph : Phase} {sn : Snap} (h : t.cmd = .exec op e ph sn) :
    t.chunkEp .cmd = e := by
  simp [Tile.chunkEp, h]

theorem Tile.chunkEp_inb {t : Tile} {b : InbRec} (h : t.inb = .busy b) :
    t.chunkEp .inb = if b.kind = .message then b.ep else 0 := by
  simp [Tile.chunkEp, h]

/-! ## The rule -/

/-- The tile once the next chunk of its active job `a` is counted as issued and in flight. -/
def Tile.chunkCounted (t : Tile) (a : ActiveJob) : Tile :=
  { t with xfer := { t.xfer with active := some { a with issued := a.issued + 1, inflight := a.inflight + 1 } } }

theorem issueChunk_of_noJob {t : Tile} (h : t.xfer.active = none) : issueChunk t = .held := by
  simp [issueChunk, h]

section
variable {t : Tile} {a : ActiveJob} (hact : t.xfer.active = some a)
include hact

/-- With a job active, a chunk, a buffer and a free channel are all that the rule needs. -/
theorem issueChunk_of_job :
    issueChunk t =
      if a.issued < t.cfg.chunkCount a.job.size ∧ a.inflight < t.cfg.bufCount ∧ t.retry.memReq = none then
        memRequest (t.chunkCounted a) (chunkReq t a.job a.issued)
      else .held := by
  simp [issueChunk, hact, Tile.free_memReq_iff, Tile.chunkCounted]

theorem issueChunk_of_waiting
    (h : t.cfg.chunkCount a.job.size ≤ a.issued ∨ t.cfg.bufCount ≤ a.inflight ∨ t.retry.memReq ≠ none) :
    issueChunk t = .held := by
  rw [issueChunk_of_job hact, if_neg]
  rintro ⟨hleft, hbuf, hfree⟩
  obtain hdone | hfull | hbusy := h
  · exact hdone.not_gt hleft
  · exact hfull.not_gt hbuf
  · exact hbusy hfree

theorem issueChunk_of_ready (hleft : a.issued < t.cfg.chunkCount a.job.size) (hbuf : a.inflight < t.cfg.bufCount)
    (hfree : t.retry.memReq = none) : issueChunk t = memRequest (t.chunkCounted a) (chunkReq t a.job a.issued) :=
  (issueChunk_of_job hact).trans (if_pos ⟨hleft, hbuf, hfree⟩)

end

/-! ## The step that issues a chunk -/

section
variable {s : State} {k : Nat} {r : Bool} {rest : List Turn} {t : Tile}
  (hdue : s.Due (.issue k) r rest) (ht : s.tiles[k]? = some t)
include hdue ht

theorem step_issue : step s = (s.chosen r rest).settle (.next ((s.chosen r rest).commit k (issueChunk t))) := by
  rw [step_of_due hdue, perform, State.onTile_of_getElem? (s := s.chosen r rest) ht]

theorem step_issue_held (h : issueChunk t = .held) : step s = .next (s.chosen r rest) := by
  rw [step_issue hdue ht, h]
  exact State.settle_of_running hdue.running

theorem step_issue_request {t' : Tile} {q : MemReq} (h : issueChunk t = memRequest t' q) :
    step s = .next ((s.chosen r rest).send k { t' with memq := t'.memq ++ [q.ss] } (.memReq q)) := by
  have hfatal : t'.fatal = none :=
    ((issueChunk_evolves t).out _ _ h).fatal.trans (State.fatal_eq_none hdue.running ht)
  rw [step_issue hdue ht, h]
  exact State.settle_commit_done _ hdue.running hfatal

end

/-- Settles O47: the rule waits or sends `chunkReq` of the chunk numbered `issued`, which is the request the statement writes
out. -/
theorem chunkIssue : Obligations.ChunkIssue := by
  intro s k r rest t hdue ht
  refine ⟨fun hnone => step_issue_held hdue ht (issueChunk_of_noJob hnone), fun a e n hact hn hpos howner => ?_⟩
  have hcount : n = t.cfg.chunkCount a.job.size := hn.trans (Config.chunkCount_eq hpos _).symm
  have hep : e = t.chunkEp a.job.owner := by
    obtain ⟨ho, op, ph, sn, hcmd⟩ | ⟨ho, b, hinb, he⟩ := howner
    · rw [ho, Tile.chunkEp_cmd hcmd]
    · rw [ho, Tile.chunkEp_inb hinb, he]
  subst hcount hep
  refine ⟨fun hwait => ?waiting, fun hleft hbuf hfree len hlen => ?ready⟩
  case waiting => exact step_issue_held hdue ht (issueChunk_of_waiting hact hwait)
  case ready =>
    subst hlen
    exact step_issue_request hdue ht (issueChunk_of_ready hact hleft hbuf hfree)

end Machine

end Sys2Proof
end

section
/-!
PROOFS about the encodings: the command word and its decoding (30_encoding R150 to R156), byte order (20_memory R107), the message
header (30_encoding R165, R166), NoC addresses (20_memory R104, 41_memory_unit R251) and chunk geometry (43_transfer_unit R352),
and from these the obligations O1, O2, O3, O48, O58, O59 and O60.
-/

namespace Sys2Proof

/-! ## The constraints on parameters (00_scope R8) -/

/-- What `Config.valid` checks of the parameters that the proofs below speak of. -/
structure Config.Constraints (c : Config) : Prop where
  wordBytes : c.W % 8 = 0
  wordBits : 32 ≤ c.W
  opcodeNodup : (Opcode.all.map c.opcodeValue.of).Nodup
  memEp : c.memEp < c.numEndpoints
  memCoreId : c.memCoreId < 2 ^ c.W
  memBase : c.memBase < 2 ^ c.W
  memSize : c.memSize < 2 ^ c.W
  nocBits : c.nocCoreBits + c.nocEpBits + c.nocOffsetBits = 64
  bufSize : 1 ≤ c.bufSize
  bufCount : 1 ≤ c.bufCount

theorem Config.constraints {c : Config} (h : c.valid = true) : c.Constraints := by
  simp only [Config.valid, Bool.and_eq_true, decide_eq_true_eq, and_assoc] at h
  obtain ⟨hbytes, hbits, -, -, -, -, -, hnodup, hmemEp, -, hcore, hbase, hsize, -, -, hnoc, hbuf, hcount, -⟩ := h
  exact ⟨hbytes, hbits, hnodup, hmemEp, hcore, hbase, hsize, hnoc, hbuf, hcount⟩

/-! ## Fields of a number -/

/-- A field is what stands at its place, whatever stands above and below it. -/
theorem bits_of_fields {lo width high field low : Nat} (hlow : low < 2 ^ lo) (hfield : field < 2 ^ width) :
    bits (high * 2 ^ (width + lo) + field * 2 ^ lo + low) lo width = field := by
  have hsplit : high * 2 ^ (width + lo) + field * 2 ^ lo + low = low + 2 ^ lo * (field + 2 ^ width * high) := by
    rw [pow_add]; ring
  rw [bits, hsplit, Nat.add_mul_div_left _ _ (by positivity), Nat.div_eq_of_lt hlow, Nat.zero_add, Nat.add_mul_mod_self_left,
    Nat.mod_eq_of_lt hfield]

/-- A field above a number that fits below it. -/
theorem field_add_lt {lo width field low : Nat} (hlow : low < 2 ^ lo) (hfield : field < 2 ^ width) :
    field * 2 ^ lo + low < 2 ^ (width + lo) := by
  calc field * 2 ^ lo + low < (field + 1) * 2 ^ lo := by rw [Nat.succ_mul]; exact Nat.add_lt_add_left hlow _
    _ ≤ 2 ^ width * 2 ^ lo := Nat.mul_le_mul_right _ hfield
    _ = 2 ^ (width + lo) := (pow_add ..).symm

/-! ## The command word -/

@[simp] theorem Opcode.opcode_instr (o : Opcode) (e : Nat) : (o.instr e).opcode = o := by cases o <;> rfl

@[simp] theorem Opcode.ep_instr (o : Opcode) (e : Nat) : (o.instr e).ep = e := by cases o <;> rfl

@[simp] theorem Instr.instr_opcode_ep (i : Instr) : i.opcode.instr i.ep = i := by cases i <;> rfl

/-- The opcode values are distinct (00_scope R8). -/
theorem Config.Constraints.opcodeValue_inj {c : Config} (h : c.Constraints) {o p : Opcode}
    (heq : c.opcodeValue.of o = c.opcodeValue.of p) : o = p :=
  List.inj_on_of_nodup_map h.opcodeNodup o.mem_all p.mem_all heq

theorem opcodeOfValue_eq_some {c : Config} {n : Nat} {o : Opcode} (h : opcodeOfValue c n = some o) :
    c.opcodeValue.of o = n := by
  simpa using List.find?_some h

theorem opcodeOfValue_of {c : Config} (h : c.Constraints) (o : Opcode) : opcodeOfValue c (c.opcodeValue.of o) = some o := by
  cases hfind : opcodeOfValue c (c.opcodeValue.of o) with
  | none => exact absurd rfl (opcodeOfValue_eq_none_iff.1 hfind o)
  | some p => rw [h.opcodeValue_inj (opcodeOfValue_eq_some hfind)]

theorem opcodeField_cmdWord {c : Config} (h : c.valid = true) (o : Opcode) (e : Nat) :
    opcodeField c (cmdWord c o e) = c.opcodeValue.of o := by
  rw [opcodeField_eq_mod, cmdWord, Nat.add_mul_mod_self_right, Nat.mod_eq_of_lt (c.opcodeValue_lt h o)]

theorem epIdField_cmdWord {c : Config} (h : c.valid = true) (o : Opcode) {e : Nat} (he : e < 2 ^ c.epidBits) :
    epIdField c (cmdWord c o e) = e := by
  have hfield := bits_of_fields (high := 0) (c.opcodeValue_lt h o) he
  rwa [Nat.zero_mul, Nat.zero_add, Nat.add_comm] at hfield

theorem reservedField_cmdWord {c : Config} (h : c.valid = true) (o : Opcode) {e : Nat} (he : e < 2 ^ c.epidBits) :
    reservedField c (cmdWord c o e) = 0 := by
  rw [reservedField, bits, Nat.div_eq_of_lt (cmdWord_lt h o he), Nat.zero_mod]

/-- Everything a word that decodes is (40_command_engine R209, R210). -/
theorem decode_eq_ok_iff {c : Config} {v : Nat} {i : Instr} :
    decode c v = .ok i ↔
      c.opcodeBits + c.epidBits ≤ c.W ∧ reservedField c v = 0 ∧
        ∃ o, opcodeOfValue c (opcodeField c v) = some o ∧ i = o.instr (epIdField c v) := by
  by_cases hw : c.W < c.opcodeBits + c.epidBits
  · simp [decode_of_narrow hw, Nat.not_le.2 hw]
  · have hw' := Nat.not_lt.1 hw
    by_cases hres : reservedField c v = 0
    · cases hop : opcodeOfValue c (opcodeField c v) with
      | none => simp [decode_of_noOpcode hw' hres hop]
      | some o => simp [decode, hw, hw', hres, hop, eq_comm]
    · simp [decode_of_reserved hw' hres, hres]

/-- Settles O2: each field of the command word is read back. -/
theorem decodeOfEncode : Obligations.DecodeOfEncode := by
  intro c i hvalid hw hi
  have he : i.ep < 2 ^ c.epidBits := of_decide_eq_true hi
  refine ⟨(cmdWord_lt hvalid _ he).trans_le (Nat.pow_le_pow_right (by decide) hw), decode_eq_ok_iff.2 ⟨hw, ?_, i.opcode, ?_, ?_⟩⟩
  · exact reservedField_cmdWord hvalid _ he
  · rw [encode, opcodeField_cmdWord hvalid, opcodeOfValue_of (Config.constraints hvalid)]
  · rw [encode, epIdField_cmdWord hvalid _ he, Instr.instr_opcode_ep]

/-- A `W`-bit word without reserved bits has no bit above the epId field. -/
theorem lt_of_reservedField_eq_zero {c : Config} {v : Nat} (hw : c.opcodeBits + c.epidBits ≤ c.W) (hv : v < 2 ^ c.W)
    (hres : reservedField c v = 0) : v < 2 ^ (c.opcodeBits + c.epidBits) := by
  have hhigh : v / 2 ^ (c.opcodeBits + c.epidBits) < 2 ^ (c.W - (c.opcodeBits + c.epidBits)) := by
    rw [Nat.div_lt_iff_lt_mul (by positivity), ← pow_add, Nat.sub_add_cancel hw]
    exact hv
  rw [reservedField, bits, Nat.mod_eq_of_lt hhigh] at hres
  exact (Nat.div_eq_zero_iff_lt (by positivity)).1 hres

/-- Settles O3: the two fields of a word without reserved bits make up the word. -/
theorem encodeOfDecode : Obligations.EncodeOfDecode := by
  intro c v i hv hdec
  obtain ⟨hw, hres, o, hop, rfl⟩ := decode_eq_ok_iff.1 hdec
  have hep : epIdField c v = v / 2 ^ c.opcodeBits := by
    have hlt := lt_of_reservedField_eq_zero hw hv hres
    rw [pow_add] at hlt
    exact Nat.mod_eq_of_lt (Nat.div_lt_of_lt_mul hlt)
  constructor
  · rw [encode, Opcode.opcode_instr, Opcode.ep_instr, cmdWord, opcodeOfValue_eq_some hop, hep, opcodeField_eq_mod]
    exact Nat.mod_add_div' v _
  · rw [Instr.encodable, Opcode.ep_instr]
    exact decide_eq_true (Nat.mod_lt _ (by positivity))

/-- At the default parameters a word decodes to the instruction it encodes. -/
theorem decode_default {i : Instr} {v : Nat} (hi : i.encodable (Config.default 0) = true)
    (hv : encode (Config.default 0) i = v) : decode (Config.default 0) v = .ok i :=
  hv ▸ (decodeOfEncode (Config.default 0) i (by decide) (by decide) hi).2

/-- Settles O1: each word is the encoding of its instruction. -/
theorem commandWordsDecode : Obligations.CommandWordsDecode :=
  ⟨decode_default rfl rfl, decode_default rfl rfl, decode_default rfl rfl, decode_default rfl rfl, decode_default rfl rfl,
    decode_default rfl rfl, decode_default rfl rfl⟩

/-! ## NoC addresses -/

theorem Config.nocAddr_eq_none_iff (c : Config) (core ep off : Nat) :
    c.nocAddr core ep off = none ↔ ¬(core < 2 ^ c.nocCoreBits ∧ ep < 2 ^ c.nocEpBits ∧ off < 2 ^ c.nocOffsetBits) := by
  simp [nocAddr]

/-- What an address is formed from, and its number: no field overlaps another and none is cut off. -/
theorem Config.nocAddr_eq_some {c : Config} (hc : c.Constraints) {core ep off : Nat} {a : NocAddress}
    (h : c.nocAddr core ep off = some a) :
    (core < 2 ^ c.nocCoreBits ∧ ep < 2 ^ c.nocEpBits ∧ off < 2 ^ c.nocOffsetBits) ∧
      a.toNat = core * 2 ^ (c.nocEpBits + c.nocOffsetBits) + ep * 2 ^ c.nocOffsetBits + off := by
  rw [nocAddr, Option.ite_none_right_eq_some] at h
  obtain ⟨hfit, ha⟩ := h
  obtain ⟨hcore, hep, hoff⟩ := hfit
  refine ⟨⟨hcore, hep, hoff⟩, ?_⟩
  have hall : core * 2 ^ (c.nocEpBits + c.nocOffsetBits) + (ep * 2 ^ c.nocOffsetBits + off) < 2 ^ 64 := by
    rw [← hc.nocBits, Nat.add_assoc]
    exact field_add_lt (field_add_lt hoff hep) hcore
  rw [← Option.some.inj ha, BitVec.toNat_ofNat, Nat.add_assoc, Nat.mod_eq_of_lt hall]

/-- The fields of an address are what it was formed from (20_memory R104). -/
theorem Config.nocAddr_fields {c : Config} (hc : c.Constraints) {core ep off : Nat} {a : NocAddress}
    (h : c.nocAddr core ep off = some a) : c.nocCore a = core ∧ c.nocEp a = ep ∧ c.nocOff a = off := by
  obtain ⟨⟨hcore, hep, hoff⟩, ha⟩ := nocAddr_eq_some hc h
  refine ⟨?_, ?_, ?_⟩
  · rw [nocCore, ha]
    simpa [Nat.add_assoc] using bits_of_fields (high := 0) (field_add_lt hoff hep) hcore
  · rw [nocEp, ha]
    exact bits_of_fields hoff hep
  · rw [nocOff, ha]
    simpa [pow_add, Nat.add_mul, Nat.mul_assoc] using
      bits_of_fields (lo := 0) (low := 0) (high := core * 2 ^ c.nocEpBits + ep) (by simp) hoff

/-- The target of a memory request is its core, endpoint 0 and the sum of base and offset, when they fit (41_memory_unit R251). -/
theorem Config.nocTarget_eq_some {c : Config} {core base rel size : Nat} {a : NocAddress}
    (h : c.nocTarget core base rel size = some a) : c.nocAddr core 0 (base + rel) = some a := by
  rw [nocTarget, Option.ite_none_left_eq_some] at h
  exact h.2

theorem Config.nocTarget_eq_none_iff (c : Config) (core base rel size : Nat) :
    c.nocTarget core base rel size = none ↔
      2 ^ c.nocCoreBits ≤ core ∨ 2 ^ c.nocOffsetBits ≤ base + rel ∨ 2 ^ c.nocOffsetBits < base + rel + size := by
  rw [nocTarget]
  split
  next h => simp [h]
  next h =>
    have hpos : (0 : Nat) < 2 ^ c.nocEpBits := by positivity
    rw [nocAddr_eq_none_iff]
    omega

/-- The core of a request's target is the core it was formed for. -/
theorem Config.nocCore_nocTarget {c : Config} (hc : c.Constraints) {core base rel size : Nat} {a : NocAddress}
    (h : c.nocTarget core base rel size = some a) : c.nocCore a = core :=
  (nocAddr_fields hc (nocTarget_eq_some h)).1

/-- Settles O58: both forms of an address have their fields from `Config.nocAddr_fields`. -/
theorem nocAddressFields : Obligations.NocAddressFields := by
  intro c hvalid
  have hc := Config.constraints hvalid
  refine ⟨fun core ep off => ⟨c.nocAddr_eq_none_iff core ep off, fun a ha => ?_⟩,
    fun core base rel size => ⟨c.nocTarget_eq_none_iff core base rel size, fun a ha => ?_⟩⟩
  · exact ⟨(Config.nocAddr_eq_some hc ha).2, Config.nocAddr_fields hc ha⟩
  · exact Config.nocAddr_fields hc (Config.nocTarget_eq_some ha)

/-! ## Chunk geometry (43_transfer_unit R352) -/

namespace Config

variable {c : Config} (hpos : 1 ≤ c.bufSize) (size : Nat)
include hpos

/-- A number is below the chunk count exactly when its chunk has a first byte. -/
theorem lt_chunkCount_iff (k : Nat) : k < c.chunkCount size ↔ k * c.bufSize < size := by
  rw [chunkCount, Nat.lt_div_iff_mul_lt hpos]
  omega

theorem chunkCount_covers : size ≤ c.chunkCount size * c.bufSize :=
  Nat.not_lt.1 fun h => absurd ((lt_chunkCount_iff hpos size _).2 h) (lt_irrefl _)

theorem chunkCount_eq_zero_iff : c.chunkCount size = 0 ↔ size = 0 := by
  have h := lt_chunkCount_iff hpos size 0
  omega

/-- The last chunk's number is one below the count, and its chunk has a first byte. -/
theorem chunkCount_tight : c.chunkCount size * c.bufSize < size + c.bufSize := by
  have h : c.chunkCount size * c.bufSize ≤ size + (c.bufSize - 1) := Nat.div_mul_le_self _ _
  omega

end Config

/-- A chunk's data is what a full buffer would hold of the job's data from the chunk on. -/
theorem Config.chunkData_eq {c : Config} {size : Nat} {data : List Byte} (hlen : data.length = size) (k : Nat) :
    c.chunkData size data k = (data.drop (k * c.bufSize)).take c.bufSize := by
  rw [chunkData, chunkLen, ← hlen, ← List.length_drop, ← List.take_eq_take_min]

/-- The first `n` chunks of a job are the first bytes of its data. -/
theorem Config.flatten_chunkData {c : Config} {size : Nat} {data : List Byte} (hlen : data.length = size) (n : Nat) :
    ((List.range n).map fun k => c.chunkData size data k).flatten = data.take (n * c.bufSize) := by
  induction n with
  | zero => simp
  | succ n ih =>
    rw [List.range_succ, List.map_append, List.flatten_append, ih, List.map_singleton, List.flatten_singleton,
      chunkData_eq hlen, Nat.succ_mul, List.take_add]

theorem Config.chunkLast_iff (c : Config) (size k : Nat) : c.chunkLast size k = true ↔ k + 1 = c.chunkCount size :=
  decide_eq_true_iff

/-- Settles O48: the chunk count is the number of buffers that the bytes fill or begin to fill. -/
theorem chunkGeometry : Obligations.ChunkGeometry := by
  intro c size data hvalid hlen
  have hpos : 1 ≤ c.bufSize := (Config.constraints hvalid).bufSize
  have hcovers := Config.chunkCount_covers hpos size
  refine ⟨?flatten, (Config.chunkCount_eq_zero_iff hpos size).symm, hcovers, Config.chunkCount_tight hpos size, fun k hk => ?chunk⟩
  case flatten => rw [Config.flatten_chunkData hlen, List.take_of_length_le (hlen.trans_le hcovers)]
  case chunk =>
    have hfirst : k * c.bufSize < size := (Config.lt_chunkCount_iff hpos size k).1 hk
    have hnext : k + 1 < c.chunkCount size ↔ k * c.bufSize + c.bufSize < size := by
      rw [Config.lt_chunkCount_iff hpos, Nat.succ_mul]
    rw [← Bool.not_eq_true, Config.chunkLast_iff, Config.chunkData, List.length_take, List.length_drop, hlen, Config.chunkLen]
    omega

/-! ## Byte order (20_memory R107) -/

namespace Machine

theorem natToBytes_getElem? {n j : Nat} (h : j < n) (v : Nat) :
    (natToBytes n v)[j]? = some (BitVec.ofNat 8 (v / 2 ^ (8 * j))) := by
  induction n generalizing j v with
  | zero => omega
  | succ n ih =>
    cases j with
    | zero => simp [natToBytes]
    | succ j =>
      rw [natToBytes, List.getElem?_cons_succ, ih (Nat.lt_of_succ_lt_succ h), Nat.div_div_eq_div_mul]
      rw [Nat.mul_succ, pow_add, Nat.mul_comm 256]
      rfl

theorem bytesToNat_natToBytes_mod (n v : Nat) : bytesToNat (natToBytes n v) = v % 2 ^ (8 * n) := by
  induction n generalizing v with
  | zero => simp [natToBytes, bytesToNat, Nat.mod_one]
  | succ n ih =>
    rw [natToBytes, bytesToNat, ih, BitVec.toNat_ofNat, Nat.mul_succ, Nat.add_comm (8 * n), pow_add]
    exact (Nat.mod_mul ..).symm

/-- Settles O60. -/
theorem littleEndianBytes : Obligations.LittleEndianBytes :=
  fun n v => ⟨length_natToBytes n v, fun _ hj => natToBytes_getElem? hj v, bytesToNat_natToBytes_mod n v⟩

/-! ## The message header (30_encoding R165, R166) -/

theorem encodeHeader_eq_none_iff (len core sep rep : Nat) (isReply : Bool) :
    encodeHeader len core sep rep isReply = none ↔ ¬(len < 2 ^ 32 ∧ core < 2 ^ 16 ∧ sep < 2 ^ 8 ∧ rep < 2 ^ 8) := by
  simp only [encodeHeader, ite_eq_right_iff, reduceCtorEq, imp_false]

/-- The fields of a header that is encoded fit, and its bytes are theirs. -/
theorem encodeHeader_eq_some {len core sep rep : Nat} {isReply : Bool} {b : List Byte}
    (h : encodeHeader len core sep rep isReply = some b) :
    (len < 2 ^ 32 ∧ core < 2 ^ 16 ∧ sep < 2 ^ 8 ∧ rep < 2 ^ 8) ∧
      b = natToBytes 4 len ++ natToBytes 2 core ++ natToBytes 1 sep ++ natToBytes 1 rep ++ [if isReply then 1 else 0]
        ++ List.replicate 7 0 := by
  rw [encodeHeader, Option.ite_none_right_eq_some] at h
  exact ⟨h.1, (Option.some.inj h.2).symm⟩

/-- A receiver reads the first eight bytes and bit 0 of the ninth (30_encoding R166). -/
theorem decodeHeader_congr {b b' : List Byte} {f f' : Byte} (htake : b.take 8 = b'.take 8) (hf : b[8]? = some f)
    (hf' : b'[8]? = some f') (hbit : f.getLsbD 0 = f'.getLsbD 0) : decodeHeader b = decodeHeader b' := by
  have hdrop : ∀ m n, m + n ≤ 8 → (b.drop m).take n = (b'.drop m).take n := by
    intro m n hmn
    have hpart := congrArg (fun l : List Byte => (l.drop m).take n) htake
    simpa only [List.drop_take, List.take_take, Nat.min_eq_left (Nat.le_sub_of_add_le' hmn)] using hpart
  have hfirst : b.take 4 = b'.take 4 := by simpa using hdrop 0 4 (by decide)
  have hflag : b.getD 8 0 = f ∧ b'.getD 8 0 = f' := by simp [List.getD_eq_getElem?_getD, hf, hf']
  simp only [decodeHeader, hfirst, hdrop 4 2 (by decide), hdrop 6 1 (by decide), hdrop 7 1 (by decide), hflag.1, hflag.2,
    hbit]

/-- A header that is encoded is read back field by field. -/
theorem decodeHeader_encodeHeader {len core sep rep : Nat} {isReply : Bool} {b : List Byte}
    (h : encodeHeader len core sep rep isReply = some b) :
    decodeHeader b = { length := len, senderCore := core, senderEp := sep, replyEp := rep, isReply := isReply } := by
  obtain ⟨⟨hlen, hcore, hsep, hrep⟩, rfl⟩ := encodeHeader_eq_some h
  have h4 := bytesToNat_natToBytes 4 len hlen
  have h2 := bytesToNat_natToBytes 2 core hcore
  have h1 := bytesToNat_natToBytes 1 sep hsep
  have h0 := bytesToNat_natToBytes 1 rep hrep
  have hflag : (if isReply then 1 else 0 : Byte).getLsbD 0 = isReply := by cases isReply <;> rfl
  simp only [natToBytes] at h4 h2 h1 h0
  simp only [decodeHeader, natToBytes, List.cons_append, List.nil_append, List.take_succ_cons, List.take_zero,
    List.drop_succ_cons, List.drop_zero, List.getD_cons_succ, List.getD_cons_zero, h4, h2, h1, h0, hflag]

/-- Settles O59: the bytes of a header stand in the order of its fields. -/
theorem headerCodec : Obligations.HeaderCodec := by
  refine ⟨fun len core sep rep isReply => ⟨encodeHeader_eq_none_iff .., fun b hb => ?_⟩,
    fun b b' f f' htake hf hf' hbit => decodeHeader_congr htake hf hf' hbit⟩
  obtain ⟨-, hbytes⟩ := encodeHeader_eq_some hb
  have h4 : ∀ n < 4, b[n]? = some (BitVec.ofNat 8 (len / 2 ^ (8 * n))) := fun n hn => by
    rw [← natToBytes_getElem? hn, hbytes]
    simp only [List.append_assoc]
    exact List.getElem?_append_left (by simpa using hn)
  have h2 : ∀ n < 2, b[4 + n]? = some (BitVec.ofNat 8 (core / 2 ^ (8 * n))) := fun n hn => by
    rw [← natToBytes_getElem? hn, hbytes]
    simp only [List.append_assoc]
    rw [List.getElem?_append_right (by simp), length_natToBytes, Nat.add_sub_cancel_left]
    exact List.getElem?_append_left (by simpa using hn)
  have hzeros : ∀ n, 9 ≤ n → n < 16 → b[n]? = some 0 := fun n hlo hhi => by
    rw [hbytes, List.getElem?_append_right (by simpa using hlo), List.getElem?_replicate, if_pos (by simp; omega)]
  refine ⟨?_, hzeros, ?_, h4, h2, ?_, ?_, decodeHeader_encodeHeader hb⟩ <;> simp [hbytes, natToBytes]

end Machine

end Sys2Proof
end

section
/-!
PROOFS about what one event does to the tiles. `Tile.Does` lists every new state a rule can give its tile, with the item it offers;
one lemma for each rule says that this is all it can do.
-/

namespace Sys2Proof.Machine

/-! ## Everything a rule can do to its tile -/

/-- The tile once it has entered the request `r` in `dtu.nocq` (44_async_completion R390). -/
def Tile.requested (t : Tile) (requester : Requester) (ep : Nat) (r : NocReq) (origAddr : Nat) : Tile :=
  { t with
    nextId := t.nextId + 1
    nocq := t.nocq ++ [{ id := t.nextId, kind := r.kind, ep := ep, requester := requester, origAddr := origAddr,
                         size := r.size, dir := r.dir }] }

/-- A job is complete: it had no byte to move as it was activated, or its last chunk was answered. `u` is the tile with no job
active, before the continuation (43_transfer_unit R355, R357). -/
inductive Tile.Ends (t : Tile) (k : Nat) : Event → Owner → Tile → Prop
  | empty {j : Job} {q : List Job} (active : t.xfer.active = none) (queue : t.xfer.queue = j :: q) (size : j.size = 0) :
      t.Ends k (.activate k) j.owner { t with xfer := { queue := q, active := none } }
  | last {m : MemResp} {ms : List MemResp} {p i len : Nat} {o : Owner} {mq : List MemSS} {a : ActiveJob}
      (out : t.memOut = m :: ms) (memq : t.memq = .transfer p o i true len :: mq) (active : t.xfer.active = some a) :
      t.Ends k (.memResponse k) a.job.owner (t.matched ms mq).jobEnded

/-- The completion of a job changes nothing else before the continuation. -/
theorem Tile.Ends.frame {t u : Tile} {k : Nat} {e : Event} {o : Owner} (h : t.Ends k e o u) :
    u = { t with xfer := { queue := u.xfer.queue, active := none }, memOut := u.memOut, memq := u.memq } := by
  cases h <;> rfl

theorem Tile.Ends.cmd {t u : Tile} {k : Nat} {e : Event} {o : Owner} (h : t.Ends k e o u) : u.cmd = t.cmd := by
  rw [h.frame]

theorem Tile.Ends.inb {t u : Tile} {k : Nat} {e : Event} {o : Owner} (h : t.Ends k e o u) : u.inb = t.inb := by
  rw [h.frame]

/-- Everything the rule of event `e` can do to its tile `t`, with index `k` in the system `s`: the tile's new state and the item it
offers. -/
inductive Tile.Does (s : State) (k : Nat) (t : Tile) : Event → Tile → Option Item → Prop
  | idled {p : Nat} {org : Origin} (cmd : t.cmd = .scheduled org) (word : t.decoded = .ok (.idle p)) :
      t.Does s k (.dispatch k) { t with cmd := .idle } none
  | woken {p : Nat} {org : Origin} (cmd : t.cmd = .scheduled org) (word : t.decoded = .ok (.wakeupCore p)) :
      t.Does s k (.dispatch k) t.wake.retire none
  | ringAdvanced {p : Nat} {org : Origin} (cmd : t.cmd = .scheduled org) :
      t.Does s k (.dispatch k) (t.advanceRing p).retire none
  | commandDenied {org : Origin} (cmd : t.cmd = .scheduled org) (code : DenialCode) (p addr size : Nat) :
      t.Does s k (.dispatch k) (t.deny code .cmd p addr size).retire none
  | payloadQueued {org : Origin} {op : AsyncOp} (cmd : t.cmd = .scheduled org) (hop : op = .send ∨ op = .write) (p : Nat)
      (sn sn' : Snap) :
      t.Does s k (.dispatch k) ({ t with cmd := .exec op p .xferOut sn }.enqueue (payloadJob sn')) none
  | headerAsked {org : Origin} (cmd : t.cmd = .scheduled org) (free : t.retry.memReq = none) (p addr : Nat) (sn : Snap) :
      t.Does s k (.dispatch k) { t with cmd := .exec .reply p .hdr sn, memq := t.memq ++ [.header p .cmd] }
        (some (.memReq { op := .read, addr := addr, len := headerSize, data := [], ss := .header p .cmd }))
  | dataAsked {org : Origin} {r : NocReq} (cmd : t.cmd = .scheduled org) (kind : r.kind = .readReq) (p : Nat) (sn : Snap) :
      t.Does s k (.dispatch k) ({ t with cmd := .exec .read p .waitData sn }.requested .cmd p r 0)
        (some (.nocReq { r with ss := t.nextId }))
  | activated {j : Job} {q : List Job} (active : t.xfer.active = none) (queue : t.xfer.queue = j :: q) (size : j.size ≠ 0) :
      t.Does s k (.activate k)
        { t with xfer := { queue := q, active := some { job := j, issued := 0, completed := 0, inflight := 0, acc := [] } } }
        none
  | chunkIssued {a : ActiveJob} (active : t.xfer.active = some a) (left : a.issued < t.cfg.chunkCount a.job.size)
      (buffer : a.inflight < t.cfg.bufCount) (free : t.retry.memReq = none) :
      t.Does s k (.issue k) { t.chunkCounted a with memq := t.memq ++ [(chunkReq t a.job a.issued).ss] }
        (some (.memReq (chunkReq t a.job a.issued)))
  | memoryAnswered {q : MemReq} {qs : List MemReq} (memIn : t.memIn = q :: qs) :
      t.Does s k (.memAnswer k)
        { t with mem := (memServe t.cfg t.mem q).1, memIn := qs, memOut := t.memOut ++ [(memServe t.cfg t.mem q).2] } none
  | chunkCollected {m : MemResp} {ms : List MemResp} {p i len : Nat} {o : Owner} {mq : List MemSS} {a : ActiveJob}
      (out : t.memOut = m :: ms) (memq : t.memq = .transfer p o i false len :: mq) (active : t.xfer.active = some a)
      (acc : List Byte) :
      t.Does s k (.memResponse k)
        { t.matched ms mq with
          xfer :=
            { t.xfer with
              active := some { a with acc := acc, completed := a.completed + 1, inflight := a.inflight - 1 } } }
        none
  | headerArrived {m : MemResp} {ms : List MemResp} {p : Nat} {o : Owner} {mq : List MemSS} {ep : Nat} {sn : Snap}
      (out : t.memOut = m :: ms) (memq : t.memq = .header p o :: mq) (cmd : t.cmd = .exec .reply ep .hdr sn) (sn' sn'' : Snap) :
      t.Does s k (.memResponse k)
        ({ t.matched ms mq with cmd := .exec .reply ep .xferOut sn' }.enqueue (payloadJob sn'')) none
  | readLanded {e : Event} {u : Tile} {ep : Nat} {sn : Snap} (ends : t.Ends k e .cmd u) (cmd : u.cmd = .exec .read ep .xferIn sn) :
      t.Does s k e u.retire none
  | payloadSent {e : Event} {u : Tile} {op : AsyncOp} {ep : Nat} {sn : Snap} {r : NocReq} (ends : t.Ends k e .cmd u)
      (cmd : u.cmd = .exec op ep .xferOut sn)
      (hop : (op = .write ∧ r.kind = .writeReq) ∨ ((op = .send ∨ op = .reply) ∧ r.kind = .message)) :
      t.Does s k e ({ u with cmd := .exec op ep .waitAck sn }.requested .cmd ep r 0) (some (.nocReq { r with ss := u.nextId }))
  | messageLanded {e : Event} {u : Tile} {b : InbRec} (ends : t.Ends k e .inb u) (inb : u.inb = .busy b)
      (kind : b.kind = .message) (q : NocResp) :
      t.Does s k e (u.landed b) (some (.nocResp b.src q))
  | memoryServed {e : Event} {u : Tile} {b : InbRec} (ends : t.Ends k e .inb u) (inb : u.inb = .busy b)
      (kind : b.kind ≠ .message) (q : NocResp) :
      t.Does s k e { u with inb := .idle } (some (.nocResp b.src q))
  | commandAnswered {i : Nat} {q : NocResp} {n : NocSS} (find : t.nocq.find? (fun x => x.id == q.ss) = some n)
      (requester : n.requester = .cmd) (awaits : t.cmd.awaits = some n.kind) :
      t.Does s k (.deliver i k) (t.consumed q.ss).retire none
  | dataArrived {i : Nat} {q : NocResp} {n : NocSS} {ep : Nat} {sn : Snap}
      (find : t.nocq.find? (fun x => x.id == q.ss) = some n) (requester : n.requester = .cmd)
      (cmd : t.cmd = .exec .read ep .waitData sn) (awaits : t.cmd.awaits = some n.kind) (loc size : Nat) (data : List Byte) :
      t.Does s k (.deliver i k)
        ({ t.consumed q.ss with cmd := .exec .read ep .xferIn sn }.enqueue
          { dir := .fromNoc, loc := loc, size := size, data := data, owner := .cmd })
        none
  | cpuAnswered {i : Nat} {q : NocResp} {n : NocSS} (find : t.nocq.find? (fun x => x.id == q.ss) = some n)
      (requester : n.requester = .cpu) (a : CpuResp) :
      t.Does s k (.deliver i k) (t.consumed q.ss) (some (.cpuResp a))
  | inboundDenied {i : Nat} (d : Denial) (src : Nat) (q : NocResp) :
      t.Does s k (.deliver i k) { t with log := t.log ++ [d] } (some (.nocResp src q))
  | messageAccepted {i : Nat} {b : InbRec} {j : Job} (inb : t.inb = .idle) (kind : b.kind = .message)
      (slot : b.slot = t.ep b.ep .bufWrPtr) (slots : b.slots = t.ep b.ep .bufSlots)
      (count : t.ep b.ep .bufMsgCnt < t.ep b.ep .bufSlots) (owner : j.owner = .inb) (dir : j.dir = .fromNoc) :
      t.Does s k (.deliver i k) ({ t with inb := .busy b }.enqueue j) none
  | memoryAccepted {i : Nat} {b : InbRec} {j : Job} (inb : t.inb = .idle) (kind : b.kind ≠ .message) (owner : j.owner = .inb)
      (dir : j.dir = if b.dir = .read then .toNoc else .fromNoc) :
      t.Does s k (.deliver i k) ({ t with inb := .busy b }.enqueue j) none
  | accessed {e : Event} {a : RegAccess} {org : Origin} {t' : Tile} {reply : RegReply} {item : Item}
      (event : (∃ i, e = .deliver i k) ∨ (∃ q, e = .cpu k q) ∨ ∃ i, e = .cpuAgain k i)
      (access : regAccess t a org = .ok (t', reply)) (stores : s.softwareStores e = (a.stores t.cfg).map fun i => (k, i))
      (channel : item.channel ≠ .memReq) :
      t.Does s k e t'.recompute (some item)
  | retried {ch : Channel} {item : Item} (slot : t.retry.slot ch = some item) :
      t.Does s k (.retryReady k ch) { t with retry := t.retry.clear ch } (some item)
  | suspended (may : t.maySuspend = true) : t.Does s k (.suspend k) { t with suspended := true } none
  | waits (q : CpuReq) : t.Does s k (.cpu k q) { t with port := t.port ++ [q] } none
  | cpuDenied {e : Event} (d : Denial) (a : CpuResp) : t.Does s k e { t with log := t.log ++ [d] } (some (.cpuResp a))
  | forwarded {e : Event} {r : NocReq} (ep addr : Nat) :
      t.Does s k e (t.requested .cpu ep r addr) (some (.nocReq { r with ss := t.nextId }))
  | accessedLocally {e : Event} (mem : Memory) (wf : t.mem.wf → mem.wf) (inbox : List CpuResp) :
      t.Does s k e { t with mem := mem, inbox := inbox } none

/-- Whatever a rule answers, its tile's new state is one that the rule can give. -/
def Result.Does (s : State) (k : Nat) (t : Tile) (e : Event) (r : Result) : Prop := ∀ t' o, r = .done t' o → t.Does s k e t' o

namespace Result.Does

variable {s : State} {k : Nat} {t : Tile} {e : Event}

theorem held : Result.Does s k t e .held := fun _ _ h => nomatch h

theorem fatal (c : FatalCode) : Result.Does s k t e (.fatal c) := fun _ _ h => nomatch h

theorem done {t' : Tile} {o : Option Item} (h : t.Does s k e t' o) : Result.Does s k t e (.done t' o) := by
  rintro _ _ ⟨⟩
  exact h

end Result.Does

open Result.Does

/-! ## The rules of the seven instructions -/

/-- The rule of an instruction (40_command_engine R214). -/
def instrRule : Instr → Tile → Result
  | .idle _ => idleRule
  | .send ep => sendRule ep
  | .reply ep => replyRule ep
  | .read ep => remoteAccess .read ep (readStart ep)
  | .write ep => remoteAccess .write ep (writeStart ep)
  | .incReadPtr ep => incReadPtrRule ep
  | .wakeupCore _ => wakeupCoreRule

/-- An instruction runs its rule through the shared dispatch. -/
theorem exec_eq_dispatchOn (i : Instr) (s : State) :
    exec i s = dispatchOn (dispatchChannels i.opcode) i.ep (instrRule i) s := by
  cases i <;> rfl

section
variable (s : State) (k : Nat) {t : Tile} {org : Origin} (hcmd : t.cmd = .scheduled org)
include hcmd

theorem sendRule_does (p : Nat) : (sendRule p t).Does s k t (.dispatch k) := by
  unfold sendRule
  simp only
  split
  · exact fatal _
  · split
    · exact fatal _
    · split
      · exact fatal _
      · exact done (.payloadQueued hcmd (.inl rfl) p _ _)

theorem replyRule_does (p : Nat) (hfree : t.retry.memReq = none) : (replyRule p t).Does s k t (.dispatch k) := by
  unfold replyRule
  simp only
  split
  · exact done (.commandDenied hcmd _ _ _ _)
  · split
    · exact done (.commandDenied hcmd _ _ _ _)
    · split
      · exact fatal _
      · exact done (.headerAsked hcmd hfree p _ _)

theorem remoteAccess_does (need : Dir) (p : Nat) {start : Snap → Tile → Result}
    (hstart : ∀ sn, (start sn t).Does s k t (.dispatch k)) : (remoteAccess need p start t).Does s k t (.dispatch k) := by
  unfold remoteAccess
  simp only
  split
  · exact done (.commandDenied hcmd _ _ _ _)
  · split
    · exact fatal _
    · split
      · exact fatal _
      · exact hstart _

theorem instrRule_does {i : Instr} (hword : t.decoded = .ok i) (hfree : t.allFree (dispatchChannels i.opcode) = true) :
    (instrRule i t).Does s k t (.dispatch k) := by
  cases i with
  | idle p => exact done (.idled hcmd hword)
  | incReadPtr p => exact done (.ringAdvanced hcmd)
  | wakeupCore p => exact done (.woken hcmd hword)
  | send p => exact sendRule_does s k hcmd p
  | reply p =>
    exact replyRule_does s k hcmd p (Tile.free_memReq_iff.1 (Tile.allFree_iff.1 hfree .memReq List.mem_cons_self))
  | read p => exact remoteAccess_does s k hcmd .read p fun sn => done (.dataAsked hcmd rfl p sn)
  | write p => exact remoteAccess_does s k hcmd .write p fun sn => done (.payloadQueued hcmd (.inr rfl) p sn sn)

end

/-! ## The transfer unit and the memory -/

theorem respond_does {s : State} {k : Nat} {t u : Tile} {e : Event} {src : Nat} {kind : NocKind} {ss : Nat} {st : Status}
    {data : List Byte} (h : ∀ q, t.Does s k e u (some (.nocResp src q))) : (respond u src kind ss st data).Does s k t e :=
  done (h _)

section
variable {s : State} {k : Nat} {t u : Tile} {e : Event}

theorem commandJobDone_does (ends : t.Ends k e .cmd u) (acc : List Byte) : (commandJobDone acc u).Does s k t e := by
  unfold commandJobDone
  split
  next hcmd =>
    split
    · exact done (.payloadSent ends hcmd (.inr ⟨.inl rfl, rfl⟩))
    · exact held
  next hcmd =>
    split
    · exact done (.payloadSent ends hcmd (.inr ⟨.inr rfl, rfl⟩))
    · exact held
  next hcmd =>
    split
    · exact done (.payloadSent ends hcmd (.inl ⟨rfl, rfl⟩))
    · exact held
  next hcmd => exact done (.readLanded ends hcmd)
  next => exact held

theorem inboundJobDone_does (ends : t.Ends k e .inb u) (acc : List Byte) : (inboundJobDone acc u).Does s k t e := by
  unfold inboundJobDone
  split
  · exact held
  next b hinb =>
    split
    · split
      next hkind => exact respond_does (.messageLanded ends hinb hkind)
      next hkind => exact respond_does (.memoryServed ends hinb hkind)
    · exact held

/-- The completion of a job, from a tile that differs from `u` in the active job alone. -/
theorem jobDone_does {o : Owner} {v : Tile} (ends : t.Ends k e o u) (hv : v.jobEnded = u) (acc : List Byte) :
    (jobDone o acc v).Does s k t e := by
  subst hv
  cases o
  · exact commandJobDone_does ends acc
  · exact inboundJobDone_does ends acc

end

section
variable (s : State) (k : Nat) (t : Tile)

theorem activateJob_does : (activateJob t).Does s k t (.activate k) := by
  unfold activateJob
  split
  next j q hactive hqueue =>
    simp only
    split
    next hsize => exact jobDone_does (.empty hactive hqueue hsize) rfl []
    next hsize => exact done (.activated hactive hqueue hsize)
  · exact held

theorem issueChunk_does : (issueChunk t).Does s k t (.issue k) := by
  cases hactive : t.xfer.active with
  | none => exact issueChunk_of_noJob hactive ▸ held
  | some a =>
    rw [issueChunk_of_job hactive]
    split
    next h => exact done (.chunkIssued hactive h.1 h.2.1 h.2.2)
    · exact held

theorem memAnswer_does : (memAnswer t).Does s k t (.memAnswer k) := by
  cases hin : t.memIn with
  | nil => simp [memAnswer, hin, held]
  | cons q qs => exact memAnswer_of_cons hin ▸ done (.memoryAnswered hin)

/-- What the error flag and a held completion leave of a rule's result. -/
theorem Result.Does.guarded {e : Event} {res : Result} (h : res.Does s k t e) (err : Bool) :
    (if res.isHeld then .held else if err then .fatal .transactionError else res : Result).Does s k t e := by
  split
  · exact held
  · split
    · exact fatal _
    · exact h

theorem memResponse_does : (memResponse t).Does s k t (.memResponse k) := by
  unfold memResponse
  split
  next m ms ss mq hout hmemq =>
    simp only
    split
    next last _ =>
      unfold transferResponse
      split
      · exact held
      next a hactive =>
        apply Result.Does.guarded
        cases last with
        | true => exact jobDone_does (.last hout hmemq hactive) rfl _
        | false => exact done (.chunkCollected hout hmemq hactive _)
    next =>
      unfold headerResponse
      split
      next hcmd =>
        split
        · exact fatal _
        · unfold Machine.headerFetched
          simp only
          split
          · exact fatal _
          · split
            · exact fatal _
            · exact done (.headerArrived hout hmemq hcmd _ _)
      · exact held
  · exact held

/-! ## NoC responses -/

/-- The handlers of a command's response wait for what the command awaits. -/
theorem responseHandler_does (i : Nat) {q : NocResp} {n : NocSS} (hfind : t.nocq.find? (fun x => x.id == q.ss) = some n) :
    (responseHandler n q (t.consumed q.ss)).Does s k t (.deliver i k) := by
  unfold responseHandler
  split
  next hreq hkind =>
    split
    next hcmd =>
      have hawaits : t.cmd.awaits = some n.kind := by rw [show t.cmd = _ from hcmd, hkind]; rfl
      unfold readComplete
      split
      · exact done (.commandAnswered hfind hreq hawaits)
      · split
        · exact fatal _
        · exact done (.dataArrived hfind hreq hcmd hawaits _ _ _)
    · exact fatal _
  next hreq hkind =>
    split
    next hcmd => exact done (.commandAnswered hfind hreq (by rw [show t.cmd = _ from hcmd, hkind]; rfl))
    · exact fatal _
  next hreq hkind =>
    split
    next hcmd => exact done (.commandAnswered hfind hreq (by rw [show t.cmd = _ from hcmd, hkind]; rfl))
    next hcmd => exact done (.commandAnswered hfind hreq (by rw [show t.cmd = _ from hcmd, hkind]; rfl))
    · exact fatal _
  next hreq _ =>
    unfold forwardedResponse
    split
    · exact fatal _
    · exact done (.cpuAnswered hfind hreq _)
  · exact fatal _

theorem nocResponse_does (i : Nat) (q : NocResp) : (nocResponse q t).Does s k t (.deliver i k) := by
  unfold nocResponse
  split
  · exact fatal _
  next n hfind =>
    split
    · exact held
    · split
      · exact fatal _
      · split
        · exact fatal _
        · exact responseHandler_does s k t i hfind

/-! ## Inbound requests -/

theorem externalise_does (i : Nat) (q : NocReq) {res : Result} (h : res.Does s k t (.deliver i k)) :
    (externalise q t res).Does s k t (.deliver i k) := by
  unfold externalise
  split
  · split
    · exact respond_does (.inboundDenied _ _)
    · exact fatal _
  · exact h

variable {t} (hinb : t.inb = .idle)
include hinb

theorem inboundMessage_does (i : Nat) (q : NocReq) : (inboundMessage q t).Does s k t (.deliver i k) := by
  unfold inboundMessage
  simp only
  split
  · exact fatal _
  · split
    · exact fatal _
    · split
      · exact fatal _
      · split
        · exact respond_does (.inboundDenied _ _)
        next hnone =>
          have hcount : t.ep (t.cfg.nocEp q.addr) .bufMsgCnt < t.ep (t.cfg.nocEp q.addr) .bufSlots := by
            by_contra hfull
            unfold messageDenial at hnone
            split at hnone
            · cases hnone
            · rw [if_pos (Nat.not_lt.1 hfull)] at hnone
              cases hnone
          exact done (.messageAccepted hinb rfl rfl rfl hcount rfl rfl)

theorem inboundMemory_does (i : Nat) (q : NocReq) (hkind : q.kind ≠ .message) :
    (inboundMemory q t).Does s k t (.deliver i k) := by
  unfold inboundMemory
  simp only
  split
  · exact fatal _
  · split
    · exact respond_does (.inboundDenied _ _)
    · cases hneed : q.need <;> simp only [serveMemory, hneed] <;>
        exact done (.memoryAccepted hinb hkind rfl (by rfl))

end

/-! ## The CPU's requests -/

theorem forward_ends_does (s : State) (k : Nat) {t : Tile} (e : Event) {q : CacheReq} {r : Result}
    (h : forward q t = .ends r) : r.Does s k t e := by
  have access : ∀ need, forwardAccess need q t = .ends r → r.Does s k t e := by
    intro need hn
    unfold forwardAccess at hn
    simp only at hn
    split at hn
    · cases hn; exact done (.cpuDenied _ _)
    · split at hn
      · cases hn; exact fatal _
      · split at hn <;> cases hn
        exact fatal _
  unfold forward at h
  split at h
  · cases h; exact done (.accessedLocally t.mem id t.inbox)
  · cases h; exact done (.cpuDenied _ _)
  · cases h; exact done (.cpuDenied _ _)
  · exact access _ h
  · exact access _ h

/-- When a cache-memory request is forwarded, and where to (41_memory_unit R270). -/
theorem forward_eq_forwarded_iff {q : CacheReq} {t : Tile} {need : Dir} {n : NocAddress} :
    forward q t = .forwarded need n ↔
      ((q.cls = .read ∧ need = .read) ∨ (q.cls = .write ∧ need = .write)) ∧
        t.cfg.check need q.addr q.size (t.ep t.cfg.memEp .remSize) (t.ep t.cfg.memEp .perm) = none ∧
        q.size ≤ t.cfg.maxNocPacketSize ∧
        t.cfg.nocTarget (t.ep t.cfg.memEp .tgtCore) (t.ep t.cfg.memEp .remBase) q.addr q.size = some n := by
  have access : ∀ dir, forwardAccess dir q t = .forwarded need n ↔ dir = need ∧
      t.cfg.check dir q.addr q.size (t.ep t.cfg.memEp .remSize) (t.ep t.cfg.memEp .perm) = none ∧
        q.size ≤ t.cfg.maxNocPacketSize ∧
        t.cfg.nocTarget (t.ep t.cfg.memEp .tgtCore) (t.ep t.cfg.memEp .remBase) q.addr q.size = some n := by
    intro dir
    unfold forwardAccess
    simp only
    split
    next h => simp [h]
    next h =>
      split
      next hsize => simp [Nat.not_le.2 hsize]
      next hsize => split <;> simp [*, Nat.not_lt.1 hsize]
  unfold forward
  split
  next h => simp [h]
  next h => simp [h]
  next h => simp [h]
  next h =>
    rw [access]
    cases need <;> simp [h]
  next h =>
    rw [access]
    cases need <;> simp [h]

theorem localRead_does (s : State) (k : Nat) (t : Tile) (e : Event) (a n : Nat) : t.Does s k e (localRead a n t) none :=
  .accessedLocally t.mem id _

theorem localWrite_does (s : State) (k : Nat) (t : Tile) (e : Event) (a : Nat) (d : List Byte) :
    t.Does s k e (localWrite a d t) none := by
  unfold localWrite
  split
  · exact .accessedLocally t.mem id _
  · exact .accessedLocally _ (Memory.wf_writeBytes _ _ _) _

theorem suspendCpu_does (s : State) (k : Nat) (t : Tile) : (suspendCpu t).Does s k t (.suspend k) := by
  unfold suspendCpu
  split
  next h => exact done (.suspended h)
  · exact held

/-- The answer to a functional request changes nothing but what is offered. -/
theorem forwardedResponse_cases (d : Dir) (n a : Nat) (r : NocResp) (t : Tile) :
    (∃ c, forwardedResponse d n a r t = .fatal c) ∨
      forwardedResponse d n a r t = .done t (some (.cpuResp (.memResp true r.status a r.data))) := by
  unfold forwardedResponse
  split
  · exact .inl ⟨_, rfl⟩
  · exact .inr rfl

/-! ## Everything an event can do to the system -/

/-- Everything the step of event `e` can do to the system before it is settled, in terms of the tiles. The rule of a CPU's request
starts from the tile `t0`, from whose port the request is taken. -/
inductive Effect (run : State → Host.Outcome State Fault Refusal) (e : Event) (s : State) : State → Prop
  | still {u : State} (tiles : u.tiles = s.tiles) (mode : u.mode = s.mode) : Effect run e s u
  | rule {u : State} {k : Nat} {t t0 : Tile} {r : Result} (tile : e.tile = some k) (ht : s.tiles[k]? = some t)
      (start : t0 = { t with port := t0.port }) (tiles : u.tiles = s.tiles.set k t0) (mode : u.mode = s.mode)
      (does : r.Does s k t0 e) : Effect run e s (u.commit k r)
  | issued {u v w : State} {k : Nat} {t t0 t1 : Tile} {a : RegAccess} {org : Origin} {reply : RegReply} {item : Item}
      (chained : s.mode = .atomic ∨ s.raised ≠ none) (ht : s.tiles[k]? = some t) (start : t0 = { t with port := t0.port })
      (access : regAccess t0 a org = .ok (t1, reply)) (channel : item.channel ≠ .memReq) (tiles : u.tiles = s.tiles.set k t1)
      (mode : u.mode = s.mode) (ran : v = u ∨ run u = .next v) (ends : w = v ∨ w = v.onTile k (regEnd item)) : Effect run e s w
  | functional {u : State} {k j : Nat} {t t0 target target' : Tile} {q : NocReq} {resp : NocResp} (need : Dir) (size addr : Nat)
      (kind : q.kind ≠ .message) (offers : (s.offered e).any CpuReq.isFunctional = true) (tile : e.tile = some k)
      (ht : s.tiles[k]? = some t)
      (start : t0 = { t with port := t0.port }) (tiles : u.tiles = s.tiles.set k t0) (mode : u.mode = s.mode)
      (htarget : u.tiles[j]? = some target) (served : serveFunctional q target = .ok (target', resp))
      (stores : s.softwareStores e = (q.stores target).map fun i => (j, i)) :
      Effect run e s ((u.setTile j target').onTile k (forwardedResponse need size addr resp))
  | functionalFatal {u : State} {k j : Nat} {t t0 : Tile} {c : FatalCode}
      (offers : (s.offered e).any CpuReq.isFunctional = true) (tile : e.tile = some k) (ht : s.tiles[k]? = some t)
      (start : t0 = { t with port := t0.port }) (tiles : u.tiles = s.tiles.set k t0) (mode : u.mode = s.mode) :
      Effect run e s (u.raise j c)

@[simp] theorem State.setTile_setTile (s : State) (k : Nat) (t t' : Tile) :
    (s.setTile k t).setTile k t' = s.setTile k t' := by
  simp [State.setTile]

@[simp] theorem State.setTile_refuses (s : State) (k : Nat) (t : Tile) : (s.setTile k t).refuses = s.refuses := rfl

theorem State.send_setTile (s : State) (k : Nat) (t t' : Tile) (item : Item) :
    (s.setTile k t).send k t' item = s.send k t' item := by
  cases item <;> simp only [State.send, State.handOver, State.setTile_setTile, State.setTile_refuses, State.setTile_noc]

/-- A rule's new state of its tile replaces whatever the tile was. -/
theorem State.commit_done_setTile (s : State) (k : Nat) (t t' : Tile) (o : Option Item) :
    (s.setTile k t).commit k (.done t' o) = s.commit k (.done t' o) := by
  cases o with
  | none => exact s.setTile_setTile k t t'
  | some item => exact s.send_setTile k t t' item

theorem State.set_self {s : State} {k : Nat} {t : Tile} (h : s.tiles[k]? = some t) : s.tiles.set k t = s.tiles := by
  obtain ⟨hk, rfl⟩ := List.getElem?_eq_some_iff.1 h
  exact List.set_getElem_self hk

theorem State.softwareStores_deliver {s : State} {i k : Nat} {f : Flight} {q : NocReq} {t : Tile} (hnoc : s.noc[i]? = some f)
    (hq : f.packet = .req q) (ht : s.tiles[k]? = some t) :
    s.softwareStores (.deliver i k) = (q.stores t).map fun j => (k, j) := by
  obtain ⟨d, p⟩ := f
  subst hq
  simp [State.softwareStores, hnoc, ht]

/-- The register that a functional request stores to, at the tile that serves it. -/
theorem cpuStores_functional {s : State} {k : Nat} {t t0 target : Tile} {q : CacheReq} {need : Dir} {n : NocAddress}
    (ht : s.tiles[k]? = some t) (start : t0 = { t with port := t0.port })
    (htarget : (s.tiles.set k t0)[t0.cfg.nocCore n]? = some target) (hfun : q.functional = true)
    (hfwd : forward q t0 = .forwarded need n) :
    s.cpuStores k t (.cache q) =
      ((forwardReq .cacheMemReqFunc need n q t0).stores target).map fun i => (t0.cfg.nocCore n, i) := by
  obtain ⟨port, rfl⟩ : ∃ port, t0 = { t with port := port } := ⟨_, start⟩
  have hfwd' : forward q t = .forwarded need n := by
    rw [forward_eq_forwarded_iff] at hfwd ⊢
    exact hfwd
  simp only [State.cpuStores, hfwd', hfun, if_true]
  by_cases hj : t.cfg.nocCore n = k
  · have hk : k < s.tiles.length := (List.getElem?_eq_some_iff.1 ht).1
    simp only [hj, List.getElem?_set_self hk, Option.some.injEq] at htarget
    subst htarget
    simp only [hj, ht]
    rfl
  · rw [List.getElem?_set_ne (Ne.symm hj)] at htarget
    simp only [htarget]
    rfl

namespace Effect

variable {run : State → Host.Outcome State Fault Refusal} {s : State}

/-- A rule that runs at the tile as it is. -/
theorem of_rule {e : Event} {u : State} {k : Nat} {t : Tile} {r : Result} (tile : e.tile = some k)
    (ht : s.tiles[k]? = some t) (tiles : u.tiles = s.tiles) (mode : u.mode = s.mode) (does : r.Does s k t e) :
    Effect run e s (u.commit k r) :=
  .rule tile ht rfl (tiles.trans (State.set_self ht).symm) mode does

theorem of_onTile {e : Event} {k : Nat} {rule : Tile → Result} (tile : e.tile = some k)
    (does : ∀ t, (rule t).Does s k t e) : Effect run e s (s.onTile k rule) := by
  cases ht : s.tiles[k]? with
  | none =>
    rw [State.onTile_of_none ht]
    exact .still rfl rfl
  | some t =>
    rw [State.onTile_of_getElem? ht]
    exact of_rule tile ht rfl rfl (does t)

/-- The two parts of a register access, with the chain of the command it issues between them. -/
theorem of_regComplete {e : Event} {u u' : State} {k : Nat} {t t0 t1 : Tile} {a : RegAccess} {org : Origin} {reply : RegReply}
    {item : Item} (tile : e.tile = some k)
    (event : (∃ i, e = .deliver i k) ∨ (∃ q, e = .cpu k q) ∨ ∃ i, e = .cpuAgain k i)
    (ht : s.tiles[k]? = some t) (start : t0 = { t with port := t0.port }) (tiles : u.tiles = s.tiles.set k t0)
    (mode : u.mode = s.mode) (access : regAccess t0 a org = .ok (t1, reply)) (channel : item.channel ≠ .memReq)
    (stores : s.softwareStores e = (a.stores t0.cfg).map fun i => (k, i))
    (h : regComplete run k item (u.setTile k t1) = .next u') : Effect run e s u' := by
  have hk : k < u.tiles.length := by
    rw [tiles, List.length_set]
    exact (List.getElem?_eq_some_iff.1 ht).1
  have hset : (u.setTile k t1).tiles = s.tiles.set k t1 := by simp [tiles]
  obtain ⟨v, hv, hv'⟩ := andThen_eq_next h
  have hends : u' = v ∨ u' = v.onTile k (regEnd item) := by
    split at hv' <;> cases hv'
    · exact .inl rfl
    · exact .inr rfl
  by_cases hissued : s.mode = .atomic ∧ ((u.setTile k t1).tiles[k]?).any Tile.hasScheduled = true
  · simp only [State.setTile_mode, mode, hissued.1, hissued.2, decide_true, Bool.and_self, if_true] at hv
    exact .issued (.inl hissued.1) ht start access channel hset mode (.inr hv) hends
  · rw [if_neg (by simpa [mode] using hissued)] at hv
    cases hv
    by_cases hraised : (u.setTile k t1).raised = none
    · simp only [hraised] at hv'
      cases hv'
      have hself : (u.setTile k t1).tiles[k]? = some t1 := by simp [hk]
      rw [State.onTile_of_getElem? hself, regEnd, State.commit_done_setTile]
      exact .rule tile ht start tiles mode (.done (.accessed event access stores channel))
    · refine .issued (.inr fun hs => hraised ?_) ht start access channel hset mode (.inl rfl) hends
      have hfatal : t1.fatal = none := by
        rw [(regAccess_evolves access).fatal, start]
        exact State.fatal_eq_none (t := t) hs ht
      refine State.raised_eq_none.2 fun v hv => ?_
      rw [hset] at hv
      rcases List.mem_or_eq_of_mem_set hv with hv | rfl
      · exact State.raised_eq_none.1 hs v hv
      · exact hfatal

theorem of_dispatchStep {k : Nat} {u' : State} (h : dispatchStep k s = .next u') : Effect run (.dispatch k) s u' := by
  unfold dispatchStep at h
  split at h
  · cases h
    exact .still rfl rfl
  next t ht =>
    split at h
    next hsched =>
      obtain ⟨org, hcmd⟩ : ∃ org, t.cmd = .scheduled org := by
        unfold Tile.hasScheduled at hsched
        split at hsched
        next org hcmd => exact ⟨org, hcmd⟩
        next => cases hsched
      split at h
      · cases h
        exact of_rule (r := .fatal _) rfl ht rfl rfl (.fatal _)
      next i hword =>
        rw [exec_eq_dispatchOn, dispatchOn] at h
        cases h
        rw [State.onTile_of_getElem? (s := { s with cur := k }) ht]
        refine of_rule rfl ht rfl rfl ?_
        split
        next hfree =>
          split
          · exact instrRule_does s k hcmd hword hfree
          · exact .fatal _
        · exact .held
    · cases h
      exact .still rfl rfl

theorem of_retryChannel (k : Nat) (ch : Channel) : Effect run (.retryReady k ch) s (retryChannel k ch s) := by
  unfold retryChannel
  split
  · exact .still rfl rfl
  next t ht =>
    split
    · exact .still rfl rfl
    next item hslot => exact of_rule (r := .done _ (some item)) rfl ht rfl rfl (.done (.retried hslot))

theorem of_deliver {i k : Nat} {u' : State} (h : deliver run i k s = .next u') : Effect run (.deliver i k) s u' := by
  unfold deliver at h
  split at h
  next f t hnoc ht =>
    split at h
    next htakes =>
      simp only at h
      split at h
      next q hq =>
        cases h
        exact of_rule rfl ht (by simp) (by simp) (nocResponse_does s k t i _)
      next q hq =>
        have hinb : t.inb = .idle := by
          unfold takes at htakes
          simp only [hq, Bool.and_eq_true, Tile.inboundReady, decide_eq_true_eq] at htakes
          exact htakes.2.1
        unfold inboundRequest at h
        split at h
        · cases h
          exact of_rule rfl ht rfl rfl (externalise_does s k t i q (inboundMessage_does s k hinb i q))
        next hkind =>
          split at h
          · cases h
            exact of_rule rfl ht rfl rfl (externalise_does s k t i q (.fatal _))
          · split at h
            next hwin =>
              unfold nocRegister at h
              split at h
              · cases h
                exact of_rule rfl ht rfl rfl (externalise_does s k t i q (.fatal _))
              next t' reply hacc =>
                refine of_regComplete (u := { s with noc := s.noc.eraseIdx i }) (t0 := t) rfl (.inl ⟨i, rfl⟩) ht rfl
                  (State.set_self ht).symm rfl
                  (nocRegAccess_eq_ok.1 hacc).1 Channel.noConfusion ?_ h
                rw [State.softwareStores_deliver hnoc hq ht, NocReq.stores, if_pos ⟨hkind, hwin⟩]
            · cases h
              exact of_rule rfl ht rfl rfl (externalise_does s k t i q (inboundMemory_does s k hinb i q hkind))
    · cases h
      exact .still rfl rfl
  · cases h
    exact .still rfl rfl

theorem of_functionalAccess {e : Event} {u : State} {k : Nat} {t t0 : Tile} {q : CacheReq} {need : Dir} {n : NocAddress}
    (tile : e.tile = some k) (ht : s.tiles[k]? = some t) (start : t0 = { t with port := t0.port })
    (tiles : u.tiles = s.tiles.set k t0) (mode : u.mode = s.mode) (offers : s.offered e = some (.cache q))
    (stores : s.softwareStores e = s.cpuStores k t (.cache q)) (hfun : q.functional = true)
    (hfwd : forward q t0 = .forwarded need n) : Effect run e s (functionalAccess k need n q t0 u) := by
  have hoffers : (s.offered e).any CpuReq.isFunctional = true := by simpa [offers, CpuReq.isFunctional] using hfun
  unfold functionalAccess
  simp only
  split
  · exact .functionalFatal hoffers tile ht start tiles mode
  next target htarget =>
    split
    · exact .functionalFatal hoffers tile ht start tiles mode
    next target' resp hserve =>
      refine .functional need q.size q.addr NocKind.noConfusion hoffers tile ht start tiles mode htarget hserve ?_
      rw [stores]
      exact cpuStores_functional ht start (by rw [← tiles]; exact htarget) hfun hfwd

theorem of_cpuRequest {e : Event} {u u' : State} {k : Nat} {t t0 : Tile} {q : CpuReq} {o : Host.Outcome State Fault Refusal}
    (event : (∃ q, e = .cpu k q) ∨ ∃ i, e = .cpuAgain k i) (ht : s.tiles[k]? = some t) (start : t0 = { t with port := t0.port })
    (tiles : u.tiles = s.tiles.set k t0) (mode : u.mode = s.mode) (offers : s.offered e = some q)
    (stores : s.softwareStores e = s.cpuStores k t q) (hreq : cpuRequest run k q t0 u = some o) (h : o = .next u') :
    Effect run e s u' := by
  have tile : e.tile = some k := by obtain ⟨_, rfl⟩ | ⟨_, rfl⟩ := event <;> rfl
  subst h
  unfold cpuRequest at hreq
  split at hreq
  next =>
    split at hreq
    next a =>
      have h := Option.some.inj hreq
      unfold cpuRegister at h
      split at h
      next c _ =>
        cases h
        exact .rule (r := .fatal c) tile ht start tiles mode (.fatal _)
      next t1 reply hacc =>
        refine of_regComplete tile (.inr event) ht start tiles mode hacc Channel.noConfusion ?_ h
        rw [stores, start]
        rfl
    next c =>
      cases hreq
      unfold cacheRequest
      split
      next r hends => exact .rule tile ht start tiles mode (forward_ends_does s k e hends)
      next need n hfwd =>
        split
        next hfun => exact of_functionalAccess tile ht start tiles mode offers stores hfun hfwd
        next => exact .rule tile ht start tiles mode (.done (.forwarded _ _))
    next =>
      cases hreq
      exact .rule (r := .done _ none) tile ht start tiles mode (.done (localRead_does s k t0 e _ _))
    next =>
      cases hreq
      exact .rule (r := .done _ none) tile ht start tiles mode (.done (localWrite_does s k t0 e _ _))
  next => cases hreq

theorem of_cpuIssues {k : Nat} {q : CpuReq} {u' : State} (h : cpuIssues run k q s = .next u') :
    Effect run (.cpu k q) s u' := by
  unfold cpuIssues at h
  split at h
  · cases h
    exact .still rfl rfl
  next t ht =>
    split at h
    · split at h
      next o ho =>
        exact of_cpuRequest (.inl ⟨q, rfl⟩) ht rfl (State.set_self ht).symm rfl rfl (by simp [State.softwareStores, ht]) ho h
      next =>
        cases h
        exact of_rule (r := .done _ none) rfl ht rfl rfl (.done (.waits q))
    · cases h
      exact .still rfl rfl

theorem of_cpuAgain {k i : Nat} {u' : State} (h : cpuAgain run k i s = .next u') : Effect run (.cpuAgain k i) s u' := by
  unfold cpuAgain at h
  split at h
  · cases h
    exact .still rfl rfl
  next t ht =>
    split at h
    · split at h
      · cases h
        exact .still rfl rfl
      next q hq =>
        simp only at h
        split at h
        next o ho =>
          exact of_cpuRequest (u := s.setTile k { t with port := t.port.eraseIdx i })
            (t0 := { t with port := t.port.eraseIdx i }) (.inr ⟨i, rfl⟩) ht rfl rfl rfl (by simp [State.offered, ht, hq])
            (by simp [State.softwareStores, ht, hq]) ho h
        next =>
          cases h
          exact .still rfl rfl
    · cases h
      exact .still rfl rfl

/-- Every step of one event has one of the effects listed. -/
theorem of_perform {e : Event} {u' : State} (h : perform run e s = .next u') : Effect run e s u' := by
  cases e with
  | dispatch k => exact of_dispatchStep h
  | activate k => cases h; exact of_onTile rfl (activateJob_does s k)
  | issue k => cases h; exact of_onTile rfl (issueChunk_does s k)
  | memAnswer k => cases h; exact of_onTile rfl (memAnswer_does s k)
  | memResponse k => cases h; exact of_onTile rfl (memResponse_does s k)
  | deliver i k => exact of_deliver h
  | retryReady k ch => cases h; exact of_retryChannel k ch
  | cpu k q => exact of_cpuIssues h
  | cpuAgain k i => exact of_cpuAgain h
  | suspend k => cases h; exact of_onTile rfl (suspendCpu_does s k)
  | transportError i =>
    cases h
    exact .still (by rw [transportFails_eq]) (by rw [transportFails_eq])
  | failAfter n => cases h; exact .still rfl rfl

end Effect

end Sys2Proof.Machine
end

section
/-!
PROOFS about every step, in both modes: each tile moves by what one rule can do, any number of times. From this the invariants of
the parameters, the memories, the registers, the log and the retry slots, the effect of a fatal error, and with these the
obligations O6, O10, O11, O12, O13 and O19.
-/

namespace Sys2Proof.Machine

/-! ## The offer of an item, at its tile -/

/-- The tile once its item is taken by the channel's receiver. -/
def Tile.handed (t : Tile) : Item → Tile
  | .memReq r => { t with memIn := t.memIn ++ [r] }
  | .cpuResp r => { t with inbox := t.inbox ++ [r] }
  | .nocReq _ => t
  | .nocResp _ _ => t

/-- The tile once its offer, if it makes one, is refused or taken. -/
def Tile.offering (t : Tile) (refused : Bool) : Option Item → Tile
  | none => t
  | some item => if refused then { t with retry := t.retry.fill item } else t.handed item

theorem State.commit_done_tiles (s : State) (k : Nat) (t : Tile) (o : Option Item) :
    (s.commit k (.done t o)).tiles = s.tiles.set k (t.offering s.refuses o) := by
  cases o with
  | none => rfl
  | some item =>
    cases h : s.refuses <;> cases item <;>
      simp [State.commit, State.send, State.handOver, Tile.offering, Tile.handed, h]

@[simp] theorem State.commit_mode (s : State) (k : Nat) (r : Result) : (s.commit k r).mode = s.mode := by
  obtain ⟨-, h⟩ | ⟨c, -, h⟩ | ⟨t, -, h⟩ | ⟨t, item, -, h⟩ := s.commit_cases k r <;> rw [h]
  · rfl
  · rfl
  · obtain ⟨-, h⟩ | ⟨-, ⟨_, -, h⟩ | ⟨_, _, -, h⟩ | ⟨_, -, h⟩ | ⟨_, -, h⟩⟩ := s.send_cases k t item <;> rw [h] <;> rfl

/-- Everything an offer can change at its tile. -/
theorem Tile.offering_frame (t : Tile) (b : Bool) (o : Option Item) :
    t.offering b o =
      { t with retry := (t.offering b o).retry, memIn := (t.offering b o).memIn, inbox := (t.offering b o).inbox } := by
  cases o with
  | none => rfl
  | some item => cases b <;> cases item <;> rfl

section
variable (t : Tile) (b : Bool) (o : Option Item)

@[simp] theorem Tile.offering_cfg : (t.offering b o).cfg = t.cfg := by rw [t.offering_frame b o]
@[simp] theorem Tile.offering_regs : (t.offering b o).regs = t.regs := by rw [t.offering_frame b o]
@[simp] theorem Tile.offering_cmd : (t.offering b o).cmd = t.cmd := by rw [t.offering_frame b o]
@[simp] theorem Tile.offering_inb : (t.offering b o).inb = t.inb := by rw [t.offering_frame b o]
@[simp] theorem Tile.offering_xfer : (t.offering b o).xfer = t.xfer := by rw [t.offering_frame b o]
@[simp] theorem Tile.offering_memq : (t.offering b o).memq = t.memq := by rw [t.offering_frame b o]
@[simp] theorem Tile.offering_nocq : (t.offering b o).nocq = t.nocq := by rw [t.offering_frame b o]
@[simp] theorem Tile.offering_nextId : (t.offering b o).nextId = t.nextId := by rw [t.offering_frame b o]
@[simp] theorem Tile.offering_fatal : (t.offering b o).fatal = t.fatal := by rw [t.offering_frame b o]
@[simp] theorem Tile.offering_log : (t.offering b o).log = t.log := by rw [t.offering_frame b o]
@[simp] theorem Tile.offering_denySuspend : (t.offering b o).denySuspend = t.denySuspend := by
  rw [t.offering_frame b o]
@[simp] theorem Tile.offering_suspended : (t.offering b o).suspended = t.suspended := by
  rw [t.offering_frame b o]
@[simp] theorem Tile.offering_mem : (t.offering b o).mem = t.mem := by rw [t.offering_frame b o]
@[simp] theorem Tile.offering_memOut : (t.offering b o).memOut = t.memOut := by rw [t.offering_frame b o]

end

/-! ## What evolves -/

open Tile.Evolves (of_eq)

/-- The fatal code is no part of what evolves otherwise. -/
theorem Tile.Evolves.sameFatal {t t' : Tile} (h : t.Evolves t') : t.Evolves { t' with fatal := t.fatal } :=
  ⟨h.cfg, rfl, h.log, h.length, h.reg, h.mem⟩

theorem Tile.Evolves.trans_sameFatal {t u v : Tile} (h : t.Evolves { u with fatal := t.fatal })
    (h' : u.Evolves { v with fatal := u.fatal }) : t.Evolves { v with fatal := t.fatal } :=
  h.trans ⟨h'.cfg, rfl, h'.log, h'.length, h'.reg, h'.mem⟩

theorem Tile.offering_evolves (t : Tile) (b : Bool) (o : Option Item) : t.Evolves (t.offering b o) :=
  of_eq (by simp) (by simp) (by simp) (by simp) (by simp)

theorem Tile.Ends.evolves {t u : Tile} {k : Nat} {e : Event} {o : Owner} (h : t.Ends k e o u) : t.Evolves u :=
  h.frame ▸ of_eq

/-- Everything a rule can do to its tile evolves it. -/
theorem Tile.Does.evolves {s : State} {k : Nat} {t t' : Tile} {e : Event} {o : Option Item} (h : t.Does s k e t' o) :
    t.Evolves t' := by
  cases h with
  | woken => exact (wake_evolves t).trans (.retire _)
  | ringAdvanced => exact (advanceRing_evolves t _).trans (.retire _)
  | commandDenied => exact (Tile.Evolves.deny ..).trans (.retire _)
  | memoryAnswered => exact ⟨rfl, rfl, List.prefix_rfl, rfl, fun _ hv => .inl hv, memServe_wf _ _⟩
  | readLanded ends => exact ends.evolves.trans (.retire _)
  | payloadSent ends => exact ends.evolves.trans of_eq
  | messageLanded ends => exact ends.evolves.trans (((Tile.Evolves.setEp ..).trans (.setEp ..)).trans of_eq)
  | memoryServed ends => exact ends.evolves.trans of_eq
  | commandAnswered => exact (of_eq (t' := t.consumed _)).trans (.retire _)
  | inboundDenied | cpuDenied => exact ⟨rfl, rfl, List.prefix_append .., rfl, fun _ hv => .inl hv, id⟩
  | accessed _ access => exact (regAccess_evolves access).trans (.recompute _)
  | accessedLocally mem wf => exact ⟨rfl, rfl, List.prefix_rfl, rfl, fun _ hv => .inl hv, wf⟩
  | idled | payloadQueued | headerAsked | dataAsked | activated | chunkIssued | chunkCollected | headerArrived | dataArrived
  | cpuAnswered | messageAccepted | memoryAccepted | retried | suspended | waits | forwarded => exact of_eq

/-! ## The frames of register accesses and functional requests -/

/-- Everything a register access that passes its checks can do (40_command_engine R201, R202). -/
theorem regAccess_cases {t t' : Tile} {a : RegAccess} {org : Origin} {reply : RegReply}
    (h : regAccess t a org = .ok (t', reply)) :
    regCheck t.cfg a = none ∧
      ((a.isWrite = false ∧ t' = t) ∨
        (a.isWrite = true ∧ t.cfg.regIndexOf a.addr ≠ commandReg ∧ t' = t.setReg (t.cfg.regIndexOf a.addr) a.value) ∨
        (a.isWrite = true ∧ t.cfg.regIndexOf a.addr = commandReg ∧ t.cmd = .idle ∧
          t' = { t.setReg commandReg a.value with cmd := .scheduled org })) := by
  unfold regAccess at h
  split at h
  · cases h
  next hcheck =>
    refine ⟨hcheck, ?_⟩
    simp only at h
    split at h
    next hwrite =>
      split at h
      next hindex =>
        unfold writeCommand at h
        split at h
        next hidle =>
          cases h
          exact .inr (.inr ⟨hwrite, hindex, hidle, rfl⟩)
        · cases h
      next hindex =>
        cases h
        exact .inr (.inl ⟨hwrite, hindex, rfl⟩)
    next hread =>
      cases h
      exact .inl ⟨by simpa using hread, rfl⟩

/-- A register access changes registers and, if it issues a command, the command state. -/
theorem regAccess_frame {t t' : Tile} {a : RegAccess} {org : Origin} {reply : RegReply}
    (h : regAccess t a org = .ok (t', reply)) :
    t' = { t with regs := t'.regs } ∨ (t.cmd = .idle ∧ t' = { t with regs := t'.regs, cmd := .scheduled org }) := by
  obtain ⟨-, ⟨-, rfl⟩ | ⟨-, -, rfl⟩ | ⟨-, -, hidle, rfl⟩⟩ := regAccess_cases h
  · exact .inl rfl
  · exact .inl rfl
  · exact .inr ⟨hidle, rfl⟩

theorem functionalRegister_cases {t t' : Tile} {q : NocReq} {resp : NocResp} (h : functionalRegister q t = .ok (t', resp)) :
    ∃ t1 reply, regAccess t (q.regAccess t.cfg) .noc = .ok (t1, reply) ∧ t1.cmd = t.cmd ∧ t' = t1.recompute := by
  unfold functionalRegister at h
  simp only at h
  split at h
  · cases h
  · split at h
    · cases h
    next hcommand =>
      cases hacc : nocRegAccess q t with
      | error c => simp [hacc, Except.map] at h
      | ok p =>
        simp only [hacc, Except.map, Except.ok.injEq, Prod.mk.injEq] at h
        have haccess := (nocRegAccess_eq_ok.1 hacc).1
        refine ⟨p.1, p.2, haccess, ?_, h.1.symm⟩
        obtain ⟨-, ⟨-, h1⟩ | ⟨-, -, h1⟩ | ⟨hwrite, hindex, -⟩⟩ := regAccess_cases haccess
        · rw [h1]
        · rw [h1]; rfl
        · exact absurd ⟨hwrite, hindex⟩ hcommand

theorem functionalMemory_cases {t t' : Tile} {q : NocReq} {resp : NocResp} (h : functionalMemory q t = .ok (t', resp)) :
    (∃ d, t' = { t with log := t.log ++ [d] }) ∨ ∃ m, t' = { t with mem := m } := by
  unfold functionalMemory at h
  simp only at h
  split at h
  · cases h
  · split at h
    · cases h
      exact .inl ⟨_, rfl⟩
    · split at h
      · cases h
      · split at h <;> cases h
        · exact .inr ⟨t.mem, rfl⟩
        · exact .inr ⟨_, rfl⟩

/-- Everything the service of a functional request can do to its target: a register access that is no write to COMMAND, a denial,
or an access to the memory (41_memory_unit R262, R272). -/
theorem serveFunctional_cases {t t' : Tile} {q : NocReq} {resp : NocResp} (h : serveFunctional q t = .ok (t', resp)) :
    (t.cfg.inWindow (t.cfg.nocOff q.addr) = true ∧
      ∃ t1 reply, regAccess t (q.regAccess t.cfg) .noc = .ok (t1, reply) ∧ t1.cmd = t.cmd ∧ t' = t1.recompute) ∨
      (∃ d, t' = { t with log := t.log ++ [d] }) ∨ ∃ m, t' = { t with mem := m } := by
  unfold serveFunctional at h
  split at h
  next hrule =>
    cases h
    unfold functionalRule at hrule
    split at hrule
    · cases hrule
    · split at hrule
      next hwin => exact .inl ⟨hwin, functionalRegister_cases hrule⟩
      next => exact .inr (functionalMemory_cases hrule)
  next =>
    split at h <;> cases h
    exact .inr (.inl ⟨_, rfl⟩)

theorem serveFunctional_frame {t t' : Tile} {q : NocReq} {resp : NocResp} (h : serveFunctional q t = .ok (t', resp)) :
    t' = { t with regs := t'.regs, log := t'.log, denySuspend := t'.denySuspend, mem := t'.mem } := by
  obtain ⟨-, t1, reply, haccess, hcmd, rfl⟩ | ⟨d, rfl⟩ | ⟨m, rfl⟩ := serveFunctional_cases h
  · obtain hframe | ⟨hidle, hframe⟩ := regAccess_frame haccess
    · rw [hframe]
      rfl
    · rw [hidle, hframe] at hcmd
      cases hcmd
  · rfl
  · rfl

/-! ## How a tile moves in one step -/

/-- One move of a tile inside a step: what a rule does, with its offer; an offer of a response; a change of what is outside the
sequencing state; or a command issued by a write to COMMAND, whose chain runs next (44_async_completion R400). -/
inductive Tile.Moves (m : Mode) (t : Tile) : Tile → Prop
  | does {s : State} {k : Nat} {e : Event} {t' : Tile} {o : Option Item} {b : Bool} (does : t.Does s k e t' o)
      (refused : b = true → m = .timed) : t.Moves m (t'.offering b o)
  | offers {item : Item} {b : Bool} (channel : item.channel ≠ .memReq) (refused : b = true → m = .timed) :
      t.Moves m (t.offering b (some item))
  | quiet {t' : Tile}
      (frame : t' =
        { t with
          regs := t'.regs, fatal := t'.fatal, log := t'.log, denySuspend := t'.denySuspend, mem := t'.mem, port := t'.port })
      (evolves : t.Evolves { t' with fatal := t.fatal }) : t.Moves m t'
  | issued {t' : Tile} {org : Origin} (idle : t.cmd = .idle) (frame : t' = { t with regs := t'.regs, cmd := .scheduled org })
      (evolves : t.Evolves { t' with fatal := t.fatal }) : t.Moves m t'

namespace Tile.Moves

theorem ported (m : Mode) (t : Tile) (port : List CpuReq) : t.Moves m { t with port := port } := .quiet rfl of_eq

theorem raised (m : Mode) (t : Tile) (c : FatalCode) : t.Moves m { t with fatal := some c } := .quiet rfl of_eq

theorem recomputed (m : Mode) (t : Tile) : t.Moves m t.recompute := .quiet rfl of_eq

theorem served (m : Mode) {t t' : Tile} {q : NocReq} {resp : NocResp} (h : serveFunctional q t = .ok (t', resp)) :
    t.Moves m t' := by
  have hev := serveFunctional_evolves h
  exact .quiet (by rw [serveFunctional_frame h]) hev.sameFatal

theorem accessed (m : Mode) {t t' : Tile} {a : RegAccess} {org : Origin} {reply : RegReply}
    (h : regAccess t a org = .ok (t', reply)) : t.Moves m t' := by
  have hev := regAccess_evolves h
  obtain hframe | ⟨hidle, hframe⟩ := regAccess_frame h
  · exact .quiet (by rw [hframe]) hev.sameFatal
  · exact .issued hidle hframe hev.sameFatal

/-- Every move evolves the tile, but for a fatal code. -/
theorem evolves {m : Mode} {t t' : Tile} (h : t.Moves m t') : t.Evolves { t' with fatal := t.fatal } := by
  cases h with
  | does does _ => exact (does.evolves.trans (Tile.offering_evolves ..)).sameFatal
  | offers _ _ => exact (t.offering_evolves ..).sameFatal
  | quiet _ hev => exact hev
  | issued _ _ hev => exact hev

end Tile.Moves

/-! ## How a system moves in one step -/

open Relation (ReflTransGen)

/-- Every tile moves, any number of times; mode and number of tiles stay. -/
structure State.Leads (s u : State) : Prop where
  mode : u.mode = s.mode
  length : u.tiles.length = s.tiles.length
  tile : ∀ (k : Nat) (t : Tile), s.tiles[k]? = some t → ∃ t', u.tiles[k]? = some t' ∧ ReflTransGen (Tile.Moves s.mode) t t'

namespace State.Leads

theorem of_tiles_eq {s u : State} (hm : u.mode = s.mode) (ht : u.tiles = s.tiles) : s.Leads u :=
  ⟨hm, by rw [ht], fun _ t h => ⟨t, by rw [ht, h], .refl⟩⟩

theorem trans {s u v : State} (h : s.Leads u) (h' : u.Leads v) : s.Leads v where
  mode := h'.mode.trans h.mode
  length := h'.length.trans h.length
  tile k t ht := by
    obtain ⟨t1, ht1, hmoves1⟩ := h.tile k t ht
    obtain ⟨t2, ht2, hmoves2⟩ := h'.tile k t1 ht1
    exact ⟨t2, ht2, hmoves1.trans (h.mode ▸ hmoves2)⟩

/-- One tile moves. -/
theorem of_set {s u : State} {k : Nat} {t t' : Tile} (hm : u.mode = s.mode) (ht : s.tiles[k]? = some t)
    (htiles : u.tiles = s.tiles.set k t') (hmoves : ReflTransGen (Tile.Moves s.mode) t t') : s.Leads u where
  mode := hm
  length := by rw [htiles, List.length_set]
  tile j v hv := by
    have hk : k < s.tiles.length := (List.getElem?_eq_some_iff.1 ht).1
    rw [htiles]
    by_cases hj : k = j
    · subst hj
      cases ht.symm.trans hv
      exact ⟨t', List.getElem?_set_self hk, hmoves⟩
    · exact ⟨v, (List.getElem?_set_ne hj).trans hv, .refl⟩

theorem of_raise (s : State) (k : Nat) (c : FatalCode) : s.Leads (s.raise k c) where
  mode := rfl
  length := by simp
  tile j t ht := by
    rw [State.raise_getElem?, ht]
    by_cases hj : j = k
    · exact ⟨_, if_pos hj, .single (.raised _ t c)⟩
    · exact ⟨_, if_neg hj, .refl⟩

theorem refused_timed {s : State} (h : s.refuses = true) : s.mode = .timed := by
  cases hm : s.mode with
  | atomic => rw [State.refuses_atomic hm] at h; cases h
  | timed => rfl

/-- A rule's commit moves its tile. -/
theorem of_commit {s u : State} {k : Nat} {t : Tile} {e : Event} {r : Result} (ht : u.tiles[k]? = some t)
    (does : r.Does s k t e) : u.Leads (u.commit k r) := by
  cases r with
  | held => exact of_tiles_eq rfl rfl
  | fatal c => exact of_raise u k c
  | done t' o =>
    exact of_set (u.commit_mode k _) ht (u.commit_done_tiles k t' o) (.single (.does (does t' o rfl) refused_timed))

theorem of_commit_offer {u : State} {k : Nat} {t t' : Tile} {item : Item} (ht : u.tiles[k]? = some t)
    (hmoves : ReflTransGen (Tile.Moves u.mode) t t') (channel : item.channel ≠ .memReq) :
    u.Leads (u.commit k (.done t' (some item))) :=
  of_set (u.commit_mode k _) ht (u.commit_done_tiles k t' _) (hmoves.tail (.offers channel refused_timed))

theorem of_onTile_regEnd (u : State) (k : Nat) {item : Item} (channel : item.channel ≠ .memReq) :
    u.Leads (u.onTile k (regEnd item)) := by
  cases ht : u.tiles[k]? with
  | none =>
    rw [State.onTile_of_none ht]
    exact of_tiles_eq rfl rfl
  | some t =>
    rw [State.onTile_of_getElem? ht]
    exact of_commit_offer ht (.single (.recomputed _ t)) channel

theorem of_onTile_forwardedResponse (u : State) (k : Nat) (d : Dir) (n a : Nat) (r : NocResp) :
    u.Leads (u.onTile k (forwardedResponse d n a r)) := by
  cases ht : u.tiles[k]? with
  | none =>
    rw [State.onTile_of_none ht]
    exact of_tiles_eq rfl rfl
  | some t =>
    rw [State.onTile_of_getElem? ht]
    obtain ⟨c, h⟩ | h := forwardedResponse_cases d n a r t <;> rw [h]
    · exact of_raise u k c
    · exact of_commit_offer ht .refl Channel.noConfusion

/-- Every effect of an event moves the tiles, if the chain of a command that it issues does. -/
theorem of_effect {run : State → Host.Outcome State Fault Refusal} {e : Event} {s0 s u' : State} (h0 : s0.Leads s)
    (hrun : ∀ u v, s0.Leads u → run u = .next v → s0.Leads v) (h : Effect run e s u') : s0.Leads u' := by
  have ported : ∀ {u : State} {k : Nat} {t t0 : Tile}, s.tiles[k]? = some t → t0 = { t with port := t0.port } →
      u.tiles = s.tiles.set k t0 → u.mode = s.mode → s.Leads u := by
    intro u k t t0 ht start tiles mode
    exact of_set mode ht tiles (.single (start ▸ .ported _ t _))
  cases h with
  | still tiles mode => exact h0.trans (of_tiles_eq mode tiles)
  | rule _ ht start tiles mode does =>
    have hk := (List.getElem?_eq_some_iff.1 ht).1
    exact (h0.trans (ported ht start tiles mode)).trans (of_commit (by rw [tiles, List.getElem?_set_self hk]) does)
  | issued _ ht start access channel tiles mode ran ends =>
    have hu : s0.Leads _ := h0.trans
      (of_set mode ht tiles (ReflTransGen.tail (.single (start ▸ .ported _ _ _)) (.accessed _ access)))
    have hv := ran.elim (fun h => h ▸ hu) (hrun _ _ hu)
    obtain rfl | rfl := ends
    · exact hv
    · exact hv.trans (of_onTile_regEnd _ _ channel)
  | functional need size addr _ _ _ ht start tiles mode htarget served _ =>
    have hu := h0.trans (ported ht start tiles mode)
    have hserved := hu.trans (of_set (u := State.setTile _ _ _) rfl htarget rfl (.single (.served _ served)))
    exact hserved.trans (of_onTile_forwardedResponse ..)
  | functionalFatal _ _ ht start tiles mode => exact (h0.trans (ported ht start tiles mode)).trans (of_raise ..)

theorem kept (s0 : State) : Kept s0.Leads where
  event _ hrun _ _ _ hu h := of_effect hu hrun (.of_perform h)
  raise u k c hu := hu.trans (of_raise u k c)
  turn u hu := by
    obtain ⟨hmode, htiles, -⟩ := u.nextTurn_fields
    exact hu.trans (of_tiles_eq hmode htiles)

end State.Leads

/-- In every step every tile moves by what its rules can do. -/
theorem step_leads {s s' : State} (h : step s = .next s') : s.Leads s' :=
  (State.Leads.kept s).step (.of_tiles_eq rfl rfl) h

theorem Tile.Moves.star_keeps {m : Mode} {P : Tile → Prop} (hP : ∀ t t', P t → t.Moves m t' → P t') {t t' : Tile}
    (h : ReflTransGen (Tile.Moves m) t t') (ht : P t) : P t' := by
  induction h with
  | refl => exact ht
  | tail _ hmove ih => exact hP _ _ ih hmove

/-- Every tile evolves in every step, but for a fatal code. -/
theorem State.Leads.evolves {s u : State} (h : s.Leads u) {k : Nat} {t : Tile} (ht : s.tiles[k]? = some t) :
    ∃ t', u.tiles[k]? = some t' ∧ t.Evolves { t' with fatal := t.fatal } := by
  obtain ⟨t', ht', hmoves⟩ := h.tile k t ht
  exact ⟨t', ht', Tile.Moves.star_keeps (P := fun v => t.Evolves { v with fatal := t.fatal })
    (fun _ _ hev hmove => hev.trans_sameFatal hmove.evolves) hmoves of_eq⟩

/-- What every move of a tile keeps, every step keeps. -/
theorem State.Leads.keeps {s u : State} (h : s.Leads u) {P : Tile → Prop} (hP : ∀ t t', P t → t.Moves s.mode t' → P t')
    (hs : ∀ t ∈ s.tiles, P t) : ∀ t ∈ u.tiles, P t := by
  intro t' ht'
  obtain ⟨k, hk⟩ := List.mem_iff_getElem?.1 ht'
  have hlt : k < s.tiles.length := h.length ▸ (List.getElem?_eq_some_iff.1 hk).1
  obtain ⟨v, hv, hmoves⟩ := h.tile k _ (List.getElem?_eq_getElem hlt)
  cases hk.symm.trans hv
  exact Tile.Moves.star_keeps hP hmoves (hs _ (List.getElem_mem hlt))

/-! ## The invariants that evolving keeps -/

/-- Settles O12. -/
theorem stepKeepsParameters : Obligations.StepKeepsParameters := by
  intro s s' h
  have hleads := step_leads h
  refine ⟨hleads.mode, List.ext_getElem? fun k => ?_⟩
  rw [List.getElem?_map, List.getElem?_map]
  cases ht : s.tiles[k]? with
  | none =>
    have hlen : s'.tiles.length ≤ k := hleads.length ▸ List.getElem?_eq_none_iff.1 ht
    rw [List.getElem?_eq_none hlen]
  | some t =>
    obtain ⟨t', ht', hev⟩ := hleads.evolves ht
    rw [ht']
    exact congrArg some hev.cfg

/-- Settles O19. -/
theorem stepExtendsLog : Obligations.StepExtendsLog := by
  intro s s' k t h ht
  obtain ⟨t', ht', hev⟩ := (step_leads h).evolves ht
  exact ⟨t', ht', hev.log⟩

/-- Settles O10. -/
theorem stepKeepsMemoriesCanonical : Obligations.StepKeepsMemoriesCanonical :=
  fun _ _ hs h => (step_leads h).keeps (P := fun t => t.mem.wf = true) (fun _ _ hwf hmove => hmove.evolves.mem hwf) hs

/-- Settles O11. -/
theorem stepKeepsRegistersFit : Obligations.StepKeepsRegistersFit := by
  intro s s' hs h
  refine (step_leads h).keeps (fun t t' hfit hmove => ?_) hs
  have hfit' := hfit.of_evolves hmove.evolves
  exact ⟨hfit'.length, hfit'.bound⟩

/-! ## The effect of a fatal error (44_async_completion R410) -/

/-- The first tile with a code, and its code. -/
theorem firstFatal_eq_some {l : List Tile} {n k : Nat} {c : FatalCode} (h : firstFatal l n = some (k, c)) :
    ∃ j t, k = n + j ∧ l[j]? = some t ∧ t.fatal = some c := by
  induction l generalizing n with
  | nil => cases h
  | cons t ts ih =>
    cases hf : t.fatal with
    | some d =>
      simp only [firstFatal, hf, Option.some.injEq, Prod.mk.injEq] at h
      exact ⟨0, t, h.1.symm, rfl, h.2 ▸ hf⟩
    | none =>
      simp only [firstFatal, hf] at h
      obtain ⟨j, u, hk, hu, hc⟩ := ih h
      exact ⟨j + 1, u, by omega, hu, hc⟩

theorem State.raised_eq_some {s : State} {k : Nat} {c : FatalCode} (h : s.raised = some (k, c)) :
    ∃ t, s.tiles[k]? = some t ∧ t.fatal = some c := by
  obtain ⟨j, t, hk, ht, hc⟩ := firstFatal_eq_some h
  rw [Nat.zero_add] at hk
  exact ⟨t, hk ▸ ht, hc⟩

/-- A state that records no code and leads to one that does has the tile of that code. -/
theorem State.Leads.raised_lt {s u : State} (h : s.Leads u) {k : Nat} {c : FatalCode} (hu : u.raised = some (k, c)) :
    k < s.tiles.length := by
  obtain ⟨t, ht, -⟩ := State.raised_eq_some hu
  exact h.length ▸ (List.getElem?_eq_some_iff.1 ht).1

/-- What the step of an event answers before it is settled. -/
def State.unsettled (s : State) (e : Event) : Host.Outcome State Fault Refusal :=
  match s.mode with
  | .timed => perform (runChain s.chainBound s) e s
  | .atomic => andThen (perform (runChain s.chainBound s) e s) (runChain s.chainBound s)

theorem State.stepEvent_eq (s : State) (e : Event) : s.stepEvent e = s.settle (s.unsettled e) := by
  cases hm : s.mode <;> simp [State.stepEvent, State.unsettled, hm]

theorem step_of_running {s : State} (h : s.raised = none) : step s = s.nextTurn.2.settle (s.nextTurn.2.unsettled s.nextTurn.1) := by
  rw [step, h, ← State.stepEvent_eq]

theorem State.unsettled_leads {s u : State} {e : Event} (h : s.unsettled e = .next u) : s.Leads u := by
  have kept := State.Leads.kept s
  have chain := kept.chain (State.Leads.of_tiles_eq rfl rfl) s.chainBound
  have event := kept.event (runChain s.chainBound s) chain e s
  unfold State.unsettled at h
  split at h
  · exact event u (.of_tiles_eq rfl rfl) h
  · obtain ⟨v, hv, hu⟩ := andThen_eq_next h
    exact chain v u (event v (.of_tiles_eq rfl rfl) hv) hu

/-- Settles O6: what is raised before the step is settled is raised at a tile of its start state. -/
theorem fatalErrorHaltsTheSystem : Obligations.FatalErrorHaltsTheSystem := by
  constructor
  · intro s s' hrun h
    rw [step_of_running hrun] at h
    obtain ⟨-, hs'⟩ | ⟨u, k, c, hu, hraised, rfl⟩ := State.settle_eq_next h
    · exact .inl hs'
    · obtain ⟨-, htiles, -⟩ := s.nextTurn_fields
      have hk : k < s.nextTurn.2.tiles.length := (State.unsettled_leads hu).raised_lt hraised
      have hstart : s.nextTurn.2.raised = none := by rw [State.raised, htiles]; exact hrun
      exact .inr ⟨k, c, htiles ▸ hk, rfl, State.raised_raise hstart hk⟩
  · intro s t ht hfatal
    cases hraised : s.raised with
    | none => exact absurd (State.raised_eq_none.1 hraised t ht) hfatal
    | some p =>
      obtain ⟨k, c⟩ := p
      obtain ⟨u, hu, hc⟩ := State.raised_eq_some hraised
      exact ⟨k, u, c, hu, hc, by rw [step, hraised]⟩

/-! ## Retry slots in ATOMIC mode (44_async_completion R400) -/

theorem Retry.eq_empty_iff {r : Retry} : r = Retry.empty ↔ ∀ ch, r.slot ch = none := by
  constructor
  · rintro rfl ch
    cases ch <;> rfl
  · intro h
    obtain ⟨a, b, c, d⟩ := r
    have ha : a = none := by simpa [Retry.slot] using h .nocReq
    have hb : b = none := by simpa [Retry.slot] using h .nocResp
    have hc : c = none := by simpa [Retry.slot] using h .memReq
    have hd : d = none := by simpa [Retry.slot] using h .cpuResp
    rw [ha, hb, hc, hd, Retry.empty]

/-- A rule leaves the retry slots as they are, but for the item that it offers again. -/
theorem Tile.Does.retry {s : State} {k : Nat} {t t' : Tile} {e : Event} {o : Option Item} (h : t.Does s k e t' o) :
    t'.retry = t.retry ∨ ∃ ch item, t.retry.slot ch = some item ∧ o = some item ∧ t'.retry = t.retry.clear ch := by
  cases h with
  | woken => rw [Tile.wake_eq]; exact .inl rfl
  | ringAdvanced => rw [Tile.retire_advanceRing_frame]; exact .inl rfl
  | readLanded ends | payloadSent ends | messageLanded ends | memoryServed ends => rw [ends.frame]; exact .inl rfl
  | accessed _ access =>
    obtain h | ⟨-, h⟩ := regAccess_frame access <;> rw [h] <;> exact .inl rfl
  | retried slot => exact .inr ⟨_, _, slot, rfl, rfl⟩
  | _ => exact .inl rfl

theorem Tile.offering_retry_of_taken (t : Tile) (o : Option Item) : (t.offering false o).retry = t.retry := by
  cases o with
  | none => rfl
  | some item => cases item <;> rfl

/-- Settles O13: no rule fills a slot, and no offer is refused. -/
theorem atomicStepKeepsRetryEmpty : Obligations.AtomicStepKeepsRetryEmpty := by
  intro s s' hmode hs h t ht
  have hempty : ∀ t ∈ s.tiles, t.retry = Retry.empty := fun t ht => Retry.eq_empty_iff.2 (hs t ht)
  refine Retry.eq_empty_iff.1 ((step_leads h).keeps (P := fun t => t.retry = Retry.empty) (fun t t' hretry hmove => ?_) hempty t ht)
  have taken : ∀ {b : Bool}, (b = true → s.mode = .timed) → b = false := by
    rintro ⟨⟩ hb
    · rfl
    · rw [hmode] at hb
      cases hb rfl
  cases hmove with
  | @does _ _ _ u o b does refused =>
    rw [taken refused, Tile.offering_retry_of_taken]
    obtain hsame | ⟨ch, item, hslot, -⟩ := does.retry
    · exact hsame.trans hretry
    · rw [Retry.eq_empty_iff.1 hretry ch] at hslot
      cases hslot
  | offers _ refused => rw [taken refused, Tile.offering_retry_of_taken, hretry]
  | quiet frame _ => rw [frame, hretry]
  | issued _ frame _ => rw [frame, hretry]

end Sys2Proof.Machine
end

section
/-!
PROOFS about the order of a tile's outstanding NoC requests (10_state R45, 44_async_completion R393) and of its transfer jobs
(43_transfer_unit R350, R355): what consuming and making a request does to the one, what the end of a job does to the other, and
from these the obligation O14.
-/

namespace Sys2Proof.Machine

/-! ## Outstanding requests -/

namespace Tile.RequestsOk

variable {t u : Tile}

/-- The requests, the next id and what the command awaits are all that the order depends on. -/
theorem of_same (h : t.RequestsOk) (hq : u.nocq = t.nocq) (hid : u.nextId = t.nextId) (hawaits : u.cmd.awaits = t.cmd.awaits) :
    u.RequestsOk where
  fresh := by rw [hq, hid]; exact h.fresh
  distinct := by rw [hq]; exact h.distinct
  command := by rw [hq, hawaits]; exact h.command

/-- A new request has an id of its own; if it is the command's, the command awaited none before and awaits its response now. -/
theorem requested (h : t.RequestsOk) {requester : Requester} {ep : Nat} {r : NocReq} {a : Nat}
    (hawaits : u.cmd.awaits.toList = t.cmd.awaits.toList ++ if requester = .cmd then [r.kind] else [])
    (hq : u.nocq = t.nocq := by rfl) (hid : u.nextId = t.nextId := by rfl) :
    (u.requested requester ep r a).RequestsOk where
  fresh e he := by
    simp only [Tile.requested, hq, hid, List.mem_append, List.mem_singleton] at he ⊢
    obtain he | rfl := he
    · exact (h.fresh e he).trans (Nat.lt_succ_self _)
    · exact Nat.lt_succ_self _
  distinct := by
    have hnew : t.nextId ∉ t.nocq.map NocSS.id := fun hmem => by
      obtain ⟨e, he, heq⟩ := List.mem_map.1 hmem
      exact absurd (h.fresh e he) (heq ▸ lt_irrefl _)
    simp only [Tile.requested, hq, hid, List.map_append, List.map_singleton]
    exact List.nodup_append.2 ⟨h.distinct, List.nodup_singleton _, by
      rintro x hx y hy rfl
      exact hnew (List.mem_singleton.1 hy ▸ hx)⟩
  command := by
    have hcmd : (u.requested requester ep r a).cmd = u.cmd := rfl
    rw [hcmd, hawaits, ← h.command]
    cases requester <;> simp [Tile.requested, hq]

/-- The requests of the command that are left when one is consumed. -/
theorem consumed_filter (t : Tile) (ss : Nat) :
    ((t.consumed ss).nocq.filter fun e => e.requester = .cmd) =
      (t.nocq.filter fun e => e.requester = .cmd).filter fun e => e.id != ss := by
  simp only [Tile.consumed, List.filter_filter, Bool.and_comm]

/-- The response the command awaits consumes its one request. -/
theorem consumed_command (h : t.RequestsOk) {ss : Nat} {n : NocSS} (hfind : t.nocq.find? (fun x => x.id == ss) = some n)
    (hreq : n.requester = .cmd) (hawaits : t.cmd.awaits = some n.kind) (hq : u.nocq = (t.consumed ss).nocq)
    (hid : u.nextId = t.nextId) (hnone : u.cmd.awaits = none) : u.RequestsOk where
  fresh e he := by
    rw [hq] at he
    exact hid ▸ h.fresh e (List.mem_of_mem_filter he)
  distinct := by
    rw [hq]
    exact h.distinct.sublist (List.filter_sublist.map _)
  command := by
    have hid : n.id = ss := by simpa using List.find?_some hfind
    have hmem : n ∈ t.nocq.filter fun e => e.requester = .cmd :=
      List.mem_filter.2 ⟨List.mem_of_find?_eq_some hfind, decide_eq_true hreq⟩
    have hone := h.command
    rw [hawaits, Option.toList_some, List.map_eq_singleton_iff] at hone
    obtain ⟨x, hx, -⟩ := hone
    obtain rfl : n = x := by rwa [hx, List.mem_singleton] at hmem
    rw [hq, consumed_filter, hx, hnone]
    simp [hid]

/-- The response to a request of the CPU leaves the command's. -/
theorem consumed_cpu (h : t.RequestsOk) {ss : Nat} {n : NocSS} (hfind : t.nocq.find? (fun x => x.id == ss) = some n)
    (hreq : n.requester = .cpu) : (t.consumed ss).RequestsOk where
  fresh e he := h.fresh e (List.mem_of_mem_filter he)
  distinct := h.distinct.sublist (List.filter_sublist.map _)
  command := by
    have hid : n.id = ss := by simpa using List.find?_some hfind
    rw [consumed_filter, List.filter_eq_self.2 (fun e he => ?_)]
    · exact h.command
    · obtain ⟨hmem, hcmd⟩ := List.mem_filter.1 he
      refine bne_iff_ne.2 fun heq => ?_
      rw [List.inj_on_of_nodup_map h.distinct hmem (List.mem_of_find?_eq_some hfind) (heq.trans hid.symm), hreq] at hcmd
      cases hcmd

end Tile.RequestsOk

/-- A command that waits for a response of the NoC waits for no transfer and for no header (10_state R38). -/
theorem CmdState.quiet_of_awaits {c : CmdState} {kind : NocKind} (h : c.awaits = some kind) :
    c.transfers = none ∧ c.fetchesHeader = false := by
  unfold CmdState.awaits at h
  split at h
  iterate 4 exact ⟨rfl, rfl⟩
  cases h

/-- Every rule keeps the outstanding requests in order. -/
theorem Tile.Does.requestsOk {s : State} {k : Nat} {t t' : Tile} {e : Event} {o : Option Item} (hdoes : t.Does s k e t' o)
    (h : t.RequestsOk) : t'.RequestsOk := by
  cases hdoes with
  | idled cmd _ => exact h.of_same rfl rfl (by simp [cmd, CmdState.awaits])
  | woken cmd _ =>
    rw [Tile.wake_eq]
    exact h.of_same rfl rfl (by simp [cmd, CmdState.awaits])
  | ringAdvanced cmd =>
    rw [Tile.retire_advanceRing_frame]
    exact h.of_same rfl rfl (by simp [cmd, CmdState.awaits])
  | commandDenied cmd => exact h.of_same rfl rfl (by simp [cmd, CmdState.awaits])
  | payloadQueued cmd hop => exact h.of_same rfl rfl (by obtain rfl | rfl := hop <;> simp [cmd, CmdState.awaits])
  | headerAsked cmd => exact h.of_same rfl rfl (by simp [cmd, CmdState.awaits])
  | dataAsked cmd kind => exact h.requested (by simp [cmd, kind, CmdState.awaits])
  | headerArrived _ _ cmd => exact h.of_same rfl rfl (by simp [cmd, CmdState.awaits])
  | readLanded ends cmd =>
    rw [ends.frame] at cmd ⊢
    exact h.of_same rfl rfl (by simp [show t.cmd = _ from cmd, CmdState.awaits])
  | payloadSent ends cmd hop =>
    rw [ends.frame] at cmd ⊢
    refine h.requested ?_
    obtain ⟨rfl, hkind⟩ | ⟨rfl | rfl, hkind⟩ := hop <;> simp [show t.cmd = _ from cmd, hkind, CmdState.awaits]
  | messageLanded ends | memoryServed ends =>
    rw [ends.frame]
    exact h.of_same rfl rfl rfl
  | commandAnswered find requester awaits => exact h.consumed_command find requester awaits rfl rfl rfl
  | dataArrived find requester _ awaits => exact h.consumed_command find requester awaits rfl rfl rfl
  | cpuAnswered find requester => exact h.consumed_cpu find requester
  | accessed _ access =>
    obtain hframe | ⟨hidle, hframe⟩ := regAccess_frame access
    · rw [hframe]
      exact h.of_same rfl rfl rfl
    · rw [hframe]
      exact h.of_same rfl rfl (by simp [hidle, CmdState.awaits])
  | forwarded => exact h.requested (by simp)
  | _ => exact h.of_same rfl rfl rfl

/-- Every move keeps the outstanding requests in order. -/
theorem Tile.Moves.requestsOk {m : Mode} {t t' : Tile} (h : t.RequestsOk) (hmove : t.Moves m t') : t'.RequestsOk := by
  cases hmove with
  | does does _ => exact (does.requestsOk h).of_same (by simp) (by simp) (by simp)
  | offers => exact h.of_same (by simp) (by simp) (by simp)
  | quiet frame _ => exact h.of_same (by rw [frame]) (by rw [frame]) (by rw [frame])
  | issued idle frame _ => exact h.of_same (by rw [frame]) (by rw [frame]) (by rw [frame, idle]; rfl)

/-! ## Transfer jobs -/

@[simp] theorem Tile.enqueue_jobs (t : Tile) (j : Job) : (t.enqueue j).jobs = t.jobs ++ [j] := by
  simp [Tile.jobs]

/-- A job that ends is the first of the tile's jobs. -/
theorem Tile.Ends.jobs {t u : Tile} {k : Nat} {e : Event} {o : Owner} (h : t.Ends k e o u) :
    ∃ j, j.owner = o ∧ t.jobs = j :: u.jobs := by
  cases h with
  | @empty j q active queue _ => exact ⟨j, rfl, by simp [Tile.jobs, active, queue]⟩
  | @last _ _ _ _ _ _ _ a _ _ active => exact ⟨a.job, rfl, by simp [Tile.jobs, active, Tile.matched, Tile.jobEnded]⟩

/-- The directions of the jobs of one owner. -/
def Tile.directions (t : Tile) (o : Owner) : List XferDir := (t.jobs.filter fun j => j.owner = o).map Job.dir

theorem Tile.directions_enqueue (t : Tile) (j : Job) (o : Owner) :
    (t.enqueue j).directions o = t.directions o ++ if j.owner = o then [j.dir] else [] := by
  by_cases h : j.owner = o <;> simp [Tile.directions, h]

/-- The end of a job takes one direction from its owner's. -/
theorem Tile.Ends.directions {t u : Tile} {k : Nat} {e : Event} {o : Owner} (h : t.Ends k e o u) :
    (∃ d, t.directions o = d :: u.directions o) ∧ ∀ o', o' ≠ o → u.directions o' = t.directions o' := by
  obtain ⟨j, rfl, hjobs⟩ := h.jobs
  exact ⟨⟨j.dir, by simp [Tile.directions, hjobs]⟩, fun o' ho' => by simp [Tile.directions, hjobs, ho'.symm]⟩

/-- An owner that waits for at most one job has none left when one ends. -/
theorem Tile.Ends.directions_eq_nil {t u : Tile} {k : Nat} {e : Event} {o : Owner} (h : t.Ends k e o u) {x : Option XferDir}
    (hx : t.directions o = x.toList) : u.directions o = [] := by
  obtain ⟨⟨d, hd⟩, -⟩ := h.directions
  rw [hx] at hd
  cases x <;> simp_all

theorem Tile.jobsOk_iff {t : Tile} :
    t.JobsOk ↔ t.cmd.phaseOk = true ∧ t.directions .cmd = t.cmd.transfers.toList ∧ t.directions .inb = t.inb.transfers.toList :=
  ⟨fun h => ⟨h.phase, h.command, h.inbound⟩, fun h => ⟨h.1, h.2.1, h.2.2⟩⟩

namespace Tile.JobsOk

variable {t u : Tile}

theorem of_jobs_eq (h : t.JobsOk) (hjobs : u.jobs = t.jobs) (hphase : u.cmd.phaseOk = true)
    (htransfers : u.cmd.transfers = t.cmd.transfers) (hinb : u.inb = t.inb) : u.JobsOk where
  phase := hphase
  command := by rw [hjobs, htransfers]; exact h.command
  inbound := by rw [hjobs, hinb]; exact h.inbound

/-- A command that waits for no job gets one. -/
theorem enqueue_command (h : t.JobsOk) (hnone : t.cmd.transfers = none) {j : Job}
    (hphase : u.cmd.phaseOk = true := by rfl) (htransfers : u.cmd.transfers = some j.dir := by rfl)
    (howner : j.owner = .cmd := by rfl) (hjobs : u.jobs = t.jobs := by rfl) (hinb : u.inb = t.inb := by rfl) :
    (u.enqueue j).JobsOk := by
  have hdir : ∀ o, u.directions o = t.directions o := fun o => by simp [Tile.directions, hjobs]
  obtain ⟨-, hcmd, hinbound⟩ := jobsOk_iff.1 h
  refine jobsOk_iff.2 ⟨hphase, ?_, ?_⟩
  · rw [directions_enqueue, hdir, hcmd, hnone, if_pos howner]
    simp [htransfers]
  · rw [directions_enqueue, hdir, hinbound, if_neg (by rw [howner]; decide)]
    simp [hinb]

/-- An idle inbound service gets a request with its job. -/
theorem enqueue_inbound (h : t.JobsOk) (hidle : t.inb = .idle) {b : InbRec} {j : Job} (howner : j.owner = .inb)
    (hdir : (InbState.busy b).transfers = some j.dir) : ({ t with inb := .busy b }.enqueue j).JobsOk := by
  obtain ⟨hphase, hcmd, hinbound⟩ := jobsOk_iff.1 h
  rw [hidle] at hinbound
  refine jobsOk_iff.2 ⟨hphase, ?_, ?_⟩
  · rw [directions_enqueue, if_neg (by rw [howner]; decide), List.append_nil]
    exact hcmd
  · rw [directions_enqueue, if_pos howner]
    simp only [Tile.enqueue_inb, hdir]
    exact congrArg (· ++ [j.dir]) hinbound

/-- The command's job ends, and the command waits for none. -/
theorem ends_command (h : t.JobsOk) {k : Nat} {e : Event} {v : Tile} (ends : t.Ends k e .cmd v) (hjobs : u.jobs = v.jobs)
    (hphase : u.cmd.phaseOk = true) (htransfers : u.cmd.transfers = none) (hinb : u.inb = t.inb) : u.JobsOk := by
  have hdir : ∀ o, u.directions o = v.directions o := fun o => by simp [Tile.directions, hjobs]
  obtain ⟨-, hcmd, hinbound⟩ := jobsOk_iff.1 h
  refine jobsOk_iff.2 ⟨hphase, ?_, ?_⟩
  · rw [hdir, ends.directions_eq_nil hcmd, htransfers]
    rfl
  · rw [hdir, ends.directions.2 .inb (by decide), hinbound, hinb]

/-- The inbound service's job ends, and the service with it. -/
theorem ends_inbound (h : t.JobsOk) {k : Nat} {e : Event} {v : Tile} (ends : t.Ends k e .inb v) (hjobs : u.jobs = v.jobs)
    (hcmd : u.cmd = t.cmd) (hinb : u.inb = .idle) : u.JobsOk := by
  have hdir : ∀ o, u.directions o = v.directions o := fun o => by simp [Tile.directions, hjobs]
  obtain ⟨hphase, hcommand, hinbound⟩ := jobsOk_iff.1 h
  refine jobsOk_iff.2 ⟨by rw [hcmd]; exact hphase, ?_, ?_⟩
  · rw [hdir, ends.directions.2 .cmd (by decide), hcommand, hcmd]
  · rw [hdir, ends.directions_eq_nil hinbound, hinb]
    rfl

end Tile.JobsOk

/-- Every rule keeps the transfer jobs in order. -/
theorem Tile.Does.jobsOk {s : State} {k : Nat} {t t' : Tile} {e : Event} {o : Option Item} (hdoes : t.Does s k e t' o)
    (h : t.JobsOk) : t'.JobsOk := by
  cases hdoes with
  | idled cmd _ => exact h.of_jobs_eq rfl rfl (by simp [cmd, CmdState.transfers]) rfl
  | woken cmd _ =>
    rw [Tile.wake_eq]
    exact h.of_jobs_eq rfl rfl (by simp [cmd, CmdState.transfers]) rfl
  | ringAdvanced cmd =>
    rw [Tile.retire_advanceRing_frame]
    exact h.of_jobs_eq rfl rfl (by simp [cmd, CmdState.transfers]) rfl
  | commandDenied cmd => exact h.of_jobs_eq rfl rfl (by simp [cmd, CmdState.transfers]) rfl
  | payloadQueued cmd hop =>
    obtain rfl | rfl := hop <;> exact h.enqueue_command (by rw [cmd]; rfl)
  | headerAsked cmd => exact h.of_jobs_eq rfl rfl (by simp [cmd, CmdState.transfers]) rfl
  | dataAsked cmd => exact h.of_jobs_eq rfl rfl (by simp [cmd, CmdState.transfers, Tile.requested]) rfl
  | activated active queue => exact h.of_jobs_eq (by simp [Tile.jobs, active, queue]) h.phase rfl rfl
  | chunkIssued active => exact h.of_jobs_eq (by simp [Tile.jobs, active, Tile.chunkCounted]) h.phase rfl rfl
  | chunkCollected _ _ active => exact h.of_jobs_eq (by simp [Tile.jobs, active]) h.phase rfl rfl
  | headerArrived _ _ cmd => exact h.enqueue_command (by rw [cmd]; rfl)
  | readLanded ends cmd => exact h.ends_command ends rfl rfl rfl ends.inb
  | payloadSent ends cmd hop =>
    refine h.ends_command ends rfl ?_ ?_ ends.inb <;> obtain ⟨rfl, -⟩ | ⟨rfl | rfl, -⟩ := hop <;> rfl
  | messageLanded ends | memoryServed ends => exact h.ends_inbound ends rfl ends.cmd rfl
  | commandAnswered _ _ awaits =>
    exact h.of_jobs_eq rfl rfl (CmdState.quiet_of_awaits awaits).1.symm rfl
  | dataArrived _ _ cmd => exact h.enqueue_command (by rw [cmd]; rfl)
  | messageAccepted inb kind _ _ _ owner dir => exact h.enqueue_inbound inb owner (by simp [InbState.transfers, kind, dir])
  | memoryAccepted inb kind owner dir =>
    exact h.enqueue_inbound inb owner (by simp [InbState.transfers, kind, dir])
  | accessed _ access =>
    obtain hframe | ⟨hidle, hframe⟩ := regAccess_frame access
    · rw [hframe]
      exact h.of_jobs_eq rfl h.phase rfl rfl
    · rw [hframe]
      exact h.of_jobs_eq rfl rfl (by simp [hidle, CmdState.transfers]) rfl
  | _ => exact h.of_jobs_eq rfl h.phase rfl rfl

theorem Tile.Moves.jobsOk {m : Mode} {t t' : Tile} (h : t.JobsOk) (hmove : t.Moves m t') : t'.JobsOk := by
  have same : ∀ u v : Tile, u.JobsOk → v.xfer = u.xfer → v.cmd = u.cmd → v.inb = u.inb → v.JobsOk := by
    intro u v hu hxfer hcmd hinb
    exact hu.of_jobs_eq (by rw [Tile.jobs, hxfer, Tile.jobs]) (hcmd ▸ hu.phase) (by rw [hcmd]) hinb
  cases hmove with
  | does does _ => exact same _ _ (does.jobsOk h) (by simp) (by simp) (by simp)
  | offers => exact same _ _ h (by simp) (by simp) (by simp)
  | quiet frame _ => exact same _ _ h (by rw [frame]) (by rw [frame]) (by rw [frame])
  | issued idle frame _ =>
    rw [frame]
    exact h.of_jobs_eq rfl rfl (by simp [idle, CmdState.transfers]) rfl

/-- Settles O14. -/
theorem stepKeepsRequestsInOrder : Obligations.StepKeepsRequestsInOrder :=
  fun _ _ h => ⟨(step_leads h).keeps fun _ _ => Tile.Moves.requestsOk, (step_leads h).keeps fun _ _ => Tile.Moves.jobsOk⟩

end Sys2Proof.Machine
end

section
/-!
PROOFS about the path between a tile and its local memory (10_state R43, R44; 43_transfer_unit R354, R356, R360, R363): what one more
request, an answer and the end of a job do to it, that every move keeps it in order, and from these the obligations O15 and O16.
-/

namespace Sys2Proof.Machine

/-! ## The path -/

@[simp] theorem MemSS.chunk_transfer (p i len : Nat) (o : Owner) (last : Bool) :
    (MemSS.transfer p o i last len).chunk = some (o, i, last, len) := rfl
@[simp] theorem MemSS.chunk_header (p : Nat) (o : Owner) : (MemSS.header p o).chunk = none := rfl
@[simp] theorem MemSS.isHeader_transfer (p i len : Nat) (o : Owner) (last : Bool) :
    (MemSS.transfer p o i last len).isHeader = false := rfl
@[simp] theorem MemSS.isHeader_header (p : Nat) (o : Owner) : (MemSS.header p o).isHeader = true := rfl

theorem Retry.slot_memReq (r : Retry) : r.slot .memReq = r.memReq.map .memReq := rfl

/-- A slot holds an item of its own channel. -/
theorem Retry.channel_of_slot {r : Retry} {ch : Channel} {item : Item} (h : r.slot ch = some item) : item.channel = ch := by
  cases ch <;> simp only [Retry.slot, Option.map_eq_some_iff] at h <;> obtain ⟨_, -, rfl⟩ := h <;> rfl

/-- An offer on another channel than MEM_REQ leaves the path. -/
theorem Tile.memPath_offering_of_ne (t : Tile) (b : Bool) {o : Option Item} (h : ∀ item, o = some item → item.channel ≠ .memReq) :
    (t.offering b o).memPath = t.memPath := by
  cases o with
  | none => rfl
  | some item =>
    cases item with
    | memReq r => exact absurd rfl (h _ rfl)
    | nocReq _ | nocResp _ _ | cpuResp _ => cases b <;> rfl

/-- A request to the memory joins the end of the path, taken or refused. -/
theorem Tile.memPath_offering_memReq {t : Tile} (b : Bool) (r : MemReq) (hfree : t.retry.memReq = none) :
    (t.offering b (some (.memReq r))).memPath = t.memPath ++ [r.ss] := by
  cases b <;> simp [Tile.memPath, Tile.offering, Tile.handed, Retry.fill, hfree]

/-- The request waiting on MEM_REQ is the end of the path. -/
theorem Tile.memPath_of_waiting {t : Tile} {r : MemReq} (h : t.retry.memReq = some r) :
    t.memPath = { t with retry := t.retry.clear .memReq }.memPath ++ [r.ss] := by
  simp [Tile.memPath, Retry.clear, h]

/-- The item that is offered again keeps its place on the path. -/
theorem Tile.memPath_retried {t : Tile} {ch : Channel} {item : Item} (hslot : t.retry.slot ch = some item) (b : Bool) :
    ({ t with retry := t.retry.clear ch }.offering b (some item)).memPath = t.memPath := by
  have hch := Retry.channel_of_slot hslot
  by_cases hmem : ch = .memReq
  · subst hmem
    rw [Retry.slot_memReq, Option.map_eq_some_iff] at hslot
    obtain ⟨r, hr, rfl⟩ := hslot
    rw [Tile.memPath_offering_memReq b r rfl, ← Tile.memPath_of_waiting hr]
  · rw [Tile.memPath_offering_of_ne _ b (by rintro _ ⟨⟩; rwa [hch])]
    cases ch with
    | memReq => exact absurd rfl hmem
    | nocReq | nocResp | cpuResp => rfl

/-! ## The order of the path -/

namespace Tile.MemPathOk

variable {t u : Tile}

/-- What a change keeps that leaves the active job and the chunks among the requests. -/
theorem of_chunks_eq (h : t.MemPathOk) (hpath : u.memq = u.memPath)
    (hchunks : u.memq.filterMap MemSS.chunk = t.memq.filterMap MemSS.chunk)
    (hheaders : u.memq.countP MemSS.isHeader = if u.cmd.fetchesHeader then 1 else 0) (hcfg : u.cfg = t.cfg := by rfl)
    (hactive : u.xfer.active = t.xfer.active := by rfl) : u.MemPathOk where
  params := by rw [hcfg]; exact h.params
  path := hpath
  noJob := by rw [hactive, hchunks]; exact h.noJob
  chunks a ha := by
    rw [hchunks, Tile.openChunks, hcfg]
    exact h.chunks a (hactive ▸ ha)
  counts a ha := by
    rw [hcfg]
    exact h.counts a (hactive ▸ ha)
  headers := hheaders

/-- Parameters, path, active job and header fetch are all that the order depends on. -/
theorem of_same (h : t.MemPathOk) (hpath : u.memPath = t.memPath := by rfl) (hcfg : u.cfg = t.cfg := by rfl)
    (hmemq : u.memq = t.memq := by rfl) (hactive : u.xfer.active = t.xfer.active := by rfl)
    (hcmd : u.cmd.fetchesHeader = t.cmd.fetchesHeader := by rfl) : u.MemPathOk :=
  h.of_chunks_eq (by rw [hmemq, hpath]; exact h.path) (by rw [hmemq]) (by rw [hmemq, hcmd]; exact h.headers) hcfg hactive

/-- The header fetch of a REPLY joins the path (42_message_unit R305). -/
theorem headerAsked (h : t.MemPathOk) (hnone : t.cmd.fetchesHeader = false) (hcmd : u.cmd.fetchesHeader = true) {ep : Nat}
    {o : Owner} (hmemq : u.memq = t.memq ++ [.header ep o]) (hpath : u.memPath = t.memPath ++ [.header ep o])
    (hcfg : u.cfg = t.cfg) (hactive : u.xfer.active = t.xfer.active) : u.MemPathOk :=
  h.of_chunks_eq (by rw [hmemq, hpath, h.path]) (by simp [hmemq])
    (by simp [hmemq, hcmd, h.headers, hnone]) hcfg hactive

/-- What is left of the path when its first request is answered and matched. -/
theorem path_matched (h : t.MemPathOk) {m : MemResp} {ms : List MemResp} {ss : MemSS} {mq : List MemSS}
    (hout : t.memOut = m :: ms) (hmemq : t.memq = ss :: mq) : mq = (t.matched ms mq).memPath := by
  have htail := congrArg List.tail h.path
  rw [hmemq, Tile.memPath, hout] at htail
  exact htail

/-- The header of a REPLY leaves the path (42_message_unit R306). -/
theorem headerArrived (h : t.MemPathOk) {m : MemResp} {ms : List MemResp} {ep : Nat} {o : Owner} {mq : List MemSS}
    (hout : t.memOut = m :: ms) (hmemq : t.memq = .header ep o :: mq) {cmd : CmdState} (hcmd : cmd.fetchesHeader = false) :
    { t.matched ms mq with cmd := cmd }.MemPathOk := by
  refine h.of_chunks_eq (h.path_matched hout hmemq) (by simp [Tile.matched, hmemq, List.filterMap_cons]) ?_
  have hcount := h.headers
  rw [hmemq, List.countP_cons_of_pos rfl] at hcount
  simp only [hcmd, Bool.false_eq_true, if_false]
  split at hcount
  · exact Nat.succ_inj.1 hcount
  · cases hcount

/-- The first of the requests is a chunk: it is the oldest open chunk of the active job. -/
theorem head_chunk (h : t.MemPathOk) {p i len : Nat} {o : Owner} {last : Bool} {mq : List MemSS} {a : ActiveJob}
    (hmemq : t.memq = .transfer p o i last len :: mq) (hactive : t.xfer.active = some a) :
    a.completed < a.issued ∧ last = t.cfg.chunkLast a.job.size a.completed ∧
      mq.filterMap MemSS.chunk =
        (List.range' (a.completed + 1) (a.issued - (a.completed + 1))).map fun k =>
          (a.job.owner, k, t.cfg.chunkLast a.job.size k, t.cfg.chunkLen a.job.size k) := by
  have hchunks := h.chunks a hactive
  rw [hmemq, List.filterMap_cons_some (by rfl), Tile.openChunks] at hchunks
  obtain ⟨n, hn⟩ : ∃ n, a.issued - a.completed = n + 1 := by
    refine Nat.exists_eq_succ_of_ne_zero fun hzero => ?_
    rw [hzero] at hchunks
    cases hchunks
  rw [hn, List.range'_succ, List.map_cons, List.cons.injEq, Prod.mk.injEq, Prod.mk.injEq, Prod.mk.injEq] at hchunks
  obtain ⟨⟨-, -, hlast, -⟩, htail⟩ := hchunks
  exact ⟨by omega, hlast, by rw [htail, show a.issued - (a.completed + 1) = n by omega]⟩

/-- A chunk that is not the last leaves the path and is counted (43_transfer_unit R354). -/
theorem chunkCollected (h : t.MemPathOk) {m : MemResp} {ms : List MemResp} {p i len : Nat} {o : Owner} {mq : List MemSS}
    {a : ActiveJob} (hout : t.memOut = m :: ms) (hmemq : t.memq = .transfer p o i false len :: mq)
    (hactive : t.xfer.active = some a) (acc : List Byte) :
    { t.matched ms mq with
      xfer :=
        { t.xfer with
          active := some { a with acc := acc, completed := a.completed + 1, inflight := a.inflight - 1 } } }.MemPathOk := by
  obtain ⟨hlt, hlast, htail⟩ := h.head_chunk hmemq hactive
  obtain ⟨hcount, hle, hissued, hinflight, hbuf⟩ := h.counts a hactive
  have hnot : a.completed + 1 ≠ t.cfg.chunkCount a.job.size := of_decide_eq_false hlast.symm
  refine ⟨h.params, h.path_matched hout hmemq, fun hnone => (nomatch hnone), ?_, ?_, ?_⟩
  · rintro b ⟨⟩
    exact htail
  · rintro b ⟨⟩
    simp only [Tile.matched]
    omega
  · have hheaders := h.headers
    rw [hmemq, List.countP_cons_of_neg (by simp)] at hheaders
    exact hheaders

/-- The next chunk of the active job joins the path (43_transfer_unit R353). -/
theorem chunkIssued (h : t.MemPathOk) {a : ActiveJob} (hactive : t.xfer.active = some a)
    (hleft : a.issued < t.cfg.chunkCount a.job.size) (hbuf : a.inflight < t.cfg.bufCount)
    (hmemq : u.memq = t.memq ++ [(chunkReq t a.job a.issued).ss])
    (hpath : u.memPath = t.memPath ++ [(chunkReq t a.job a.issued).ss]) (hcfg : u.cfg = t.cfg)
    (hxfer : u.xfer.active = some { a with issued := a.issued + 1, inflight := a.inflight + 1 }) (hcmd : u.cmd = t.cmd) :
    u.MemPathOk := by
  obtain ⟨hcount, hle, hissued, hinflight, -⟩ := h.counts a hactive
  refine ⟨hcfg ▸ h.params, by rw [hmemq, hpath, h.path], fun hnone => ?_, fun b hb => ?_, fun b hb => ?_, ?_⟩
  · rw [hxfer] at hnone
    cases hnone
  · cases hxfer.symm.trans hb
    have hchunk : MemSS.chunk (chunkReq t a.job a.issued).ss =
        some (a.job.owner, a.issued, t.cfg.chunkLast a.job.size a.issued, t.cfg.chunkLen a.job.size a.issued) := rfl
    rw [hmemq, List.filterMap_append, h.chunks a hactive, List.filterMap_cons_some hchunk, List.filterMap_nil,
      Tile.openChunks, Tile.openChunks, hcfg, Nat.succ_sub hle, List.range'_1_concat, List.map_append,
      Nat.add_sub_cancel' hle]
    rfl
  · cases hxfer.symm.trans hb
    simp only [hcfg]
    omega
  · rw [hmemq, List.countP_append, h.headers, hcmd]
    rfl

/-- The end of a job leaves no chunk on the path (43_transfer_unit R355). -/
theorem ends (h : t.MemPathOk) {k : Nat} {e : Event} {o : Owner} (hends : t.Ends k e o u) : u.MemPathOk := by
  cases hends with
  | empty active _ _ => exact ⟨h.params, h.path, fun _ => h.noJob active, fun a ha => (nomatch ha), fun a ha => (nomatch ha), h.headers⟩
  | @last m ms p i len o mq a out memq active =>
    obtain ⟨hlt, hlast, htail⟩ := h.head_chunk memq active
    obtain ⟨-, -, hissued, -, -⟩ := h.counts a active
    have hfull : a.completed + 1 = t.cfg.chunkCount a.job.size := of_decide_eq_true hlast.symm
    refine ⟨h.params, h.path_matched out memq, fun _ => ?_, fun b hb => (nomatch hb), fun b hb => (nomatch hb), ?_⟩
    · have hnone : a.issued - (a.completed + 1) = 0 := by omega
      rw [hnone] at htail
      exact htail
    · have hheaders := h.headers
      rw [memq, List.countP_cons_of_neg (by simp)] at hheaders
      exact hheaders

/-- The head job becomes active with nothing issued (43_transfer_unit R351). -/
theorem activated (h : t.MemPathOk) (hnone : t.xfer.active = none) {j : Job} (q : List Job) (hsize : j.size ≠ 0) :
    { t with
      xfer := { queue := q, active := some { job := j, issued := 0, completed := 0, inflight := 0, acc := [] } } }.MemPathOk := by
  have hpos : 0 < t.cfg.chunkCount j.size :=
    Nat.pos_of_ne_zero (mt (Config.chunkCount_eq_zero_iff (Config.constraints h.params).bufSize _).1 hsize)
  refine ⟨h.params, h.path, fun ha => (nomatch ha), ?_, ?_, h.headers⟩
  · rintro b ⟨⟩
    exact h.noJob hnone
  · rintro b ⟨⟩
    exact ⟨hpos, le_rfl, Nat.zero_le _, rfl, Nat.zero_le _⟩

end Tile.MemPathOk

/-- Every rule keeps the path in order, with the offer it makes. -/
theorem Tile.Does.memPathOk {s : State} {k : Nat} {t t' : Tile} {e : Event} {o : Option Item} (hdoes : t.Does s k e t' o)
    (h : t.MemPathOk) (b : Bool) : (t'.offering b o).MemPathOk := by
  have other : ∀ {u : Tile} {o : Option Item}, (∀ item, o = some item → item.channel ≠ .memReq) → u.MemPathOk →
      (u.offering b o).MemPathOk := fun ho hu =>
    hu.of_same (Tile.memPath_offering_of_ne _ b ho) (by simp) (by simp) (by simp) (by simp)
  have none : ∀ {u : Tile}, u.MemPathOk → (u.offering b none).MemPathOk := id
  have response : ∀ {u : Tile} {item : Item}, item.channel ≠ .memReq → u.MemPathOk → (u.offering b (some item)).MemPathOk :=
    fun hch => other (by rintro _ ⟨⟩; exact hch)
  cases hdoes with
  | idled cmd _ => exact none (h.of_same (hcmd := by simp [cmd, CmdState.fetchesHeader]))
  | woken cmd _ =>
    rw [Tile.wake_eq]
    exact none (h.of_same (hcmd := by simp [cmd, CmdState.fetchesHeader]))
  | ringAdvanced cmd =>
    rw [Tile.retire_advanceRing_frame]
    exact none (h.of_same (hcmd := by simp [cmd, CmdState.fetchesHeader]))
  | commandDenied cmd => exact none (h.of_same (hcmd := by simp [cmd, CmdState.fetchesHeader]))
  | payloadQueued cmd hop =>
    exact none (h.of_same (hcmd := by obtain rfl | rfl := hop <;> simp [cmd, CmdState.fetchesHeader]))
  | headerAsked cmd free =>
    exact h.headerAsked (by rw [cmd]; rfl) (by rw [Tile.offering_cmd]; rfl) (by rw [Tile.offering_memq])
      (Tile.memPath_offering_memReq b _ free) (by simp) (by simp)
  | dataAsked cmd =>
    exact response Channel.noConfusion (h.of_same (hcmd := by simp [cmd, CmdState.fetchesHeader, Tile.requested]))
  | activated active _ size => exact none (h.activated active _ size)
  | chunkIssued active left buffer free =>
    exact h.chunkIssued active left buffer (by rw [Tile.offering_memq]) (Tile.memPath_offering_memReq b _ free) (by simp; rfl)
      (by simp; rfl) (by simp; rfl)
  | memoryAnswered memIn => exact none (h.of_same (by simp [Tile.memPath, memIn]))
  | chunkCollected out memq active acc => exact none (h.chunkCollected out memq active acc)
  | headerArrived out memq cmd =>
    exact none ((h.headerArrived out memq (cmd := .exec _ _ .xferOut _) rfl).of_same)
  | readLanded ends cmd => exact none ((h.ends ends).of_same (hcmd := by simp [cmd, CmdState.fetchesHeader]))
  | payloadSent ends cmd hop =>
    refine response Channel.noConfusion ((h.ends ends).of_same (hcmd := ?_))
    obtain ⟨rfl, -⟩ | ⟨rfl | rfl, -⟩ := hop <;> rw [cmd] <;> rfl
  | messageLanded ends | memoryServed ends => exact response Channel.noConfusion (h.ends ends).of_same
  | commandAnswered _ _ awaits =>
    exact none (h.of_same (hcmd := (CmdState.quiet_of_awaits awaits).2.symm))
  | dataArrived _ _ cmd => exact none (h.of_same (hcmd := by simp [cmd, CmdState.fetchesHeader]))
  | accessed _ access _ channel =>
    refine response channel ?_
    obtain hframe | ⟨hidle, hframe⟩ := regAccess_frame access
    · rw [hframe]
      exact h.of_same
    · rw [hframe]
      exact h.of_same (hcmd := by simp [hidle, CmdState.fetchesHeader])
  | retried slot =>
    exact h.of_same (Tile.memPath_retried slot b) (by simp) (by simp) (by simp) (by simp)
  | cpuAnswered | inboundDenied | cpuDenied | forwarded => exact response Channel.noConfusion h.of_same
  | messageAccepted | memoryAccepted | suspended | waits | accessedLocally => exact none h.of_same

theorem Tile.Moves.memPathOk {m : Mode} {t t' : Tile} (h : t.MemPathOk) (hmove : t.Moves m t') : t'.MemPathOk := by
  cases hmove with
  | does does _ => exact does.memPathOk h _
  | offers channel _ =>
    exact h.of_same (Tile.memPath_offering_of_ne _ _ (by rintro _ ⟨⟩; exact channel)) (by simp) (by simp) (by simp) (by simp)
  | quiet frame _ =>
    rw [frame]
    exact h.of_same
  | issued idle frame _ =>
    rw [frame]
    exact h.of_same (hcmd := by rw [idle]; rfl)

/-- Settles O15. -/
theorem stepKeepsMemoryPathInOrder : Obligations.StepKeepsMemoryPathInOrder :=
  fun _ _ hs h => (step_leads h).keeps (fun _ _ => Tile.Moves.memPathOk) hs

/-! ## The bounds on outstanding requests (43_transfer_unit R363) -/

/-- A request is a chunk or a header. -/
theorem countP_not_isHeader (l : List MemSS) : (l.countP fun m => !m.isHeader) = (l.filterMap MemSS.chunk).length := by
  induction l with
  | nil => rfl
  | cons m l ih => cases m <;> simp [List.filterMap_cons, ih]

/-- Settles O16: the chunks are the open ones of the active job, the header is the command's. -/
theorem memoryPathBounds : Obligations.MemoryPathBounds := by
  intro t h
  have hchunks : (t.memq.countP fun m => !m.isHeader) ≤ t.cfg.bufCount := by
    rw [countP_not_isHeader]
    cases hactive : t.xfer.active with
    | none => simp [h.noJob hactive]
    | some a =>
      obtain ⟨-, -, -, hinflight, hbuf⟩ := h.counts a hactive
      rw [h.chunks a hactive, Tile.openChunks, List.length_map, List.length_range', ← hinflight]
      exact hbuf
  have hheaders : t.memq.countP MemSS.isHeader ≤ 1 := by
    rw [h.headers]
    split <;> decide
  have hall := List.length_eq_countP_add_countP MemSS.isHeader (l := t.memq)
  simp only [Bool.not_eq_true, Bool.decide_eq_false] at hall
  exact ⟨hchunks, hheaders, by omega⟩

end Sys2Proof.Machine
end

section
/-!
PROOFS about the state at construction (70_reset_and_hazards R480) and about quiescence (44_async_completion R400): the registers and
invariants of a launch; that an ATOMIC step ends where no event is enabled, and what is left of a tile then; and from these the
obligations O7, O8 and O9.
-/

namespace Sys2Proof

/-- The constraints on a system, tile by tile (00_scope R8, 60_exceptions R452). -/
theorem Config.systemValid_iff {cs : List Config} :
    Config.systemValid cs = true ↔
      (∀ c ∈ cs, c.valid = true ∧ cs.length ≤ 2 ^ c.nocCoreBits ∧ c.ownCoreId < cs.length) ∧
        ∀ (k : Nat) (c : Config), cs[k]? = some c → c.ownCoreId = k := by
  have hids : cs.map ownCoreId = List.range cs.length ↔ ∀ (k : Nat) (c : Config), cs[k]? = some c → c.ownCoreId = k := by
    constructor
    · intro h k c hk
      have hget := congrArg (fun l => l[k]?) h
      simp only [List.getElem?_map, hk, Option.map_some, List.getElem?_range (List.getElem?_eq_some_iff.1 hk).1,
        Option.some.injEq] at hget
      exact hget
    · intro h
      refine List.ext_getElem (by simp) fun k hk _ => ?_
      rw [List.length_map] at hk
      rw [List.getElem_map, List.getElem_range]
      exact h k _ (List.getElem?_eq_getElem hk)
  simp only [systemValid, Bool.and_eq_true, List.all_eq_true, decide_eq_true_eq, hids, and_assoc]

namespace Machine

/-! ## The registers at construction -/

theorem epReg_lt {c : Config} {e : Nat} (he : e < c.numEndpoints) (f : Field) : epReg e f < c.regfileWords := by
  have hf : f.num < 16 := by cases f <;> decide
  rw [Config.regfileWords, epReg]
  omega

theorem resetRegs_length (c : Config) : (resetRegs c).length = c.regfileWords := by
  simp [resetRegs]

theorem getD_set_of_lt {l : List Nat} {i : Nat} (h : i < l.length) (v j : Nat) :
    (l.set i v).getD j 0 = if j = i then v else l.getD j 0 := by
  by_cases hj : j = i
  · subst hj
    simp [h]
  · simp [hj, Ne.symm hj]

/-- Every register at construction: zero, but for the configuration of memEp (70_reset_and_hazards R480). -/
theorem resetRegs_getD {c : Config} (h : c.memEp < c.numEndpoints) (i : Nat) :
    (resetRegs c).getD i 0 =
      if i = epReg c.memEp .perm then 3
      else if i = epReg c.memEp .remSize then c.wrapW c.memSize
      else if i = epReg c.memEp .remBase then c.wrapW c.memBase
      else if i = epReg c.memEp .tgtCore then c.wrapW c.memCoreId
      else 0 := by
  have hlt : ∀ f, epReg c.memEp f < c.regfileWords := epReg_lt h
  have hzero : (List.replicate c.regfileWords 0).getD i 0 = 0 := by
    rw [List.getD_eq_getElem?_getD, List.getElem?_replicate]
    split <;> rfl
  rw [resetRegs, getD_set_of_lt (by simp [hlt]), getD_set_of_lt (by simp [hlt]), getD_set_of_lt (by simp [hlt]),
    getD_set_of_lt (by simp [hlt]), hzero]

section
variable {c : Config} (hc : c.Constraints) (mem : Memory)
include hc

/-- The fields of an endpoint at construction. -/
theorem Tile.launch_ep (e : Nat) (f : Field) :
    (Tile.launch c mem).ep e f =
      if e = c.memEp then
        match f with
        | .tgtCore => c.memCoreId
        | .remBase => c.memBase
        | .remSize => c.memSize
        | .perm => 3
        | _ => 0
      else 0 := by
  have hreg : ∀ {g}, epReg e f = epReg c.memEp g ↔ e = c.memEp ∧ f = g :=
    ⟨epReg_inj, fun ⟨he, hf⟩ => he ▸ hf ▸ rfl⟩
  have hdef : (Tile.launch c mem).ep e f = (resetRegs c).getD (epReg e f) 0 := rfl
  rw [hdef, resetRegs_getD hc.memEp]
  simp only [hreg, Config.wrapW_of_lt hc.memCoreId, Config.wrapW_of_lt hc.memBase, Config.wrapW_of_lt hc.memSize]
  by_cases he : e = c.memEp
  · cases f <;> simp [he]
  · simp [he]

/-- A register that is no field of an endpoint is zero at construction. -/
theorem Tile.launch_reg_of_ne {i : Nat} (h : ∀ f, i ≠ epReg c.memEp f) : (Tile.launch c mem).reg i = 0 := by
  have hdef : (Tile.launch c mem).reg i = (resetRegs c).getD i 0 := rfl
  rw [hdef, resetRegs_getD hc.memEp, if_neg (h _), if_neg (h _), if_neg (h _), if_neg (h _)]

theorem Tile.launch_pendingMessage : (Tile.launch c mem).pendingMessage = false := by
  rw [Tile.pendingMessage, List.any_eq_false]
  intro e _
  have hcount : (Tile.launch c mem).ep e .bufMsgCnt = 0 := by
    rw [Tile.launch_ep hc]
    split <;> rfl
  simp [hcount]

theorem Tile.launch_regsFit : (Tile.launch c mem).RegsFit where
  length := resetRegs_length c
  bound v hv := by
    change v ∈ resetRegs c at hv
    have hpos : 0 < 2 ^ c.W := by positivity
    have hthree : 3 < 2 ^ c.W := (by decide : 3 < 2 ^ 32).trans_le (Nat.pow_le_pow_right (by decide) hc.wordBits)
    have hwrap : ∀ x, c.wrapW x < 2 ^ c.W := fun x => Nat.mod_lt _ hpos
    obtain ⟨i, hi, rfl⟩ := List.getElem_of_mem hv
    have hget := resetRegs_getD hc.memEp i
    rw [List.getD_eq_getElem _ _ hi] at hget
    rw [hget]
    split_ifs
    · exact hthree
    · exact hwrap _
    · exact hwrap _
    · exact hwrap _
    · exact hpos

end

theorem Tile.launch_requestsOk (c : Config) (mem : Memory) : (Tile.launch c mem).RequestsOk :=
  ⟨fun _ he => (nomatch he), List.nodup_nil, rfl⟩

theorem Tile.launch_jobsOk (c : Config) (mem : Memory) : (Tile.launch c mem).JobsOk := ⟨rfl, rfl, rfl⟩

theorem Tile.launch_memPathOk {c : Config} (h : c.valid = true) (mem : Memory) : (Tile.launch c mem).MemPathOk :=
  ⟨h, rfl, fun _ => rfl, fun _ ha => (nomatch ha), fun _ ha => (nomatch ha), rfl⟩

/-! ## The launch -/

/-- The parameters of every tile of a launch meet their constraints. -/
theorem State.launch_valid {m : Mode} {ps : List (Config × Memory)} {s : State} (h : State.launch m ps = some s) :
    ∀ p ∈ ps, p.1.valid = true := fun p hp =>
  ((Config.systemValid_iff.1 (State.launch_eq_some.1 h).1).1 p.1 (List.mem_map_of_mem hp)).1

/-- A tile of a launch is the launch of its parameters and memory. -/
theorem State.mem_launch {m : Mode} {ps : List (Config × Memory)} {s : State} (h : State.launch m ps = some s) {t : Tile} :
    t ∈ s.tiles ↔ ∃ p ∈ ps, t = Tile.launch p.1 p.2 := by
  rw [(State.launch_eq_some.1 h).2]
  simp [State.construct, eq_comm]

/-- Settles O9: the invariants hold of the launch of each tile. -/
theorem launchMeetsInvariants : Obligations.LaunchMeetsInvariants := by
  intro mode ps s h hwf
  have hall : ∀ {P : Tile → Prop}, (∀ p ∈ ps, P (Tile.launch p.1 p.2)) → ∀ t ∈ s.tiles, P t := by
    intro P hP t ht
    obtain ⟨p, hp, rfl⟩ := (State.mem_launch h).1 ht
    exact hP p hp
  have hvalid := State.launch_valid h
  refine ⟨State.raised_eq_none.2 (hall fun _ _ => rfl), hall (P := fun t => t.mem.wf = true) hwf,
    hall fun _ _ ch => by cases ch <;> rfl, ?_, hall fun p hp => ?_⟩
  · have hcfgs : s.tiles.map Tile.cfg = ps.map Prod.fst := by
      rw [(State.launch_eq_some.1 h).2, State.construct, List.map_map]
      rfl
    rw [hcfgs]
    exact (State.launch_eq_some.1 h).1
  · exact ⟨Tile.launch_regsFit (Config.constraints (hvalid p hp)) p.2, Tile.launch_requestsOk .., Tile.launch_jobsOk ..,
      Tile.launch_memPathOk (hvalid p hp) p.2⟩

/-- Settles O8: a launch is the construction, and each tile of it the launch of its parameters and memory. -/
theorem launchState : Obligations.LaunchState := by
  intro mode ps
  constructor
  · have hexists : (∃ s, State.launch mode ps = some s) ↔ Config.systemValid (ps.map Prod.fst) = true :=
      ⟨fun ⟨_, h⟩ => (State.launch_eq_some.1 h).1, fun h => ⟨_, State.launch_eq_some.2 ⟨h, rfl⟩⟩⟩
    rw [hexists, Config.systemValid_iff]
    simp only [List.forall_mem_map, List.length_map, List.getElem?_map, Option.map_eq_some_iff]
    refine and_congr_right fun _ => ⟨fun h k p hp => h k p.1 ⟨p, hp, rfl⟩, ?_⟩
    rintro h k _ ⟨p, hp, rfl⟩
    exact h k p hp
  · intro s h
    have hs := (State.launch_eq_some.1 h).2
    subst hs
    refine ⟨rfl, rfl, by simp [State.construct], fun k p t hp ht => ?_⟩
    rw [State.construct_tile, hp] at ht
    obtain rfl := Option.some.inj ht
    have hc := Config.constraints (State.launch_valid h p (List.mem_of_getElem? hp))
    have hfield : ∀ f : Field, f.num < 15 := fun f => by cases f <;> decide
    refine ⟨rfl, rfl, resetRegs_length p.1, fun i hi => ?_, fun e _ => ⟨?_, fun f => Tile.launch_ep hc p.2 e f⟩, rfl, rfl, rfl,
      rfl, rfl, rfl, fun ch => by cases ch <;> rfl, rfl, rfl, rfl, (Tile.launch_pendingMessage hc p.2).symm, rfl⟩
    · refine Tile.launch_reg_of_ne hc p.2 fun f heq => ?_
      rw [epReg] at heq
      omega
    · refine Tile.launch_reg_of_ne hc p.2 fun f heq => ?_
      have := hfield f
      rw [epReg] at heq
      omega

/-! ## Quiescence (44_async_completion R400) -/

/-- A chain that ends without a fatal code ends where no event is enabled. -/
theorem runChain_quiescent {start : State} (hstart : start.raised = none) {n : Nat} {u s' : State} (hu : start.Leads u)
    (h : runChain n start u = .next s') (hs' : s'.raised = none) : s'.nextEvent = none := by
  induction n generalizing u with
  | zero => cases h
  | succ n ih =>
    rw [runChain] at h
    split at h
    next k c hraised =>
      cases h
      rw [State.raised_raise hstart (hu.raised_lt hraised)] at hs'
      cases hs'
    next =>
      split at h
      next hnone =>
        cases h
        exact hnone
      next e _ =>
        obtain ⟨v, hv, hv'⟩ := andThen_eq_next h
        have kept := State.Leads.kept start
        exact ih (kept.event _ (kept.chain (.of_tiles_eq rfl rfl) n) e u v hu hv) hv'

/-- An ATOMIC step that raises no fatal error ends where no event is enabled. -/
theorem step_quiescent {s s' : State} (hmode : s.mode = .atomic) (h : step s = .next s') (hs' : s'.raised = none) :
    s'.nextEvent = none := by
  obtain ⟨hm, htiles, -⟩ := s.nextTurn_fields
  have hrun : s.raised = none := by
    cases hr : s.raised with
    | none => rfl
    | some p => rw [step, hr] at h; cases h
  have hstart : s.nextTurn.2.raised = none := by rw [State.raised, htiles]; exact hrun
  rw [step_of_running hrun] at h
  obtain ⟨hu, -⟩ | ⟨u, k, c, hu, hraised, rfl⟩ := State.settle_eq_next h
  · have kept := State.Leads.kept s.nextTurn.2
    have chain := kept.chain (State.Leads.of_tiles_eq rfl rfl) s.nextTurn.2.chainBound
    rw [State.unsettled, hm, hmode] at hu
    obtain ⟨v, hv, hv'⟩ := andThen_eq_next hu
    exact runChain_quiescent hstart (kept.event _ chain _ _ v (.of_tiles_eq rfl rfl) hv) hv' hs'
  · rw [State.raised_raise hstart ((State.unsettled_leads hu).raised_lt hraised)] at hs'
    cases hs'

section
variable {s : State} (h : s.nextEvent = none)
include h

theorem State.not_enabled {e : Event} (he : e ∈ s.chainEvents) : s.enabled e = false := by
  simpa using List.find?_eq_none.1 h e he

/-- Where no event is enabled, no rule of a tile is. -/
theorem State.tile_quiet {k : Nat} {t : Tile} (ht : s.tiles[k]? = some t) :
    t.dispatchReady = false ∧ (activateJob t).isHeld = true ∧ (issueChunk t).isHeld = true ∧ t.memIn = [] ∧
      (memResponse t).isHeld = true := by
  have hk : k < s.tiles.length := (List.getElem?_eq_some_iff.1 ht).1
  have h1 := not_enabled h (e := .dispatch k) (by simp [State.chainEvents, hk])
  have h2 := not_enabled h (e := .activate k) (by simp [State.chainEvents, hk])
  have h3 := not_enabled h (e := .issue k) (by simp [State.chainEvents, hk])
  have h4 := not_enabled h (e := .memAnswer k) (by simp [State.chainEvents, hk])
  have h5 := not_enabled h (e := .memResponse k) (by simp [State.chainEvents, hk])
  simp only [State.enabled, ht, Option.any_some, Bool.not_eq_eq_eq_not, Bool.not_false, List.isEmpty_iff] at h1 h2 h3 h4 h5
  exact ⟨h1, h2, h3, h4, h5⟩

/-- Where no event is enabled, no packet is taken by its tile, and a request has one. -/
theorem State.flight_quiet {f : Flight} (hf : f ∈ s.noc) :
    (∀ t, s.tiles[f.dst]? = some t → takes f.dst t f = false) ∧ (s.tiles[f.dst]? = none → ∃ q, f.packet = .resp q) := by
  obtain ⟨i, hi⟩ := List.mem_iff_getElem?.1 hf
  have hlt : i < s.noc.length := (List.getElem?_eq_some_iff.1 hi).1
  constructor
  · intro t ht
    have hk : f.dst < s.tiles.length := (List.getElem?_eq_some_iff.1 ht).1
    have hdeliver := not_enabled h (e := .deliver i f.dst) (by simp [State.chainEvents, hk, hlt])
    simpa [State.enabled, hi, ht] using hdeliver
  · intro ht
    have hfail := not_enabled h (e := .transportError i) (by simp [State.chainEvents, hlt])
    obtain ⟨d, p⟩ := f
    cases p with
    | resp q => exact ⟨q, rfl⟩
    | req q => simp [State.enabled, State.undeliverable, hi, show s.tiles[d]? = none from ht] at hfail

end

/-- A command that waits for a transfer job (10_state R38). -/
theorem CmdState.transfers_cases {c : CmdState} (hphase : c.phaseOk = true) (h : c.transfers ≠ none) :
    (∃ op ep sn, op ≠ .read ∧ c = .exec op ep .xferOut sn) ∨ ∃ ep sn, c = .exec .read ep .xferIn sn := by
  cases c with
  | idle => exact absurd rfl h
  | scheduled _ => exact absurd rfl h
  | exec op ep ph sn =>
    cases ph with
    | hdr | waitAck | waitData => exact absurd rfl h
    | xferOut => exact .inl ⟨op, ep, sn, by rintro rfl; simp [phaseOk] at hphase, rfl⟩
    | xferIn => cases op <;> simp [phaseOk] at hphase ⊢

/-- The continuation of the job a command waits for, once its channel is free. -/
theorem commandJobDone_isHeld {u : Tile} (hphase : u.cmd.phaseOk = true) (h : u.cmd.transfers ≠ none)
    (hfree : u.free .nocReq = true) (acc : List Byte) : (commandJobDone acc u).isHeld = false := by
  obtain ⟨op, ep, sn, hop, hcmd⟩ | ⟨ep, sn, hcmd⟩ := CmdState.transfers_cases hphase h
  · cases op with
    | read => exact absurd rfl hop
    | send | reply | write => simp [commandJobDone, hcmd, hfree, messageOut, writeOut, nocRequest, Result.isHeld]
  · simp [commandJobDone, hcmd, Result.isHeld]

theorem inboundJobDone_isHeld {u : Tile} (h : u.inb ≠ .idle) (hfree : u.free .nocResp = true) (acc : List Byte) :
    (inboundJobDone acc u).isHeld = false := by
  cases hinb : u.inb with
  | idle => exact absurd hinb h
  | busy b => by_cases hk : b.kind = .message <;>
      simp [inboundJobDone, hinb, hfree, hk, messageLanded_eq, memoryServed, respond, Result.isHeld]

theorem Tile.free_of_empty {t : Tile} (h : t.retry = Retry.empty) (ch : Channel) : t.free ch = true := by
  rw [Tile.free, h]
  cases ch <;> rfl

/-- The owner of a job waits for it. -/
theorem Tile.JobsOk.transfers_ne_none {t : Tile} (hok : t.JobsOk) {j : Job} (hj : j ∈ t.jobs) :
    (j.owner = .cmd → t.cmd.transfers ≠ none) ∧ (j.owner = .inb → t.inb.transfers ≠ none) := by
  obtain ⟨-, hcmd, hinbound⟩ := Tile.jobsOk_iff.1 hok
  have hne : ∀ o, j.owner = o → t.directions o ≠ [] := fun o ho hnil =>
    List.ne_nil_of_mem (List.mem_filter.2 ⟨hj, decide_eq_true ho⟩) (List.map_eq_nil_iff.1 hnil)
  exact ⟨fun ho hnone => hne _ ho (by rw [hcmd, hnone]; rfl), fun ho hnone => hne _ ho (by rw [hinbound, hnone]; rfl)⟩

theorem headerFetched_isHeld (ep : Nat) (sn : Snap) (data : List Byte) (t : Tile) :
    (headerFetched ep sn data t).isHeld = false := by
  unfold headerFetched
  simp only
  split
  · rfl
  · split <;> rfl

section
variable {t : Tile} (hretry : t.retry = Retry.empty) (hok : t.JobsOk)
include hretry hok

/-- With every channel free, a job of the tile completes: its owner waits for it. -/
theorem jobDone_isHeld {j : Job} (hj : j ∈ t.jobs) (acc : List Byte) {u : Tile} (hcmd : u.cmd = t.cmd) (hinb : u.inb = t.inb)
    (hsame : u.retry = t.retry) : (jobDone j.owner acc u).isHeld = false := by
  have hfree : ∀ ch, u.jobEnded.free ch = true := Tile.free_of_empty (hsame.trans hretry)
  obtain ⟨hcommand, hinbound⟩ := hok.transfers_ne_none hj
  cases ho : j.owner with
  | cmd =>
    have hcmd' : u.jobEnded.cmd = t.cmd := hcmd
    exact commandJobDone_isHeld (hcmd' ▸ hok.phase) (hcmd' ▸ hcommand ho) (hfree _) acc
  | inb =>
    have hinb' : u.jobEnded.inb = t.inb := hinb
    refine inboundJobDone_isHeld (fun hidle => hinbound ho ?_) (hfree _) acc
    rw [← hinb', hidle]
    rfl

/-- A head job without an active one is activated, or completes at once. -/
theorem activateJob_isHeld {j : Job} {q : List Job} (hactive : t.xfer.active = none) (hqueue : t.xfer.queue = j :: q) :
    (activateJob t).isHeld = false := by
  have hj : j ∈ t.jobs := by simp [Tile.jobs, hqueue]
  unfold activateJob
  simp only [hactive, hqueue]
  split
  · exact jobDone_isHeld hretry hok hj _ rfl rfl rfl
  · rfl

variable (hpath : t.MemPathOk)
include hpath

/-- A response at the memory port is handled. -/
theorem memResponse_isHeld (hout : t.memOut ≠ []) : (memResponse t).isHeld = false := by
  obtain ⟨m, ms, hout⟩ := List.exists_cons_of_ne_nil hout
  have hmemq := hpath.path
  rw [Tile.memPath, hout] at hmemq
  cases hss : m.ss with
  | transfer p o i last len =>
    rw [List.map_cons, hss] at hmemq
    obtain ⟨a, hactive⟩ : ∃ a, t.xfer.active = some a := by
      refine Option.ne_none_iff_exists'.1 fun hnone => ?_
      have hnil := hpath.noJob hnone
      rw [hmemq] at hnil
      cases hnil
    have ha : a.job ∈ t.jobs := by simp [Tile.jobs, hactive]
    rw [memResponse_of_transfer hout hmemq]
    unfold transferResponse
    simp only [show (t.matched ms _).xfer.active = some a from hactive]
    cases last with
    | false => cases m.err <;> rfl
    | true =>
      simp only [if_true, jobDone_isHeld hretry hok ha _ (u := t.matched ms _) rfl rfl rfl, Bool.false_eq_true, if_false]
      split
      · rfl
      · exact jobDone_isHeld hretry hok ha _ rfl rfl rfl
  | header p o =>
    rw [List.map_cons, hss] at hmemq
    have hcount := hpath.headers
    rw [hmemq] at hcount
    have hfetch : t.cmd.fetchesHeader = true := by
      by_contra hno
      simp [hno] at hcount
    rw [memResponse_of_header hout hmemq]
    unfold CmdState.fetchesHeader at hfetch
    split at hfetch
    next ep sn hcmd =>
      unfold headerResponse
      simp only [show (t.matched ms _).cmd = .exec .reply ep .hdr sn from hcmd]
      split
      · rfl
      · exact headerFetched_isHeld ..
    · cases hfetch

end

/-- A tile none of whose rules is enabled has nothing to do but what waits for the NoC. -/
theorem Tile.quiet_idle {t : Tile} (hretry : t.retry = Retry.empty) (hjobs : t.JobsOk) (hpath : t.MemPathOk)
    (hsched : ∀ o, t.cmd ≠ .scheduled o) (hactivate : (activateJob t).isHeld = true) (hissue : (issueChunk t).isHeld = true)
    (hin : t.memIn = []) (hresp : (memResponse t).isHeld = true) :
    t.xfer = { queue := [], active := none } ∧ t.memq = [] ∧ t.memOut = [] ∧ t.inb = .idle ∧
      (t.cmd = .idle ∨ t.cmd.awaits ≠ none) := by
  have hout : t.memOut = [] := by
    by_contra hne
    rw [memResponse_isHeld hretry hjobs hpath hne] at hresp
    cases hresp
  have hmemq : t.memq = [] := by rw [hpath.path, Tile.memPath, hout, hin, hretry]; rfl
  have hactive : t.xfer.active = none := by
    refine Option.eq_none_iff_forall_ne_some.2 fun a ha => ?_
    obtain ⟨hcount, hle, -, hinflight, -⟩ := hpath.counts a ha
    have hopen := hpath.chunks a ha
    rw [hmemq, Tile.openChunks, List.filterMap_nil, eq_comm, List.map_eq_nil_iff, List.range'_eq_nil_iff] at hopen
    have hbuf := (Config.constraints hpath.params).bufCount
    rw [issueChunk_of_ready ha (by omega) (by omega) (by rw [hretry]; rfl)] at hissue
    cases hissue
  have hqueue : t.xfer.queue = [] := by
    by_contra hne
    obtain ⟨j, q, hq⟩ := List.exists_cons_of_ne_nil hne
    rw [activateJob_isHeld hretry hjobs hactive hq] at hactivate
    cases hactivate
  have hnone : ∀ o, t.directions o = [] := fun o => by simp [Tile.directions, Tile.jobs, hactive, hqueue]
  obtain ⟨hphase, hcmd, hinb⟩ := Tile.jobsOk_iff.1 hjobs
  rw [hnone, eq_comm, Option.toList_eq_nil_iff] at hcmd hinb
  refine ⟨?_, hmemq, hout, ?_, ?_⟩
  · rw [← hqueue, ← hactive]
  · cases hidle : t.inb with
    | idle => rfl
    | busy b => rw [hidle] at hinb; cases hinb
  · have hfetch : t.cmd.fetchesHeader = false := by
      have hcount := hpath.headers
      rw [hmemq] at hcount
      by_contra hyes
      simp [hyes] at hcount
    cases hc : t.cmd with
    | idle => exact .inl rfl
    | scheduled o => exact absurd hc (hsched o)
    | exec op ep ph sn =>
      rw [hc] at hphase hcmd hfetch
      cases ph with
      | xferOut | xferIn => cases hcmd
      | hdr => cases op <;> simp [CmdState.phaseOk, CmdState.fetchesHeader] at hphase hfetch
      | waitAck | waitData => cases op <;> simp [CmdState.phaseOk, CmdState.awaits] at hphase ⊢

theorem responseHandler_isHeld (n : NocSS) (q : NocResp) (t : Tile) : (responseHandler n q t).isHeld = false := by
  have hread : ∀ ep sn, (readComplete ep sn q t).isHeld = false := by
    intro ep sn
    unfold readComplete
    split
    · rfl
    · split <;> rfl
  have hforward : ∀ d size a, (forwardedResponse d size a q t).isHeld = false := by
    intro d size a
    obtain ⟨c, h⟩ | h := forwardedResponse_cases d size a q t <;> rw [h] <;> rfl
  unfold responseHandler
  split
  · split
    · exact hread _ _
    · rfl
  · split <;> rfl
  · split <;> rfl
  · exact hforward _ _ _
  · rfl

/-- With CPU_RESP free every response is taken (44_async_completion R397). -/
theorem nocResponse_isHeld {t : Tile} (hfree : t.free .cpuResp = true) (q : NocResp) : (nocResponse q t).isHeld = false := by
  unfold nocResponse
  split
  · rfl
  · simp only [hfree, Bool.true_eq_false, and_false, if_false]
    split
    · rfl
    · split
      · rfl
      · exact responseHandler_isHeld ..

/-- Settles O7: the step ends where no event is enabled, and then no tile and no packet has more to do. -/
theorem atomicStepRunsToQuiescence : Obligations.AtomicStepRunsToQuiescence := by
  intro s s' hmode hnoRetry h hs'
  have hquiet := step_quiescent hmode h hs'
  have hempty : ∀ t ∈ s'.tiles, t.retry = Retry.empty := fun t ht =>
    Retry.eq_empty_iff.2 (atomicStepKeepsRetryEmpty s s' hmode hnoRetry h t ht)
  refine ⟨fun t ht => ?tile, fun f hf => ⟨fun t ht => ?taken, (State.flight_quiet hquiet hf).2⟩⟩
  case tile =>
    obtain ⟨k, hk⟩ := List.mem_iff_getElem?.1 ht
    have hretry := hempty t ht
    obtain ⟨hdispatch, hactivate, hissue, hin, hresp⟩ := State.tile_quiet hquiet hk
    have hsched : ∀ o, t.cmd ≠ .scheduled o := by
      intro o hcmd
      have hall : ∀ chs, t.allFree chs = true := fun chs => Tile.allFree_iff.2 fun ch _ => Tile.free_of_empty hretry ch
      cases hword : t.decoded <;> simp [Tile.dispatchReady, Tile.hasScheduled, hcmd, hword, hall] at hdispatch
    refine ⟨hsched, hin, fun hnone j hj => ?_, fun a ha => ?_, fun hpath hjobs =>
      Tile.quiet_idle hretry hjobs hpath hsched hactivate hissue hin hresp⟩
    · obtain ⟨q, hq⟩ : ∃ q, t.xfer.queue = j :: q := by
        cases hqueue : t.xfer.queue with
        | nil => rw [hqueue] at hj; cases hj
        | cons x q => rw [hqueue] at hj; exact ⟨q, by rw [Option.some.inj hj]⟩
      by_contra hsize
      simp [activateJob, hnone, hq, hsize, Result.isHeld] at hactivate
    · by_contra hno
      rw [not_or, Nat.not_le, Nat.not_le] at hno
      rw [issueChunk_of_ready ha hno.1 hno.2 (by rw [hretry]; rfl)] at hissue
      cases hissue
  case taken =>
    have hretry := hempty t (List.mem_of_getElem? ht)
    have htakes := (State.flight_quiet hquiet hf).1 t ht
    obtain ⟨d, p⟩ := f
    cases p with
    | req q =>
      refine ⟨q, rfl, ?_⟩
      simp only [takes, Tile.inboundReady, Tile.free_of_empty hretry, Bool.and_true, Bool.and_eq_false_iff,
        decide_eq_false_iff_not, ne_eq, not_not] at htakes
      exact htakes
    | resp q =>
      simp [takes, nocResponse_isHeld (Tile.free_of_empty hretry _)] at htakes

end Machine
end Sys2Proof
end

section
/-!
PROOFS about one step in TIMED mode (44_async_completion R401): what it does to each tile, who shares what, and which rules write
DENY_SUSPEND, the suspend bit, COMMAND and the ring registers; and from these the obligations O17, O18, O20, O21 and O22.
-/

namespace Sys2Proof.Machine

/-! ## What a step does to a tile -/

/-- Everything a TIMED step of event `e` can do to tile `k`, which is `t` as the step starts. -/
inductive Tile.Change (s : State) (e : Event) (k : Nat) (t : Tile) : Tile → Prop
  | still {t0 : Tile} (start : t0 = { t with port := t0.port }) (who : t0 = t ∨ e.tile = some k) : t.Change s e k t0
  | raised (c : FatalCode) (who : e.tile = some k ∨ (s.offered e).any CpuReq.isFunctional = true) :
      t.Change s e k { t with fatal := some c }
  | rule {t0 t1 : Tile} {o : Option Item} {b : Bool} (tile : e.tile = some k) (start : t0 = { t with port := t0.port })
      (does : t0.Does s k e t1 o) : t.Change s e k (t1.offering b o)
  | answered {t0 : Tile} {a : CpuResp} {b : Bool} (offers : (s.offered e).any CpuReq.isFunctional = true)
      (start : t0 = { t with port := t0.port }) : t.Change s e k (t0.offering b (some (.cpuResp a)))
  | served {t0 t1 : Tile} {q : NocReq} {resp : NocResp} {a : Option CpuResp} {b : Bool} (kind : q.kind ≠ .message)
      (offers : (s.offered e).any CpuReq.isFunctional = true) (start : t0 = { t with port := t0.port })
      (served : serveFunctional q t0 = .ok (t1, resp)) (stores : s.softwareStores e = (q.stores t0).map fun i => (k, i)) :
      t.Change s e k (t1.offering b (a.map Item.cpuResp))

theorem Tile.of_ported {t t0 : Tile} (start : t0 = { t with port := t0.port }) : ∃ port, t0 = { t with port := port } := ⟨_, start⟩

/-- A list in which one position is set. -/
theorem getElem?_set_cases {l : List Tile} {j k : Nat} {t t' : Tile} (ht : l[k]? = some t) :
    (j ≠ k ∧ (l.set j t')[k]? = some t) ∨ (j = k ∧ (l.set j t')[k]? = some t') := by
  by_cases h : j = k
  · subst h
    exact .inr ⟨rfl, List.getElem?_set_self (List.getElem?_eq_some_iff.1 ht).1⟩
  · exact .inl ⟨h, (List.getElem?_set_ne h).trans ht⟩

section
variable {s u : State} {e : Event} {k : Nat} {t t0 : Tile} (hrun : s.raised = none) (ht : s.tiles[k]? = some t)
  (start : t0 = { t with port := t0.port }) (tiles : u.tiles = s.tiles.set k t0)
include hrun ht start tiles

/-- The state a rule starts from records no code, and its tile is the one the rule starts from. -/
theorem raised_of_ported : u.raised = none ∧ u.tiles[k]? = some t0 := by
  have hfatal : t0.fatal = none := by rw [start]; exact State.fatal_eq_none (t := t) hrun ht
  have hraised : u.raised = (s.setTile k t0).raised := by rw [State.raised, tiles]; rfl
  exact ⟨hraised.trans (State.raised_setTile hrun hfatal), tiles ▸ List.getElem?_set_self (List.getElem?_eq_some_iff.1 ht).1⟩

omit hrun start in
/-- One tile changes, the others are still. -/
theorem change_of_set {t' : Tile} (hchange : t.Change s e k t') (j : Nat) (v : Tile) (hv : s.tiles[j]? = some v) :
    ∃ v', (u.tiles.set k t')[j]? = some v' ∧ v.Change s e j v' := by
  rw [tiles, List.set_set]
  obtain ⟨-, hj⟩ | ⟨rfl, hj⟩ := getElem?_set_cases (j := k) (t' := t') hv
  · exact ⟨v, hj, .still rfl (.inl rfl)⟩
  · cases hv.symm.trans ht
    exact ⟨t', hj, hchange⟩

omit hrun in
/-- A functional request that is answered changes its target, its requester, and no other tile. -/
theorem change_of_functional {j : Nat} {target target' : Tile} {q : NocReq} {resp : NocResp} (kind : q.kind ≠ .message)
    (offers : (s.offered e).any CpuReq.isFunctional = true) (htarget : u.tiles[j]? = some target)
    (served : serveFunctional q target = .ok (target', resp)) (stores : s.softwareStores e = (q.stores target).map fun i => (j, i))
    {tk : Tile} (htk : (u.tiles.set j target')[k]? = some tk) (a : CpuResp) (b : Bool) (i : Nat) (v : Tile)
    (hv : s.tiles[i]? = some v) :
    ∃ v', ((u.tiles.set j target').set k (tk.offering b (some (.cpuResp a))))[i]? = some v' ∧ v.Change s e i v' := by
  have hself : u.tiles[k]? = some t0 := tiles ▸ List.getElem?_set_self (List.getElem?_eq_some_iff.1 ht).1
  by_cases hik : k = i
  · subst hik
    cases ht.symm.trans hv
    refine ⟨_, List.getElem?_set_self (List.getElem?_eq_some_iff.1 htk).1, ?_⟩
    obtain ⟨-, h⟩ | ⟨rfl, h⟩ := getElem?_set_cases (j := j) (t' := target') hself
    · cases h.symm.trans htk
      exact .answered offers start
    · cases h.symm.trans htk
      cases hself.symm.trans htarget
      exact .served (a := some a) kind offers start served stores
  · have hvi : u.tiles[i]? = some v := by rw [tiles, List.getElem?_set_ne hik, hv]
    rw [List.getElem?_set_ne hik]
    obtain ⟨-, h⟩ | ⟨rfl, h⟩ := getElem?_set_cases (j := j) (t' := target') hvi
    · exact ⟨v, h, .still rfl (.inl rfl)⟩
    · cases hvi.symm.trans htarget
      exact ⟨target', h, .served (a := none) (b := false) kind offers rfl served stores⟩

end

/-- Before it is settled, an effect changes a tile as listed, or it raises a code at a tile that may. -/
theorem Effect.change {run : State → Host.Outcome State Fault Refusal} {e : Event} {s u : State} (h : Effect run e s u)
    (hmode : s.mode = .timed) (hrun : s.raised = none) :
    (∀ (k : Nat) (t : Tile), s.tiles[k]? = some t → ∃ t', u.tiles[k]? = some t' ∧ t.Change s e k t') ∨
      ∃ k c, u.raised = some (k, c) ∧ (e.tile = some k ∨ (s.offered e).any CpuReq.isFunctional = true) := by
  cases h with
  | still tiles => exact .inl fun k t ht => ⟨t, tiles ▸ ht, .still rfl (.inl rfl)⟩
  | @rule u k t t0 r tile ht start tiles mode does =>
    obtain ⟨hraised, hself⟩ := raised_of_ported hrun ht start tiles
    cases r with
    | held =>
      rw [State.commit, ← State.set_self hself]
      exact .inl (change_of_set ht tiles (.still start (.inr tile)))
    | fatal c => exact .inr ⟨k, c, State.raised_raise hraised (List.getElem?_eq_some_iff.1 hself).1, .inl tile⟩
    | done t1 o =>
      rw [State.commit_done_tiles]
      exact .inl (change_of_set ht tiles (.rule tile start (does t1 o rfl)))
  | issued chained => exact absurd hrun (chained.resolve_left (by rw [hmode]; decide))
  | @functional u k j t t0 target target' q resp need size addr kind offers tile ht start tiles mode htarget served stores =>
    obtain ⟨hraised, hself⟩ := raised_of_ported hrun ht start tiles
    obtain ⟨tk, htk⟩ : ∃ tk, (u.setTile j target').tiles[k]? = some tk := by
      obtain ⟨-, h⟩ | ⟨-, h⟩ := getElem?_set_cases (j := j) (t' := target') hself <;> exact ⟨_, h⟩
    rw [State.onTile_of_getElem? htk]
    obtain ⟨c, h⟩ | h := forwardedResponse_cases need size addr resp tk <;> rw [h]
    · have hfatal : target'.fatal = none :=
        (serveFunctional_evolves served).fatal.trans (State.fatal_eq_none hraised htarget)
      exact .inr ⟨k, c, State.raised_raise (State.raised_setTile hraised hfatal) (List.getElem?_eq_some_iff.1 htk).1, .inl tile⟩
    · rw [State.commit_done_tiles]
      exact .inl (change_of_functional ht start tiles kind offers htarget served stores htk _ _)
  | @functionalFatal u k j t t0 c offers tile ht start tiles =>
    obtain ⟨hraised, hself⟩ := raised_of_ported hrun ht start tiles
    by_cases hj : j < u.tiles.length
    · exact .inr ⟨j, c, State.raised_raise hraised hj, .inr offers⟩
    · rw [State.raise_of_le c (Nat.not_lt.1 hj), ← State.set_self hself]
      exact .inl (change_of_set ht tiles (.still start (.inr tile)))

/-- Only what raises a code records one. -/
theorem Tile.Change.fatal {s : State} {e : Event} {k : Nat} {t t' : Tile} (h : t.Change s e k t') (hrun : t.fatal = none) :
    t'.fatal = none ∨ e.tile = some k ∨ (s.offered e).any CpuReq.isFunctional = true := by
  cases h with
  | still start who => exact .inl (by rw [start]; exact hrun)
  | raised c who => exact .inr who
  | rule tile start does => exact .inr (.inl tile)
  | answered offers start => exact .inr (.inr offers)
  | served kind offers start served stores => exact .inr (.inr offers)

/-- What a step does to a tile, in TIMED mode. -/
theorem step_change {s s' : State} {e : Event} {r : Bool} {rest : List Turn} (hdue : s.Due e r rest) (h : step s = .next s')
    {k : Nat} {t : Tile} (ht : s.tiles[k]? = some t) : ∃ t', s'.tiles[k]? = some t' ∧ t.Change (s.chosen r rest) e k t' := by
  rw [step_of_due hdue] at h
  obtain ⟨h, hraised⟩ | ⟨u, j, c, hu, hraised, rfl⟩ := State.settle_eq_next h
  · obtain hchange | ⟨j, c, hc, -⟩ := (Effect.of_perform h).change hdue.timed hdue.running
    · exact hchange k t ht
    · rw [hraised] at hc
      cases hc
  · obtain ⟨v, hv, hfatal⟩ := State.raised_eq_some hraised
    have who : e.tile = some j ∨ ((s.chosen r rest).offered e).any CpuReq.isFunctional = true := by
      obtain hchange | ⟨i, d, hd, who⟩ := (Effect.of_perform hu).change hdue.timed hdue.running
      · have hlt : j < (s.chosen r rest).tiles.length := by
          refine State.Leads.raised_lt (State.unsettled_leads (e := e) ?_) hraised
          simpa [State.unsettled, hdue.timed] using hu
        obtain ⟨v', hv', hchange⟩ := hchange j _ (List.getElem?_eq_getElem hlt)
        cases hv.symm.trans hv'
        refine (hchange.fatal (State.fatal_eq_none hdue.running (List.getElem?_eq_getElem hlt))).resolve_left fun hnone => ?_
        rw [hfatal] at hnone
        cases hnone
      · rw [hraised] at hd
        cases hd
        exact who
    rw [State.raise_getElem?, State.chosen_tiles, ht]
    by_cases hk : k = j
    · subst hk
      exact ⟨_, if_pos rfl, .raised c who⟩
    · exact ⟨t, if_neg hk, .still rfl (.inl rfl)⟩

theorem State.softwareStores_chosen (s : State) (r : Bool) (rest : List Turn) (e : Event) :
    (s.chosen r rest).softwareStores e = s.softwareStores e := by
  cases e <;> rfl

theorem State.offered_chosen (s : State) (r : Bool) (rest : List Turn) (e : Event) :
    (s.chosen r rest).offered e = s.offered e := by
  cases e <;> rfl

/-! ## Tiles share no state (60_exceptions R452) -/

/-- Settles O18. -/
theorem timedStepIsLocal : Obligations.TimedStepIsLocal := by
  intro s s' e r rest k hdue hfun htile h
  rw [← s.offered_chosen r rest] at hfun
  cases ht : s.tiles[k]? with
  | none =>
    rw [List.getElem?_eq_none_iff] at ht ⊢
    rwa [(step_leads h).length]
  | some t =>
    obtain ⟨t', ht', hchange⟩ := step_change hdue h ht
    rw [ht']
    cases hchange with
    | still start who =>
      rw [who.resolve_right htile]
    | raised c who => exact absurd who (by simp [htile, hfun])
    | rule tile start does => exact absurd tile htile
    | answered offers start => rw [hfun] at offers; cases offers
    | served kind offers start served stores => rw [hfun] at offers; cases offers

/-! ## DENY_SUSPEND (40_command_engine R230) -/

/-- The events whose rule may recompute DENY_SUSPEND at the tile `t`. -/
def Event.recomputes (t : Tile) : Event → Prop
  | .deliver _ _ => True
  | .memResponse _ => True
  | .activate _ => ∃ b, t.inb = .busy b ∧ b.kind = .message ∧ ∃ j ∈ t.xfer.queue.head?, j.size = 0 ∧ j.owner = .inb
  | .cpu _ _ => True
  | .cpuAgain _ _ => True
  | _ => False

theorem Tile.pendingMessage_iff (t : Tile) : t.pendingMessage = true ↔ ∃ p < t.cfg.numEndpoints, t.ep p .bufMsgCnt ≠ 0 := by
  simp [Tile.pendingMessage]

/-- What is pending depends on the parameters and the registers alone. -/
theorem Tile.pendingMessage_offering (t : Tile) (b : Bool) (o : Option Item) :
    (t.offering b o).pendingMessage = t.pendingMessage := by
  simp [Tile.pendingMessage, Tile.ep, Tile.reg]

theorem Tile.Ends.recomputes {t u : Tile} {k : Nat} {e : Event} {b : InbRec} (h : t.Ends k e .inb u) (inb : u.inb = .busy b)
    (kind : b.kind = .message) : e.recomputes t := by
  rw [h.inb] at inb
  generalize ho : Owner.inb = o at h
  cases h with
  | @empty j q active queue size => exact ⟨b, inb, kind, j, by rw [queue]; rfl, size, ho.symm⟩
  | last => trivial

theorem Tile.Does.denySuspend {s : State} {k : Nat} {t t' : Tile} {e : Event} {o : Option Item} (h : t.Does s k e t' o) :
    t'.denySuspend = t.denySuspend ∨ (t'.denySuspend = t'.pendingMessage ∧ e.recomputes t) := by
  cases h with
  | woken => rw [Tile.wake_eq]; exact .inl rfl
  | ringAdvanced => rw [Tile.retire_advanceRing_frame]; exact .inl rfl
  | readLanded ends | payloadSent ends | memoryServed ends => rw [ends.frame]; exact .inl rfl
  | messageLanded ends inb kind => exact .inr ⟨rfl, ends.recomputes inb kind⟩
  | accessed event => obtain ⟨_, rfl⟩ | ⟨_, rfl⟩ | ⟨_, rfl⟩ := event <;> exact .inr ⟨rfl, trivial⟩
  | _ => exact .inl rfl

theorem serveFunctional_denySuspend {t t' : Tile} {q : NocReq} {resp : NocResp} (h : serveFunctional q t = .ok (t', resp)) :
    t'.denySuspend = t.denySuspend ∨ t'.denySuspend = t'.pendingMessage := by
  obtain ⟨-, t1, reply, -, -, rfl⟩ | ⟨d, rfl⟩ | ⟨m, rfl⟩ := serveFunctional_cases h
  · exact .inr rfl
  · exact .inl rfl
  · exact .inl rfl

theorem State.recomputes_of_offers {s : State} {e : Event} (h : (s.offered e).any CpuReq.isFunctional = true) (t : Tile) :
    e.recomputes t := by
  cases e <;> trivial

theorem Tile.Change.denySuspend {s : State} {e : Event} {k : Nat} {t t' : Tile} (h : t.Change s e k t') :
    t'.denySuspend = t.denySuspend ∨ (t'.denySuspend = t'.pendingMessage ∧ e.recomputes t) := by
  cases h with
  | still start who => exact .inl (by rw [start])
  | raised c who => exact .inl rfl
  | rule tile start does =>
    rw [Tile.offering_denySuspend, Tile.pendingMessage_offering]
    have hdoes := does.denySuspend
    rw [start] at hdoes
    exact hdoes
  | answered offers start => exact .inl (by rw [Tile.offering_denySuspend, start])
  | served kind offers start served stores =>
    rw [Tile.offering_denySuspend, Tile.pendingMessage_offering]
    have hserved := serveFunctional_denySuspend served
    rw [start] at hserved
    exact hserved.imp_right fun h => ⟨h, State.recomputes_of_offers offers t⟩

/-- Settles O20. -/
theorem timedDenySuspend : Obligations.TimedDenySuspend := by
  intro s s' e r rest k t hdue ht h
  obtain ⟨t', ht', hchange⟩ := step_change hdue h ht
  refine ⟨t', ht', hchange.denySuspend.imp_right fun ⟨hpending, hevent⟩ => ⟨?_, ?_⟩⟩
  · rw [hpending, Tile.pendingMessage_iff]
  · cases e <;> exact hevent

/-! ## Suspension (40_command_engine R213, R231) -/

/-- Only the suspend step and the wake-up change the suspend bit. -/
theorem Tile.Does.suspendBit {s : State} {k : Nat} {t t' : Tile} {e : Event} {o : Option Item} (h : t.Does s k e t' o) :
    t'.suspended = t.suspended ∨ (e = .suspend k ∧ t.maySuspend = true ∧ t'.suspended = true) ∨
      (e = .dispatch k ∧ (∃ p, t.decoded = .ok (.wakeupCore p)) ∧ (t.suspended = false → t'.suspended = false)) := by
  cases h with
  | @woken p _ _ word =>
    refine .inr (.inr ⟨rfl, ⟨p, word⟩, fun hrun => ?_⟩)
    rw [Tile.retire_wake]
    simp [hrun]
  | suspended may => exact .inr (.inl ⟨rfl, may, rfl⟩)
  | ringAdvanced => rw [Tile.retire_advanceRing_frame]; exact .inl rfl
  | readLanded ends | payloadSent ends | messageLanded ends | memoryServed ends => rw [ends.frame]; exact .inl rfl
  | accessed _ access => obtain h | ⟨-, h⟩ := regAccess_frame access <;> rw [h] <;> exact .inl rfl
  | _ => exact .inl rfl

theorem Tile.Change.suspendBit {s : State} {e : Event} {k : Nat} {t t' : Tile} (h : t.Change s e k t') :
    t'.suspended = t.suspended ∨ (e = .suspend k ∧ t.maySuspend = true ∧ t'.suspended = true) ∨
      (e = .dispatch k ∧ (∃ p, t.decoded = .ok (.wakeupCore p)) ∧ (t.suspended = false → t'.suspended = false)) := by
  cases h with
  | still start who => exact .inl (by rw [start])
  | raised c who => exact .inl rfl
  | rule tile start does =>
    have hdoes := does.suspendBit
    rw [Tile.offering_suspended]
    rw [start] at hdoes
    exact hdoes
  | answered offers start => exact .inl (by rw [Tile.offering_suspended, start])
  | served kind offers start served stores =>
    exact .inl (by rw [Tile.offering_suspended, serveFunctional_frame served, start])

/-- A CPU that does not run makes no request, and offers none again (44_async_completion R407). -/
theorem perform_of_notRunning {run : State → Host.Outcome State Fault Refusal} {s : State} {e : Event} {k : Nat} {t : Tile}
    (he : (∃ q, e = .cpu k q) ∨ ∃ i, e = .cpuAgain k i) (ht : s.tiles[k]? = some t) (hrun : t.cpuRuns = false) :
    perform run e s = .next s := by
  obtain ⟨q, rfl⟩ | ⟨i, rfl⟩ := he
  · simp [perform, cpuIssues, ht, hrun]
  · simp [perform, cpuAgain, ht, hrun]

/-- Settles O21. -/
theorem timedSuspension : Obligations.TimedSuspension := by
  intro s s' e r rest k t t' hdue h ht ht'
  obtain ⟨u, hu, hchange⟩ := step_change hdue h ht
  cases ht'.symm.trans hu
  refine ⟨fun hrun hsusp => ?_, fun hsusp hrun => ?_, fun hsusp hreq => ?_⟩
  · obtain hsame | ⟨he, hmay, -⟩ | ⟨-, -, hkeep⟩ := hchange.suspendBit
    · rw [hsame, hrun] at hsusp
      cases hsusp
    · exact ⟨he, by simpa [Tile.maySuspend] using hmay⟩
    · rw [hkeep hrun] at hsusp
      cases hsusp
  · obtain hsame | ⟨-, -, hset⟩ | ⟨he, hword, -⟩ := hchange.suspendBit
    · rw [hsame, hsusp] at hrun
      cases hrun
    · rw [hset] at hrun
      cases hrun
    · exact ⟨he, hword⟩
  · have hstill := perform_of_notRunning (run := runChain (s.chosen r rest).chainBound (s.chosen r rest))
      (s := s.chosen r rest) hreq ht (by simp [Tile.cpuRuns, hsusp])
    rw [step_of_due hdue, hstill, State.settle_of_running (s' := s.chosen r rest) hdue.running] at h
    cases h
    rfl

/-! ## COMMAND (40_command_engine R203, R220, R221) -/

/-- What becomes of COMMAND while a command is in progress: it keeps its word, or the command ends. -/
def Tile.CommandKept (t t' : Tile) : Prop :=
  (t'.cmd ≠ .idle ∧ t'.reg commandReg = t.reg commandReg) ∨
    (t'.cmd = .idle ∧
      (t'.reg commandReg = 0 ∨ (t'.reg commandReg = t.reg commandReg ∧ ∃ p, t.decoded = .ok (.idle p))))

namespace Tile.CommandKept

theorem of_eq {t t' : Tile} (hbusy : t.cmd ≠ .idle) (hcmd : t'.cmd = t.cmd) (hreg : t'.reg commandReg = t.reg commandReg) :
    t.CommandKept t' := .inl ⟨hcmd ▸ hbusy, hreg⟩

theorem retired (t u : Tile) : t.CommandKept u.retire := .inr ⟨rfl, .inl u.reg_retire_command⟩

theorem going {t t' : Tile} {op : AsyncOp} {p : Nat} {ph : Phase} {sn : Snap} (hcmd : t'.cmd = .exec op p ph sn)
    (hreg : t'.reg commandReg = t.reg commandReg) : t.CommandKept t' :=
  .inl ⟨by rw [hcmd]; exact CmdState.noConfusion, hreg⟩

theorem accessed {t t' : Tile} {a : RegAccess} {org : Origin} {reply : RegReply} (hbusy : t.cmd ≠ .idle)
    (h : regAccess t a org = .ok (t', reply)) : t.CommandKept t' := by
  obtain ⟨-, ⟨-, rfl⟩ | ⟨-, hne, rfl⟩ | ⟨-, -, hidle, -⟩⟩ := regAccess_cases h
  · exact of_eq hbusy rfl rfl
  · exact of_eq hbusy rfl (t.reg_setReg_of_ne _ _ _ (Ne.symm hne))
  · exact absurd hidle hbusy

end Tile.CommandKept

open Tile.CommandKept (of_eq retired going)

theorem Tile.Does.command {s : State} {k : Nat} {t t' : Tile} {e : Event} {o : Option Item} (h : t.Does s k e t' o)
    (hbusy : t.cmd ≠ .idle) : t.CommandKept t' := by
  cases h with
  | idled _ word => exact .inr ⟨rfl, .inr ⟨rfl, _, word⟩⟩
  | woken | ringAdvanced | commandDenied | readLanded | commandAnswered => exact retired ..
  | payloadQueued | headerAsked | dataAsked | headerArrived | dataArrived => exact going rfl rfl
  | payloadSent ends => exact going rfl (by rw [ends.frame]; rfl)
  | messageLanded ends =>
    rw [ends.frame]
    exact of_eq hbusy rfl
      (Tile.reg_landed_of_ne _ (epReg_ne_command _ _).symm (epReg_ne_command _ _).symm)
  | memoryServed ends => rw [ends.frame]; exact of_eq hbusy rfl rfl
  | accessed _ access => exact (Tile.CommandKept.accessed hbusy access :)
  | _ => exact of_eq hbusy rfl rfl

theorem serveFunctional_command {t t' : Tile} {q : NocReq} {resp : NocResp} (h : serveFunctional q t = .ok (t', resp))
    (hbusy : t.cmd ≠ .idle) : t.CommandKept t' := by
  obtain ⟨-, t1, reply, haccess, -, rfl⟩ | ⟨d, rfl⟩ | ⟨m, rfl⟩ := serveFunctional_cases h
  · exact (Tile.CommandKept.accessed hbusy haccess :)
  · exact of_eq hbusy rfl rfl
  · exact of_eq hbusy rfl rfl

theorem Tile.CommandKept.offering {t t' : Tile} (h : t.CommandKept t') (b : Bool) (o : Option Item) :
    t.CommandKept (t'.offering b o) := by
  unfold Tile.CommandKept
  rw [Tile.offering_cmd, Tile.reg_congr (Tile.offering_regs ..)]
  exact h

theorem Tile.Change.command {s : State} {e : Event} {k : Nat} {t t' : Tile} (h : t.Change s e k t') (hbusy : t.cmd ≠ .idle) :
    t.CommandKept t' := by
  cases h with
  | still start who => rw [start]; exact of_eq hbusy rfl rfl
  | raised c who => exact of_eq hbusy rfl rfl
  | rule tile start does =>
    obtain ⟨port, rfl⟩ := Tile.of_ported start
    exact (does.command hbusy).offering ..
  | answered offers start =>
    obtain ⟨port, rfl⟩ := Tile.of_ported start
    exact Tile.CommandKept.offering (t' := { t with port := port }) (of_eq hbusy rfl rfl) ..
  | served kind offers start served stores =>
    obtain ⟨port, rfl⟩ := Tile.of_ported start
    exact (serveFunctional_command served hbusy).offering ..

/-- Settles O22. -/
theorem timedBusyCommandWord : Obligations.TimedBusyCommandWord := by
  intro s s' e r rest k t t' hdue h ht ht' hbusy
  obtain ⟨u, hu, hchange⟩ := step_change hdue h ht
  cases ht'.symm.trans hu
  obtain ⟨hcmd, hreg⟩ | ⟨hcmd, hreg⟩ := hchange.command hbusy
  · exact ⟨fun _ => hreg, fun hidle => absurd hidle hcmd⟩
  · exact ⟨fun hne => absurd hcmd hne, fun _ => hreg⟩

/-! ## The ring of a receive endpoint (42_message_unit R313) -/

/-- No register of the ring of endpoint `p` of tile `k` is stored to. -/
def AvoidsRing (p k : Nat) (stores : Option (Nat × Nat)) : Prop := ∀ f ∈ ringFields, stores ≠ some (k, epReg p f)

namespace Tile.RingOk

variable {t t' : Tile} {p n : Nat}

/-- A ring whose registers keep their words stays in order, if no message begins to land in it. -/
theorem of_ring (h : t.RingOk p n) (hev : t.Evolves t') (hring : ∀ f ∈ ringFields, t'.ep p f = t.ep p f)
    (hinb : ∀ b, t'.inb = .busy b → b.kind = .message → t.inb = .busy b) : t'.RingOk p n := by
  have hslots := hring .bufSlots (by decide)
  have hcnt := hring .bufMsgCnt (by decide)
  have hrd := hring .bufRdPtr (by decide)
  have hwr := hring .bufWrPtr (by decide)
  constructor
  case fits => exact h.fits.of_evolves hev
  case endpoint => rw [hev.cfg]; exact h.endpoint
  case slots => rw [hslots, h.slots]
  case pos => exact h.pos
  case count => rw [hcnt]; exact h.count
  case writePtr => rw [hwr, hrd, hcnt, h.writePtr]
  case landing =>
    intro b hb hkind hep
    rw [hwr, hcnt]
    exact h.landing b (hinb b hb hkind) hkind hep

theorem of_eq (h : t.RingOk p n) (hev : t.Evolves t') (hregs : t'.regs = t.regs := by rfl)
    (hinb : t'.inb = t.inb := by rfl) : t'.RingOk p n :=
  h.of_ring hev (fun _ _ => Tile.reg_congr hregs _) fun _ hb _ => hinb ▸ hb

theorem of_notLanding (h : t.RingOk p n) (hev : t.Evolves t') (hregs : t'.regs = t.regs := by rfl)
    (hinb : ∀ b, t'.inb = .busy b → b.kind ≠ .message) : t'.RingOk p n :=
  h.of_ring hev (fun _ _ => Tile.reg_congr hregs _) fun b hb hkind => absurd hkind (hinb b hb)

theorem offering (h : t.RingOk p n) (b : Bool) (o : Option Item) : (t.offering b o).RingOk p n :=
  h.of_eq (t.offering_evolves b o) (Tile.offering_regs ..) (Tile.offering_inb ..)

theorem retire (h : t.RingOk p n) : t.retire.RingOk p n :=
  h.of_ring (.retire t) (fun _ _ => Tile.ep_retire ..) fun _ hb _ => hb

/-- A message that INC_READ_PTR takes out leaves the ring in order. -/
theorem advance (h : t.RingOk p n) (e : Nat) : (t.advanceRing e).RingOk p n := by
  have hev := advanceRing_evolves t e
  by_cases hpe : e = p
  · subst hpe
    by_cases hcnt : t.ep e .bufMsgCnt = 0
    · rw [Tile.advanceRing_of_empty hcnt] at hev ⊢
      exact h.of_eq hev
    · have hslots : t.ep e .bufSlots ≠ 0 := by rw [h.slots]; exact h.pos.ne'
      have hframe : ∀ f, f ≠ .bufRdPtr → f ≠ .bufMsgCnt → (t.advanceRing e).ep e f = t.ep e f := fun f hrd hmsg =>
        t.reg_advanceRing_of_ne (fun heq => hrd (epReg_inj heq).2) fun heq => hmsg (epReg_inj heq).2
      have hinb : (t.advanceRing e).inb = t.inb := by rw [Tile.advanceRing_of_pending hcnt hslots]; rfl
      have hrd := Tile.advanceRing_bufRdPtr h.fits h.endpoint hcnt hslots
      have hmsg := Tile.advanceRing_bufMsgCnt h.fits h.endpoint hcnt hslots
      have hwr := hframe .bufWrPtr (by decide) (by decide)
      have hcount := h.count
      constructor
      case fits => exact h.fits.of_evolves hev
      case endpoint => rw [hev.cfg]; exact h.endpoint
      case slots => rw [hframe .bufSlots (by decide) (by decide), h.slots]
      case pos => exact h.pos
      case count => rw [hmsg]; omega
      case writePtr =>
        have hsum : t.ep e .bufRdPtr + 1 + (t.ep e .bufMsgCnt - 1) = t.ep e .bufRdPtr + t.ep e .bufMsgCnt := by omega
        rw [hwr, hrd, hmsg, h.writePtr, h.slots, Nat.mod_add_mod, hsum]
      case landing =>
        intro b hb hkind hep
        obtain ⟨hslot, hn, hroom⟩ := h.landing b (hinb ▸ hb) hkind hep
        rw [hwr, hmsg]
        exact ⟨hslot, hn, by omega⟩
  · have hring : ∀ f ∈ ringFields, (t.advanceRing e).ep p f = t.ep p f := fun f _ =>
      t.reg_advanceRing_of_ne (fun heq => hpe (epReg_inj heq).1.symm) fun heq => hpe (epReg_inj heq).1.symm
    refine h.of_ring hev hring fun b hb _ => ?_
    rwa [← Tile.retire_inb, Tile.retire_advanceRing_frame] at hb

/-- A message that has landed is counted, and the ring is in order. -/
theorem landed (h : t.RingOk p n) {b : InbRec} (hinb : t.inb = .busy b) (hkind : b.kind = .message) :
    (t.landed b).RingOk p n := by
  have hev : t.Evolves (t.landed b) := ((Tile.Evolves.setEp ..).trans (.setEp ..)).trans .of_eq
  by_cases hpe : b.ep = p
  · subst hpe
    obtain ⟨hslot, hn, hroom⟩ := h.landing b hinb hkind rfl
    have hnW : n < 2 ^ t.cfg.W := h.slots ▸ h.fits.reg_lt _
    have hframe : ∀ f, f ≠ .bufWrPtr → f ≠ .bufMsgCnt → (t.landed b).ep b.ep f = t.ep b.ep f := fun f hw hmsg =>
      t.reg_landed_of_ne (fun heq => hw (epReg_inj heq).2) fun heq => hmsg (epReg_inj heq).2
    have hwr : (t.landed b).ep b.ep .bufWrPtr = (b.slot + 1) % b.slots :=
      Tile.landed_bufWrPtr h.fits h.endpoint (hn ▸ h.pos) (hn ▸ hnW.le)
    have hmsg : (t.landed b).ep b.ep .bufMsgCnt = t.ep b.ep .bufMsgCnt + 1 :=
      (Tile.landed_bufMsgCnt h.fits h.endpoint).trans (Config.wrapW_of_lt (by omega))
    have hrd := hframe .bufRdPtr (by decide) (by decide)
    constructor
    case fits => exact h.fits.of_evolves hev
    case endpoint => exact h.endpoint
    case slots => rw [hframe .bufSlots (by decide) (by decide), h.slots]
    case pos => exact h.pos
    case count => rw [hmsg]; omega
    case writePtr => rw [hwr, hrd, hmsg, hslot, hn, h.writePtr, Nat.mod_add_mod, Nat.add_assoc]
    case landing => intro b' hb; cases hb
  · have hring : ∀ f ∈ ringFields, (t.landed b).ep p f = t.ep p f := fun f _ =>
      t.reg_landed_of_ne (fun heq => hpe (epReg_inj heq).1.symm) fun heq => hpe (epReg_inj heq).1.symm
    exact h.of_ring hev hring fun b' hb => by cases hb

/-- A message that is accepted lands at the write pointer, with room for it. -/
theorem accepted (h : t.RingOk p n) {b : InbRec} (j : Job) (hslot : b.slot = t.ep b.ep .bufWrPtr)
    (hslots : b.slots = t.ep b.ep .bufSlots) (hcount : t.ep b.ep .bufMsgCnt < t.ep b.ep .bufSlots) :
    ({ t with inb := .busy b }.enqueue j).RingOk p n := by
  obtain ⟨fits, endpoint, slots, pos, count, writePtr, -⟩ := h
  refine ⟨fits.of_evolves .of_eq, endpoint, slots, pos, count, writePtr, ?_⟩
  rintro _ ⟨⟩ - rfl
  exact ⟨hslot, hslots.trans slots, slots ▸ hcount⟩

/-- A register access that stores to no register of the ring. -/
theorem accessed (h : t.RingOk p n) {k : Nat} {a : RegAccess} {org : Origin} {reply : RegReply}
    (haccess : regAccess t a org = .ok (t', reply)) (hring : AvoidsRing p k ((a.stores t.cfg).map fun i => (k, i))) :
    t'.RingOk p n := by
  have hev := regAccess_evolves haccess
  obtain ⟨hcheck, ⟨-, rfl⟩ | ⟨hwrite, -, rfl⟩ | ⟨-, -, -, rfl⟩⟩ := regAccess_cases haccess
  · exact h
  · refine h.of_ring hev (fun f hf => t.reg_setReg_of_ne _ _ _ fun heq => hring f hf ?_) fun _ hb _ => hb
    rw [RegAccess.stores, if_pos ⟨hwrite, hcheck⟩, heq]
    rfl
  · exact h.of_ring hev (fun f _ => t.reg_setReg_of_ne _ _ _ (epReg_ne_command _ _)) fun _ hb _ => hb

theorem of_ends (h : t.RingOk p n) {k : Nat} {e : Event} {o : Owner} (ends : t.Ends k e o t') : t'.RingOk p n :=
  h.of_eq ends.evolves (by rw [ends.frame]) (by rw [ends.frame])

end Tile.RingOk

theorem Tile.Does.ring {s : State} {k : Nat} {t t' : Tile} {e : Event} {o : Option Item} {p n : Nat} (h : t.Does s k e t' o)
    (hring : AvoidsRing p k (s.softwareStores e)) (hok : t.RingOk p n) : t'.RingOk p n := by
  have hev := h.evolves
  cases h with
  | woken => exact (hok.of_eq (wake_evolves t) (by rw [Tile.wake_eq]) (by rw [Tile.wake_eq])).retire
  | ringAdvanced => exact (hok.advance _).retire
  | commandDenied => exact (hok.of_eq (.deny ..)).retire
  | readLanded ends => exact (hok.of_ends ends).retire
  | commandAnswered => exact (hok.of_eq (t' := t.consumed _) .of_eq).retire
  | payloadSent ends => exact (hok.of_ends ends).of_eq .of_eq
  | messageLanded ends inb kind => exact (hok.of_ends ends).landed inb kind
  | memoryServed ends => exact (hok.of_ends ends).of_notLanding .of_eq (hinb := fun b hb => by cases hb)
  | messageAccepted _ _ slot slots count => exact hok.accepted _ slot slots count
  | memoryAccepted _ kind => exact hok.of_notLanding hev (hinb := by rintro _ ⟨⟩; exact kind)
  | accessed _ access stores =>
    rw [stores] at hring
    exact (hok.accessed access hring).of_eq (.recompute _)
  | _ => exact hok.of_eq hev

theorem serveFunctional_ring {k : Nat} {t t' : Tile} {q : NocReq} {resp : NocResp} {p n : Nat}
    (h : serveFunctional q t = .ok (t', resp)) (hkind : q.kind ≠ .message)
    (hring : AvoidsRing p k ((q.stores t).map fun i => (k, i))) (hok : t.RingOk p n) : t'.RingOk p n := by
  have hev := serveFunctional_evolves h
  obtain ⟨hwin, t1, reply, haccess, -, rfl⟩ | ⟨d, rfl⟩ | ⟨m, rfl⟩ := serveFunctional_cases h
  · rw [NocReq.stores, if_pos ⟨hkind, hwin⟩] at hring
    exact (hok.accessed haccess hring).of_eq (.recompute _)
  · exact hok.of_eq hev
  · exact hok.of_eq hev

theorem Tile.Change.ring {s : State} {e : Event} {k : Nat} {t t' : Tile} {p n : Nat} (h : t.Change s e k t')
    (hring : AvoidsRing p k (s.softwareStores e)) (hok : t.RingOk p n) : t'.RingOk p n := by
  have ported : ∀ {t0 : Tile}, t0 = { t with port := t0.port } → t0.RingOk p n := fun start =>
    hok.of_eq (by rw [start]; exact .of_eq) (by rw [start]) (by rw [start])
  cases h with
  | still start who => exact ported start
  | raised c who =>
    obtain ⟨⟨length, bound⟩, endpoint, slots, pos, count, writePtr, landing⟩ := hok
    exact ⟨⟨length, bound⟩, endpoint, slots, pos, count, writePtr, landing⟩
  | rule tile start does => exact (does.ring hring (ported start)).offering ..
  | answered offers start => exact (ported start).offering ..
  | served kind offers start served stores =>
    rw [stores] at hring
    exact (serveFunctional_ring served kind hring (ported start)).offering ..

/-- Settles O17. -/
theorem timedStepKeepsRing : Obligations.TimedStepKeepsRing := by
  intro s s' e r rest k t p n hdue hstores ht hok h
  obtain ⟨t', ht', hchange⟩ := step_change hdue h ht
  refine ⟨t', ht', hchange.ring ?_ hok⟩
  rw [s.softwareStores_chosen]
  exact hstores

end Sys2Proof.Machine
end

section
/-!
PROOFS about the dispatch of one instruction: what each rule answers, case by case, and what it leaves unchanged. With these the
obligations O26 to O32.
-/

namespace Sys2Proof.Machine

/-! ## Dispatch with free channels -/

theorem exec_of_ready {i : Instr} {s : State} {t : Tile} (ht : s.tiles[s.cur]? = some t)
    (hfree : ∀ ch ∈ dispatchChannels i.opcode, t.free ch = true) (he : i.ep < t.cfg.numEndpoints) :
    exec i s = .next (s.commit s.cur (instrRule i t)) := by
  rw [exec_eq_dispatchOn, dispatchOn_of_ready ht hfree he]

/-- An offer that is taken. -/
theorem State.send_of_taken {s : State} (h : s.refuses = false) (k : Nat) (t : Tile) (item : Item) :
    s.send k t item = s.handOver k t item := by
  simp [State.send, h]

/-- An offer that is refused (44_async_completion R395). -/
theorem State.send_of_refused {s : State} (h : s.refuses = true) (k : Nat) (t : Tile) (item : Item) :
    s.send k t item = s.setTile k { t with retry := t.retry.fill item } := by
  simp [State.send, h]

/-- Settles O30. -/
theorem execEndpointOutOfRange : Obligations.ExecEndpointOutOfRange := by
  intro i s t ht he hfree
  rw [exec_eq_dispatchOn]
  exact dispatchOn_of_outOfRange ht (Tile.allFree_iff.1 hfree) he

/-! ## SEND (42_message_unit R302) -/

section
variable {t : Tile} {e : Nat}

theorem sendRule_of_tooLarge (h : t.cfg.maxNocPacketSize < headerSize + t.ep e .dataSize) :
    sendRule e t = .fatal .packetTooLarge := if_pos h

variable (hsize : headerSize + t.ep e .dataSize ≤ t.cfg.maxNocPacketSize)
include hsize

theorem sendRule_of_noHeader (h : encodeHeader (t.ep e .dataSize) t.cfg.ownCoreId e (t.ep e .replyEp) false = none) :
    sendRule e t = .fatal .headerFieldRange := by
  simp [sendRule, Snap.ofEndpoint, Nat.not_lt.2 hsize, h]

theorem sendRule_of_noAddress {hdr : List Byte}
    (hhdr : encodeHeader (t.ep e .dataSize) t.cfg.ownCoreId e (t.ep e .replyEp) false = some hdr)
    (h : t.cfg.nocAddr (t.ep e .tgtCore) (t.ep e .tgtEp) 0 = none) : sendRule e t = .fatal .nocAddrRange := by
  simp [sendRule, Snap.ofEndpoint, Nat.not_lt.2 hsize, hhdr, h]

theorem sendRule_of_address {hdr : List Byte} {a : NocAddress}
    (hhdr : encodeHeader (t.ep e .dataSize) t.cfg.ownCoreId e (t.ep e .replyEp) false = some hdr)
    (h : t.cfg.nocAddr (t.ep e .tgtCore) (t.ep e .tgtEp) 0 = some a) :
    sendRule e t =
      .done ({ t with cmd := .exec .send e .xferOut { Snap.ofEndpoint t e with hdr := hdr, nocAddr := a } }.enqueue
        (payloadJob (Snap.ofEndpoint t e))) none := by
  simp [sendRule, Snap.ofEndpoint, Nat.not_lt.2 hsize, hhdr, h]

end

/-! ## REPLY (42_message_unit R305) -/

section
variable {t : Tile} {e : Nat}

theorem replyRule_of_noMessage (h : t.ep e .bufMsgCnt = 0) :
    replyRule e t = .done (t.deny .noMessage .cmd e (t.ep e .bufRdPtr) 0).retire none := if_pos h

variable (hcnt : t.ep e .bufMsgCnt ≠ 0)
include hcnt

theorem replyRule_of_noSlots (h : t.ep e .bufSlots = 0) :
    replyRule e t = .done (t.deny .ringInvalid .cmd e (t.ep e .bufRdPtr) 0).retire none := by
  simp [replyRule, hcnt, h]

variable (hslots : t.ep e .bufSlots ≠ 0)
include hslots

theorem replyRule_of_tooLarge (h : t.cfg.maxNocPacketSize < headerSize + t.ep e .dataSize) :
    replyRule e t = .fatal .packetTooLarge := by
  simp [replyRule, Snap.ofEndpoint, hcnt, hslots, h]

theorem replyRule_of_message (hsize : headerSize + t.ep e .dataSize ≤ t.cfg.maxNocPacketSize) :
    replyRule e t =
      memRequest { t with cmd := .exec .reply e .hdr { Snap.ofEndpoint t e with slotAddr := t.slotAddr e (t.ep e .bufRdPtr) } }
        { op := .read, addr := t.slotAddr e (t.ep e .bufRdPtr), len := headerSize, data := [], ss := .header e .cmd } := by
  simp [replyRule, Snap.ofEndpoint, hcnt, hslots, Nat.not_lt.2 hsize]

end

/-! ## READ and WRITE (41_memory_unit R252, R253) -/

section
variable {t : Tile} {e : Nat} {need : Dir} {start : Snap → Tile → Result}

theorem remoteAccess_of_denied {d : DenialCode}
    (h : t.cfg.check need (t.ep e .reqOffset) (t.ep e .dataSize) (t.ep e .remSize) (t.ep e .perm) = some d) :
    remoteAccess need e start t = .done (t.deny d .cmd e (t.ep e .reqOffset) (t.ep e .dataSize)).retire none := by
  simp [remoteAccess, Snap.ofEndpoint, h]

variable (hcheck : t.cfg.check need (t.ep e .reqOffset) (t.ep e .dataSize) (t.ep e .remSize) (t.ep e .perm) = none)
include hcheck

theorem remoteAccess_of_tooLarge (h : t.cfg.maxNocPacketSize < t.ep e .dataSize) :
    remoteAccess need e start t = .fatal .packetTooLarge := by
  simp [remoteAccess, Snap.ofEndpoint, hcheck, h]

variable (hsize : t.ep e .dataSize ≤ t.cfg.maxNocPacketSize)
include hsize

theorem remoteAccess_of_noTarget
    (h : t.cfg.nocTarget (t.ep e .tgtCore) (t.ep e .remBase) (t.ep e .reqOffset) (t.ep e .dataSize) = none) :
    remoteAccess need e start t = .fatal .nocAddrRange := by
  simp [remoteAccess, Snap.ofEndpoint, hcheck, Nat.not_lt.2 hsize, h]

theorem remoteAccess_of_target {a : NocAddress}
    (h : t.cfg.nocTarget (t.ep e .tgtCore) (t.ep e .remBase) (t.ep e .reqOffset) (t.ep e .dataSize) = some a) :
    remoteAccess need e start t = start { Snap.ofEndpoint t e with nocAddr := a } t := by
  simp [remoteAccess, Snap.ofEndpoint, hcheck, Nat.not_lt.2 hsize, h]

end

theorem Tile.retire_eq (t : Tile) : t.retire = { t with regs := t.regs.set commandReg 0, cmd := .idle } := by
  simp [Tile.retire, Tile.setReg]

/-- A denied command retires in its dispatch (40_command_engine R220). -/
theorem Tile.retire_deny (t : Tile) (code : DenialCode) (o : DenialOrigin) (e a n : Nat) :
    (t.deny code o e a n).retire =
      { t with
        log := t.log ++ [{ code := code, origin := o, ep := e, addr := a, size := n }]
        regs := t.regs.set commandReg 0
        cmd := .idle } :=
  Tile.retire_eq _

/-! ## What the dispatch of each instruction does -/

namespace Dispatch

/-- Settles O26. -/
theorem execSend : Obligations.ExecSend := by
  intro s t e ht he
  have hexec : exec (.send e) s = .next (s.commit s.cur (sendRule e t)) := exec_of_ready ht (List.forall_mem_nil _) he
  rw [hexec]
  refine ⟨fun hlarge => by rw [sendRule_of_tooLarge hlarge]; rfl, fun hsize => ⟨fun hfields => ?_, fun hfields => ⟨?_, ?_⟩⟩⟩
  · rw [sendRule_of_noHeader hsize ((encodeHeader_eq_none_iff ..).2 hfields)]
    rfl
  · intro hrange
    have hnone : t.cfg.nocAddr (t.ep e .tgtCore) (t.ep e .tgtEp) 0 = none :=
      (t.cfg.nocAddr_eq_none_iff ..).2 fun ⟨hcore, hep, _⟩ =>
        hrange.elim (fun h => absurd hcore (Nat.not_lt.2 h)) fun h => absurd hep (Nat.not_lt.2 h)
    rw [sendRule_of_noAddress hsize (if_pos hfields) hnone]
    rfl
  · intro ⟨hcore, hep⟩
    rw [sendRule_of_address hsize (if_pos hfields) (if_pos ⟨hcore, hep, by positivity⟩)]
    rfl

/-- Settles O27. -/
theorem execReply : Obligations.ExecReply := by
  intro s t e ht he hfree
  have hexec : exec (.reply e) s = .next (s.commit s.cur (replyRule e t)) :=
    exec_of_ready ht (by simp [dispatchChannels, Instr.opcode, Tile.free, Retry.slot, hfree]) he
  rw [hexec]
  refine ⟨fun hcnt => ?_, fun hcnt => ⟨fun hslots => ?_, fun hslots => ⟨fun hlarge => ?_, fun hsize slot q u hslot hq hu => ?_⟩⟩⟩
  · rw [replyRule_of_noMessage hcnt, Tile.retire_deny]
    rfl
  · rw [replyRule_of_noSlots hcnt hslots, Tile.retire_deny]
    rfl
  · rw [replyRule_of_tooLarge hcnt hslots hlarge]
    rfl
  · rw [replyRule_of_message hcnt hslots hsize]
    subst hslot hq hu
    exact ⟨fun h => congrArg Host.Outcome.next (State.send_of_taken h ..),
      fun h => congrArg Host.Outcome.next (State.send_of_refused h ..)⟩

/-- Settles O28. -/
theorem execRead : Obligations.ExecRead := by
  intro s t e ht he hfree hvalid
  have hexec : exec (.read e) s = .next (s.commit s.cur (remoteAccess .read e (readStart e) t)) :=
    exec_of_ready ht (by simp [dispatchChannels, Instr.opcode, Tile.free, Retry.slot, hfree]) he
  rw [hexec]
  refine ⟨fun d hd => ?_, fun hcheck => ⟨fun hlarge => ?_, fun hsize => ⟨fun hnone => ?_, fun a q u ha hq hu => ?_⟩⟩⟩
  · rw [remoteAccess_of_denied hd, Tile.retire_deny]
    rfl
  · rw [remoteAccess_of_tooLarge hcheck hlarge]
    rfl
  · rw [remoteAccess_of_noTarget hcheck hsize hnone]
    rfl
  · rw [remoteAccess_of_target hcheck hsize ha, ← Config.nocCore_nocTarget (Config.constraints hvalid) ha]
    subst hq hu
    exact ⟨fun h => congrArg Host.Outcome.next (State.send_of_taken h ..),
      fun h => congrArg Host.Outcome.next (State.send_of_refused h ..)⟩

/-- Settles O29. -/
theorem execWrite : Obligations.ExecWrite := by
  intro s t e ht he
  have hexec : exec (.write e) s = .next (s.commit s.cur (remoteAccess .write e (writeStart e) t)) :=
    exec_of_ready ht (List.forall_mem_nil _) he
  rw [hexec]
  refine ⟨fun d hd => ?_, fun hcheck => ⟨fun hlarge => ?_, fun hsize => ⟨fun hnone => ?_, fun a ha => ?_⟩⟩⟩
  · rw [remoteAccess_of_denied hd, Tile.retire_deny]
    rfl
  · rw [remoteAccess_of_tooLarge hcheck hlarge]
    rfl
  · rw [remoteAccess_of_noTarget hcheck hsize hnone]
    rfl
  · rw [remoteAccess_of_target hcheck hsize ha]
    rfl

end Dispatch

/-! ## What a dispatch leaves unchanged -/

/-- Everything a dispatch can do to the system. -/
theorem exec_cases {i : Instr} {s s' : State} (h : exec i s = .next s') :
    ∃ r : Result, s' = s.commit s.cur r ∧ ∀ u o, r = .done u o → ∃ t, s.tiles[s.cur]? = some t ∧ instrRule i t = .done u o := by
  rw [exec_eq_dispatchOn] at h
  obtain hheld | ⟨t, ht, hout | hrule⟩ := dispatchOn_cases (dispatchChannels i.opcode) i.ep (instrRule i) s
  · rw [hheld] at h
    cases h
    exact ⟨.held, rfl, fun _ _ hr => nomatch hr⟩
  · rw [hout] at h
    cases h
    exact ⟨.fatal .epidOutOfRange, rfl, fun _ _ hr => nomatch hr⟩
  · rw [hrule] at h
    cases h
    exact ⟨instrRule i t, rfl, fun u o hr => ⟨t, ht, hr⟩⟩

/-- A commit changes its own tile alone, as its rule says. -/
theorem State.commit_tile {s : State} {j k : Nat} {t t' : Tile} {r : Result} (ht : s.tiles[k]? = some t)
    (ht' : (s.commit j r).tiles[k]? = some t') :
    t' = t ∨ (j = k ∧ ((∃ c, t' = { t with fatal := some c }) ∨ ∃ u o, r = .done u o ∧ t' = u.offering s.refuses o)) := by
  cases r with
  | held => exact .inl (Option.some.inj (ht'.symm.trans ht))
  | fatal c =>
    rw [show s.commit j (.fatal c) = s.raise j c from rfl, State.raise_getElem?, ht] at ht'
    split at ht'
    next hk => exact .inr ⟨hk.symm, .inl ⟨c, (Option.some.inj ht').symm⟩⟩
    next => exact .inl (Option.some.inj ht').symm
  | done u o =>
    rw [State.commit_done_tiles] at ht'
    obtain ⟨-, h⟩ | ⟨hk, h⟩ := getElem?_set_cases (j := j) (t' := u.offering s.refuses o) ht
    · exact .inl (Option.some.inj (ht'.symm.trans h))
    · exact .inr ⟨hk, .inr ⟨u, o, rfl, Option.some.inj (ht'.symm.trans h)⟩⟩

/-- The offer of an item to the NoC. -/
def Item.toNoc : Item → Bool
  | .nocReq _ | .nocResp _ _ => true
  | .memReq _ | .cpuResp _ => false

theorem State.send_frame (s : State) (k : Nat) (t : Tile) (item : Item) :
    s.send k t item = { s with tiles := (s.send k t item).tiles, noc := (s.send k t item).noc } ∧
      (item.toNoc = false → (s.send k t item).noc = s.noc) := by
  cases h : s.refuses with
  | true => rw [State.send_of_refused h]; exact ⟨rfl, fun _ => rfl⟩
  | false =>
    rw [State.send_of_taken h]
    cases item with
    | memReq | cpuResp => exact ⟨rfl, fun _ => rfl⟩
    | nocReq | nocResp => exact ⟨rfl, fun h => nomatch h⟩

/-- A commit changes the tiles, and the packets in flight only if it offers one. -/
theorem State.commit_frame (s : State) (k : Nat) (r : Result) :
    s.commit k r = { s with tiles := (s.commit k r).tiles, noc := (s.commit k r).noc } ∧
      (s.commit k r).tiles.length = s.tiles.length ∧
      ((∀ u item, r = .done u (some item) → item.toNoc = false) → (s.commit k r).noc = s.noc) := by
  cases r with
  | held => exact ⟨rfl, rfl, fun _ => rfl⟩
  | fatal c => exact ⟨rfl, List.length_modify .., fun _ => rfl⟩
  | done t o =>
    have hlen : (s.commit k (.done t o)).tiles.length = s.tiles.length := by
      rw [State.commit_done_tiles, List.length_set]
    cases o with
    | none => exact ⟨rfl, hlen, fun _ => rfl⟩
    | some item => exact ⟨(s.send_frame k t item).1, hlen, fun h => (s.send_frame k t item).2 (h t item rfl)⟩

/-- What the frame of a dispatch says of a tile holds if it holds of what the instruction's rule does, and of a tile that is as it
was but for a fatal code. -/
theorem exec_tile {i : Instr} {s s' : State} (h : exec i s = .next s') {P : Tile → Tile → Prop} (still : ∀ t, P t t)
    (raised : ∀ t c, P t { t with fatal := some c })
    (ran : ∀ t u o b, instrRule i t = .done u o → P t (u.offering b o)) {k : Nat} {t t' : Tile} (ht : s.tiles[k]? = some t)
    (ht' : s'.tiles[k]? = some t') : (k ≠ s.cur → t' = t) ∧ P t t' := by
  obtain ⟨r, rfl, hr⟩ := exec_cases h
  obtain rfl | ⟨rfl, ⟨c, rfl⟩ | ⟨u, o, hdone, rfl⟩⟩ := State.commit_tile ht ht'
  · exact ⟨fun _ => rfl, still _⟩
  · exact ⟨fun hk => absurd rfl hk, raised t c⟩
  · obtain ⟨v, hv, hrule⟩ := hr u o hdone
    cases ht.symm.trans hv
    exact ⟨fun hk => absurd rfl hk, ran t u o _ hrule⟩

/-- What IDLE, INC_READ_PTR and WAKEUP_CORE leave of their tile (40_command_engine R211 to R213). -/
structure Tile.Synchronous (i : Instr) (t t' : Tile) : Prop where
  mem : t'.mem = t.mem
  frame : t' = { t with cmd := t'.cmd, regs := t'.regs, log := t'.log, suspended := t'.suspended, fatal := t'.fatal }
  idle : i.opcode = .idle → t'.regs = t.regs
  reg : ∀ j, j ≠ commandReg → (i.opcode = .incReadPtr → j ≠ epReg i.ep .bufRdPtr ∧ j ≠ epReg i.ep .bufMsgCnt) → t'.reg j = t.reg j
  log : i.opcode ≠ .incReadPtr → t'.log = t.log
  suspended : i.opcode ≠ .wakeupCore → t'.suspended = t.suspended

theorem instrRule_offersNothing {i : Instr} (hop : i.opcode = .idle ∨ i.opcode = .incReadPtr ∨ i.opcode = .wakeupCore)
    {t u : Tile} {o : Option Item} (h : instrRule i t = .done u o) : o = none := by
  cases i with
  | idle | incReadPtr | wakeupCore => cases h; rfl
  | send | reply | read | write => simp [Instr.opcode] at hop

theorem instrRule_synchronous {i : Instr} (hop : i.opcode = .idle ∨ i.opcode = .incReadPtr ∨ i.opcode = .wakeupCore)
    {t u : Tile} {o : Option Item} (b : Bool) (h : instrRule i t = .done u o) : t.Synchronous i (u.offering b o) := by
  cases i with
  | idle p =>
    cases h
    exact ⟨rfl, rfl, fun _ => rfl, fun _ _ _ => rfl, fun _ => rfl, fun _ => rfl⟩
  | incReadPtr p =>
    cases h
    have hframe := t.retire_advanceRing_frame p
    refine ⟨?_, ?_, (fun h => nomatch h), fun j hj hring => ?_, fun h => absurd rfl h, fun _ => ?_⟩
    · exact (congrArg Tile.mem hframe).trans rfl
    · rw [hframe]
      rfl
    · obtain ⟨hrd, hcnt⟩ := hring rfl
      exact (Tile.reg_retire_of_ne _ j hj).trans (t.reg_advanceRing_of_ne hrd hcnt)
    · exact (congrArg Tile.suspended hframe).trans rfl
  | wakeupCore p =>
    cases h
    have hreg : ∀ j, j ≠ commandReg → t.wake.retire.reg j = t.reg j := fun j hj => by
      rw [Tile.reg_retire_of_ne _ j hj, Tile.wake_eq]
      rfl
    rw [Tile.retire_wake] at hreg ⊢
    exact ⟨rfl, rfl, (fun h => nomatch h), fun j hj _ => hreg j hj, fun _ => rfl, fun h => absurd rfl h⟩
  | send | reply | read | write => simp [Instr.opcode] at hop

/-- Settles O31. -/
theorem synchronousFrame : Obligations.SynchronousFrame := by
  intro i s s' hop h
  obtain ⟨r, hr, hrule⟩ := exec_cases h
  obtain ⟨hframe, hlen, hnoc⟩ := s.commit_frame s.cur r
  rw [← hr] at hframe hlen hnoc
  refine ⟨?_, hlen, fun k t t' ht ht' => ?_⟩
  · rw [hframe, hnoc fun u item hdone => ?_]
    obtain ⟨t, -, hdone⟩ := hrule u _ hdone
    cases instrRule_offersNothing hop hdone
  · obtain ⟨hother, mem, frame, idle, reg, log, suspended⟩ := exec_tile h (P := Tile.Synchronous i)
      (fun t => ⟨rfl, rfl, fun _ => rfl, fun _ _ _ => rfl, fun _ => rfl, fun _ => rfl⟩)
      (fun t c => ⟨rfl, rfl, fun _ => rfl, fun _ _ _ => rfl, fun _ => rfl, fun _ => rfl⟩)
      (fun t u o b => instrRule_synchronous hop b) ht ht'
    exact ⟨hother, fun a => by rw [mem], frame, idle, reg, log, suspended⟩

/-- What the dispatch of SEND, REPLY, READ or WRITE does when it raises no fatal error. -/
inductive Tile.Transmits (i : Instr) (t : Tile) : Tile → Option Item → Prop
  | denied (code : DenialCode) (p addr size : Nat) (op : i.opcode ≠ .send) :
      t.Transmits i (t.deny code .cmd p addr size).retire none
  | queued (async : AsyncOp) (p : Nat) (sn : Snap) (j : Job) (op : i.opcode = .send ∨ i.opcode = .write) :
      t.Transmits i ({ t with cmd := .exec async p .xferOut sn }.enqueue j) none
  | headerAsked (p : Nat) (sn : Snap) (q : MemReq) (op : i.opcode = .reply) :
      t.Transmits i { t with cmd := .exec .reply p .hdr sn, memq := t.memq ++ [q.ss] } (some (.memReq q))
  | dataAsked (p : Nat) (sn : Snap) (q q' : NocReq) (op : i.opcode = .read) :
      t.Transmits i ({ t with cmd := .exec .read p .waitData sn }.requested .cmd p q 0) (some (.nocReq q'))

theorem remoteAccess_transmits {i : Instr} (hop : i.opcode ≠ .send) {need : Dir} {p : Nat} {start : Snap → Tile → Result} {t u : Tile}
    {o : Option Item} (hstart : ∀ sn, start sn t = .done u o → t.Transmits i u o)
    (h : remoteAccess need p start t = .done u o) : t.Transmits i u o := by
  unfold remoteAccess at h
  simp only at h
  split at h
  · cases h
    exact .denied _ _ _ _ hop
  · split at h
    · cases h
    · split at h
      · cases h
      · exact hstart _ h

theorem instrRule_transmits {i : Instr}
    (hop : i.opcode = .send ∨ i.opcode = .reply ∨ i.opcode = .read ∨ i.opcode = .write) {t u : Tile} {o : Option Item}
    (h : instrRule i t = .done u o) : t.Transmits i u o := by
  cases i with
  | idle | incReadPtr | wakeupCore => simp [Instr.opcode] at hop
  | send p =>
    change sendRule p t = _ at h
    unfold sendRule at h
    simp only at h
    split at h
    · cases h
    · split at h
      · cases h
      · split at h <;> cases h
        exact .queued .send p _ _ (.inl rfl)
  | reply p =>
    change replyRule p t = _ at h
    unfold replyRule at h
    simp only at h
    split at h
    · cases h
      exact .denied _ _ _ _ Opcode.noConfusion
    · split at h
      · cases h
        exact .denied _ _ _ _ Opcode.noConfusion
      · split at h <;> cases h
        exact .headerAsked p _ _ rfl
  | read p =>
    refine remoteAccess_transmits Opcode.noConfusion (fun sn hsn => ?_) h
    cases hsn
    exact .dataAsked p sn _ _ rfl
  | write p =>
    refine remoteAccess_transmits Opcode.noConfusion (fun sn hsn => ?_) h
    cases hsn
    exact .queued .write p sn _ (.inr rfl)

/-- What the dispatch of SEND, REPLY, READ and WRITE leaves of its tile (41_memory_unit R252, R253; 42_message_unit R302, R305). -/
structure Tile.Transmission (i : Instr) (t t' : Tile) : Prop where
  mem : t'.mem = t.mem
  frame : t' =
    { t with
      cmd := t'.cmd, regs := t'.regs, log := t'.log, fatal := t'.fatal, xfer := t'.xfer, memq := t'.memq, memIn := t'.memIn,
      nocq := t'.nocq, nextId := t'.nextId, retry := t'.retry }
  reg : ∀ j, j ≠ commandReg → t'.reg j = t.reg j
  command : t'.reg commandReg = t.reg commandReg ∨ (t'.reg commandReg = 0 ∧ t'.cmd = .idle)
  active : t'.xfer.active = t.xfer.active
  xfer : i.opcode = .reply ∨ i.opcode = .read → t'.xfer = t.xfer
  memPath : i.opcode ≠ .reply → t'.memq = t.memq ∧ t'.memIn = t.memIn ∧ t'.retry.memReq = t.retry.memReq
  requests : i.opcode ≠ .read → t'.nocq = t.nocq ∧ t'.nextId = t.nextId ∧ t'.retry.nocReq = t.retry.nocReq
  nocResp : t'.retry.nocResp = t.retry.nocResp
  cpuResp : t'.retry.cpuResp = t.retry.cpuResp
  send : i.opcode = .send → t'.log = t.log ∧ t'.regs = t.regs

theorem Tile.Transmits.transmission {i : Instr} {t u : Tile} {o : Option Item} (b : Bool) (h : t.Transmits i u o) :
    t.Transmission i (u.offering b o) := by
  cases h with
  | denied code p addr size op =>
    refine ⟨rfl, rfl, fun j hj => Tile.reg_retire_of_ne _ j hj, .inr ⟨Tile.reg_retire_command _, rfl⟩, rfl, fun _ => rfl,
      fun _ => ⟨rfl, rfl, rfl⟩, fun _ => ⟨rfl, rfl, rfl⟩, rfl, rfl, fun h => absurd h op⟩
  | queued async p sn j op =>
    refine ⟨rfl, rfl, fun _ _ => rfl, .inl rfl, rfl, fun h => ?_, fun _ => ⟨rfl, rfl, rfl⟩, fun _ => ⟨rfl, rfl, rfl⟩, rfl, rfl,
      fun _ => ⟨rfl, rfl⟩⟩
    obtain hop | hop := op <;> rw [hop] at h <;> simp at h
  | headerAsked p sn q op =>
    have hnotSend : i.opcode ≠ .send := by rw [op]; exact Opcode.noConfusion
    cases b <;>
      exact ⟨rfl, rfl, fun _ _ => rfl, .inl rfl, rfl, fun _ => rfl, fun h => absurd op h, fun _ => ⟨rfl, rfl, rfl⟩, rfl, rfl,
        fun h => absurd h hnotSend⟩
  | dataAsked p sn q q' op =>
    have hnotSend : i.opcode ≠ .send := by rw [op]; exact Opcode.noConfusion
    cases b <;>
      exact ⟨rfl, rfl, fun _ _ => rfl, .inl rfl, rfl, fun _ => rfl, fun _ => ⟨rfl, rfl, rfl⟩, fun h => absurd op h, rfl, rfl,
        fun h => absurd h hnotSend⟩

/-- Settles O32. -/
theorem transmissionFrame : Obligations.TransmissionFrame := by
  intro i s s' hop h
  obtain ⟨r, hr, hrule⟩ := exec_cases h
  obtain ⟨hframe, hlen, hnoc⟩ := s.commit_frame s.cur r
  rw [← hr] at hframe hlen hnoc
  refine ⟨hframe, hlen, fun hread => hnoc fun u item hdone => ?_, fun k t t' ht ht' => ?_⟩
  · obtain ⟨t, -, hdone⟩ := hrule u _ hdone
    cases instrRule_transmits hop hdone with
    | headerAsked => rfl
    | dataAsked _ _ _ _ op => exact absurd op hread
  · have still : ∀ (t : Tile) c, t.Transmission i { t with fatal := c } := fun t c =>
      ⟨rfl, rfl, fun _ _ => rfl, .inl rfl, rfl, fun _ => rfl, fun _ => ⟨rfl, rfl, rfl⟩, fun _ => ⟨rfl, rfl, rfl⟩, rfl, rfl,
        fun _ => ⟨rfl, rfl⟩⟩
    obtain ⟨hother, mem, frame, reg, command, active, xfer, memPath, requests, nocResp, cpuResp, send⟩ :=
      exec_tile h (P := Tile.Transmission i) (fun t => still t t.fatal) (fun t c => still t (some c))
        (fun t u o b hdone => (instrRule_transmits hop hdone).transmission b) ht ht'
    exact ⟨hother, fun a => by rw [mem], frame, reg, command, active, xfer, memPath, requests, nocResp, cpuResp, send⟩

end Sys2Proof.Machine
end

section
/-!
PROOFS about the channels and about the step that the environment chooses: the obligations O5, O38, O39 and O40.
-/

namespace Sys2Proof.Machine

/-! ## The step of a decoded instruction (40_command_engine R208, R214) -/

theorem dispatchStep_of_decoded {s : State} {k : Nat} {t : Tile} {i : Instr} (ht : s.tiles[k]? = some t)
    (hsched : t.hasScheduled = true) (hdec : decode t.cfg (t.reg commandReg) = .ok i) :
    dispatchStep k s = exec i { s with cur := k } := by
  simp [dispatchStep, ht, hsched, Tile.decoded, hdec]

theorem Tile.hasScheduled_of_cmd {t : Tile} {o : Origin} (h : t.cmd = .scheduled o) : t.hasScheduled = true := by
  simp [Tile.hasScheduled, h]

/-- Settles O5. -/
theorem stepRunsDecodedInstruction : Obligations.StepRunsDecodedInstruction := by
  intro s k r rest t o i hrun hturn ht hcmd hdec
  have hnext : s.nextTurn = (.dispatch k, s.chosen r rest) := by rw [State.nextTurn, hturn]; rfl
  have hdispatch := dispatchStep_of_decoded (s := s.chosen r rest) ht (Tile.hasScheduled_of_cmd hcmd) hdec
  rw [step_of_running hrun, hnext]
  refine ⟨fun hmode => ?_, fun hmode => ?_⟩
  · rw [State.unsettled, State.chosen_mode, hmode]
    exact congrArg _ hdispatch
  · rw [State.unsettled, State.chosen_mode, hmode]
    exact congrArg (fun o => (s.chosen r rest).settle (andThen o _)) hdispatch

/-! ## Offers (44_async_completion R395, R396) -/

theorem Retry.slot_fill_self (r : Retry) (item : Item) : (r.fill item).slot item.channel = some item := by
  cases item <;> rfl

theorem Retry.slot_fill_of_ne (r : Retry) {item : Item} {ch : Channel} (h : ch ≠ item.channel) :
    (r.fill item).slot ch = r.slot ch := by
  cases item <;> cases ch <;> simp [Retry.fill, Retry.slot, Item.channel] at h ⊢

theorem Retry.slot_clear_self (r : Retry) (ch : Channel) : (r.clear ch).slot ch = none := by
  cases ch <;> rfl

theorem Retry.slot_clear_of_ne (r : Retry) {ch ch' : Channel} (h : ch' ≠ ch) : (r.clear ch).slot ch' = r.slot ch' := by
  cases ch <;> cases ch' <;> simp [Retry.clear, Retry.slot] at h ⊢

/-- An item that is offered again and refused stays where it was. -/
theorem Retry.fill_clear {r : Retry} {ch : Channel} {item : Item} (h : r.slot ch = some item) : (r.clear ch).fill item = r := by
  obtain ⟨nocReq, nocResp, memReq, cpuResp⟩ := r
  cases ch <;> obtain ⟨x, rfl, rfl⟩ := Option.map_eq_some_iff.1 h <;> rfl

theorem State.setTile_same {s : State} {k : Nat} {t : Tile} (h : s.tiles[k]? = some t) : s.setTile k t = s := by
  rw [State.setTile, State.set_self h]

/-- Settles O38. -/
theorem offerIsTakenOrKept : Obligations.OfferIsTakenOrKept := by
  intro s k t item
  refine ⟨State.refuses_atomic, fun hrefuses => ?_, fun htaken => ?_⟩
  · exact ⟨_, State.send_of_refused hrefuses k t item, rfl, t.retry.slot_fill_self item, fun ch hch => t.retry.slot_fill_of_ne hch⟩
  · rw [State.send_of_taken htaken]
    cases item <;> rfl

section
variable {s : State} {e : Event} {r : Bool} {rest : List Turn} (hdue : s.Due e r rest)
include hdue

theorem State.Due.refuses : (s.chosen r rest).refuses = r := by
  simp [State.refuses, hdue.timed]

/-- The step of an event that changes no tile. -/
theorem State.Due.step_of_perform {u : State}
    (h : perform (runChain (s.chosen r rest).chainBound (s.chosen r rest)) e (s.chosen r rest) = .next u)
    (htiles : u.raised = none) : step s = .next u := by
  rw [step_of_due hdue, h, State.settle_of_running htiles]

end

/-- Settles O39. -/
theorem retryOffersTheWaitingItem : Obligations.RetryOffersTheWaitingItem := by
  intro s k ch r rest t hdue ht
  have hfatal : t.fatal = none := State.fatal_eq_none hdue.running ht
  refine ⟨fun hnone => ?_, fun item hslot => ?_⟩
  · exact hdue.step_of_perform (by simp [perform, retryChannel, ht, hnone]) hdue.running
  · have hstep : step s = .next ((s.chosen r rest).send k { t with retry := t.retry.clear ch } item) := by
      refine hdue.step_of_perform ?_ (State.raised_send hdue.running hfatal)
      simp [perform, retryChannel, ht, hslot]
    refine ⟨fun hr => ?_, fun hr => ⟨{ t with retry := t.retry.clear ch }, ?_, Retry.channel_of_slot hslot, rfl,
      t.retry.slot_clear_self ch, fun ch' hne => t.retry.slot_clear_of_ne hne⟩⟩
    · rw [hstep, State.send_of_refused (hdue.refuses.trans hr)]
      simp only [Retry.fill_clear hslot]
      exact congrArg Host.Outcome.next (State.setTile_same ht)
    · rw [hstep, State.send_of_taken (hdue.refuses.trans hr)]

/-! ## Steps that wait (44_async_completion R397) -/

theorem issueChunk_of_blocked {t : Tile} (h : t.retry.memReq ≠ none) : issueChunk t = .held := by
  cases hactive : t.xfer.active with
  | none => exact issueChunk_of_noJob hactive
  | some a => exact issueChunk_of_waiting hactive (.inr (.inr h))

section
variable {t : Tile}

theorem Tile.free_nocReq_of_waiting (h : t.retry.nocReq ≠ none) : t.free .nocReq = false := by
  obtain ⟨q, hq⟩ := Option.ne_none_iff_exists'.1 h
  simp [Tile.free, Retry.slot, hq]

theorem Tile.free_nocResp_of_waiting (h : t.retry.nocResp ≠ none) : t.free .nocResp = false := by
  obtain ⟨q, hq⟩ := Option.ne_none_iff_exists'.1 h
  simp [Tile.free, Retry.slot, hq]

theorem Tile.free_memReq_of_waiting (h : t.retry.memReq ≠ none) : t.free .memReq = false := by
  obtain ⟨q, hq⟩ := Option.ne_none_iff_exists'.1 h
  simp [Tile.free, Retry.slot, hq]

theorem Tile.free_cpuResp_of_waiting (h : t.retry.cpuResp ≠ none) : t.free .cpuResp = false := by
  obtain ⟨q, hq⟩ := Option.ne_none_iff_exists'.1 h
  simp [Tile.free, Retry.slot, hq]

end

/-- A command's job whose completion may offer on NOC_REQ waits for it. -/
theorem commandJobDone_of_blocked {t : Tile} {op : AsyncOp} {ep : Nat} {sn : Snap} (acc : List Byte)
    (hcmd : t.cmd = .exec op ep .xferOut sn) (h : t.retry.nocReq ≠ none) : commandJobDone acc t = .held := by
  cases op <;> simp [commandJobDone, hcmd, Tile.free_nocReq_of_waiting h]

theorem inboundJobDone_of_blocked {t : Tile} (acc : List Byte) (h : t.retry.nocResp ≠ none) : inboundJobDone acc t = .held := by
  cases hinb : t.inb <;> simp [inboundJobDone, hinb, Tile.free_nocResp_of_waiting h]

/-- The completion of a job waits for the channel on which it may offer. -/
theorem jobDone_of_blocked {t : Tile} {o : Owner} {op : AsyncOp} {ep : Nat} {sn : Snap} (acc : List Byte)
    (h : (o = .cmd ∧ t.cmd = .exec op ep .xferOut sn ∧ t.retry.nocReq ≠ none) ∨ (o = .inb ∧ t.retry.nocResp ≠ none)) :
    jobDone o acc t = .held := by
  obtain ⟨rfl, hcmd, hbusy⟩ | ⟨rfl, hbusy⟩ := h
  · exact commandJobDone_of_blocked (t := t.jobEnded) acc hcmd hbusy
  · exact inboundJobDone_of_blocked (t := t.jobEnded) acc hbusy

theorem memResponse_of_blocked {t : Tile} {a : ActiveJob} {p j len : Nat} {o : Owner} {q : List MemSS}
    (hactive : t.xfer.active = some a) (hmemq : t.memq = .transfer p o j true len :: q)
    (hdone : ∀ acc ms, jobDone a.job.owner acc (t.matched ms q) = .held) : memResponse t = .held := by
  cases hout : t.memOut with
  | nil => simp [memResponse, hout]
  | cons m ms =>
    have hact : (t.matched ms q).xfer.active = some a := hactive
    rw [memResponse_of_transfer hout hmemq]
    simp [transferResponse, hact, hdone, Result.isHeld]

/-- A CPU's request whose channels are occupied is not accepted. -/
theorem Tile.accepts_of_blocked {t : Tile} {q : CpuReq}
    (h : (∃ a, q = .reg a ∧ t.retry.cpuResp ≠ none) ∨
      (∃ c, q = .cache c ∧ (t.retry.cpuResp ≠ none ∨ c.functional = false ∧ t.retry.nocReq ≠ none))) : t.accepts q = false := by
  obtain ⟨a, rfl, hbusy⟩ | ⟨c, rfl, hbusy | ⟨hfun, hbusy⟩⟩ := h
  · simp [Tile.accepts, Tile.free_cpuResp_of_waiting hbusy]
  · simp [Tile.accepts, Tile.free_cpuResp_of_waiting hbusy]
  · simp [Tile.accepts, hfun, Tile.free_nocReq_of_waiting hbusy]

/-- Settles O40. -/
theorem blockedStepsWait : Obligations.BlockedStepsWait := by
  intro s e r rest k t hdue ht
  have hfatal : t.fatal = none := State.fatal_eq_none hdue.running ht
  refine ⟨?request, ?dispatch, ?issue, ?memory, ?inbound, ?response⟩
  case request =>
    rintro q rfl hruns hblocked
    refine hdue.step_of_perform ?_
      (State.raised_setTile (s := s.chosen r rest) hdue.running (t := { t with port := t.port ++ [q] }) hfatal)
    simp only [perform, cpuIssues, State.chosen_tiles, ht, hruns, if_true, cpuRequest, Tile.accepts_of_blocked hblocked]
    rfl
  case dispatch =>
    rintro p rfl hsched hblocked
    refine hdue.step_of_perform ?_ hdue.running
    obtain ⟨hdec, hbusy⟩ | ⟨hdec, hbusy⟩ := hblocked
    · rw [perform, dispatchStep_of_decoded (s := s.chosen r rest) ht hsched hdec]
      exact dispatchOn_of_blocked ht List.mem_cons_self (Tile.free_nocReq_of_waiting hbusy)
    · rw [perform, dispatchStep_of_decoded (s := s.chosen r rest) ht hsched hdec]
      exact dispatchOn_of_blocked ht List.mem_cons_self (Tile.free_memReq_of_waiting hbusy)
  case issue =>
    rintro rfl hbusy
    exact step_issue_held hdue ht (issueChunk_of_blocked hbusy)
  case memory =>
    rintro a p o j len q op ep sn rfl hactive hmemq hblocked
    rw [step_memResponse hdue ht, memResponse_of_blocked hactive hmemq fun acc ms =>
      jobDone_of_blocked (t := t.matched ms q) acc hblocked]
    exact State.settle_of_running hdue.running
  case inbound =>
    rintro i d q rfl hnoc hbusy
    refine hdue.step_of_perform ?_ hdue.running
    have htakes : takes k t { dst := d, packet := .req q } = false := by
      simp [takes, Tile.inboundReady, Tile.free_nocResp_of_waiting hbusy]
    simp [perform, deliver, hnoc, ht, htakes]
  case response =>
    rintro i d q n rfl hnoc hfind hcpu hbusy
    refine hdue.step_of_perform ?_ hdue.running
    have htakes : takes k t { dst := d, packet := .resp q } = false := by
      simp [takes, nocResponse, hfind, hcpu, Tile.free_cpuResp_of_waiting hbusy, Result.isHeld]
    simp [perform, deliver, hnoc, ht, htakes]

end Sys2Proof.Machine
end

section
/-!
PROOFS about register accesses (40_command_engine R200 to R206), of the CPU and of a NoC peer: the obligations O33 to O37.
-/

namespace Sys2Proof

/-! ## Register indices and the register window (20_memory R102, R103) -/

theorem Config.WB_pos {c : Config} (h : c.valid = true) : 0 < c.WB := by
  have hbits := (constraints h).wordBits
  unfold WB
  omega

theorem Config.inWindow_iff (c : Config) (a : Nat) :
    c.inWindow a = true ↔ c.regBase ≤ a ∧ a < c.regBase + 16 * (c.numEndpoints + 1) * c.WB := by
  rw [inWindow, Bool.and_eq_true, decide_eq_true_iff, decide_eq_true_iff]
  rfl

theorem Config.inWindow_of_outside {c : Config} {a : Nat}
    (h : a < c.regBase ∨ c.regBase + 16 * (c.numEndpoints + 1) * c.WB ≤ a) : c.inWindow a = false := by
  rw [← Bool.not_eq_true, inWindow_iff]
  omega

theorem Config.inWindow_reg {c : Config} (hpos : 0 < c.WB) {i : Nat} (hi : i < 16 * (c.numEndpoints + 1)) :
    c.inWindow (c.regBase + i * c.WB) = true :=
  (c.inWindow_iff _).2 ⟨Nat.le_add_right .., Nat.add_lt_add_left (Nat.mul_lt_mul_of_pos_right hi hpos) _⟩

theorem Config.regIndexOf_reg {c : Config} (hpos : 0 < c.WB) (i : Nat) : c.regIndexOf (c.regBase + i * c.WB) = i := by
  rw [regIndexOf, Nat.add_sub_cancel_left, Nat.mul_div_cancel _ hpos]

/-- COMMAND stands at the base of the register window (20_memory R103). -/
theorem Config.commandReg_window {c : Config} (hvalid : c.valid = true) : c.inWindow c.regBase = true := by
  have h := inWindow_reg (WB_pos hvalid) (i := 0) (by omega)
  rwa [Nat.zero_mul, Nat.add_zero] at h

namespace Machine

theorem reservedIndex_iff (i : Nat) : reservedIndex i = true ↔ (1 ≤ i ∧ i ≤ 15) ∨ (16 ≤ i ∧ i % 16 = 15) := by
  simp [reservedIndex]

theorem reservedIndex_of_legal {i : Nat} (h : i = 0 ∨ (16 ≤ i ∧ i % 16 ≠ 15)) : reservedIndex i = false := by
  rw [← Bool.not_eq_true, reservedIndex_iff]
  omega

/-! ## The register access (40_command_engine R200 to R205) -/

section
variable {c : Config} {a : RegAccess}

theorem regCheck_of_form (h : a.size ≠ c.WB ∨ (a.addr - c.regBase) % c.WB ≠ 0) : regCheck c a = some .regAccessSize := if_pos h

variable (hpos : 0 < c.WB) {i : Nat} (hsize : a.size = c.WB) (haddr : a.addr = c.regBase + i * c.WB)
include hpos hsize haddr

theorem regCheck_of_reserved (h : reservedIndex i = true) : regCheck c a = some .regReserved := by
  simp [regCheck, hsize, haddr, Config.regIndexOf_reg hpos, h]

theorem regCheck_of_legal (h : i = 0 ∨ (16 ≤ i ∧ i % 16 ≠ 15)) : regCheck c a = none := by
  simp [regCheck, hsize, haddr, Config.regIndexOf_reg hpos, reservedIndex_of_legal h]

end

section
variable {t : Tile} {a : RegAccess} {o : Origin}

theorem regAccess_of_check {c : FatalCode} (h : regCheck t.cfg a = some c) : regAccess t a o = .error c := by
  simp [regAccess, h]

/-- An access to a register that is not reserved is of its index. -/
structure RegAccess.Legal (c : Config) (a : RegAccess) (i : Nat) : Prop where
  check : regCheck c a = none
  index : c.regIndexOf a.addr = i

theorem RegAccess.legal_of_valid {c : Config} (hvalid : c.valid = true) {i : Nat} (hsize : a.size = c.WB)
    (haddr : a.addr = c.regBase + i * c.WB) (h : i = 0 ∨ (16 ≤ i ∧ i % 16 ≠ 15)) : a.Legal c i :=
  ⟨regCheck_of_legal (Config.WB_pos hvalid) hsize haddr h, haddr ▸ Config.regIndexOf_reg (Config.WB_pos hvalid) i⟩

variable {i : Nat} (hlegal : a.Legal t.cfg i)
include hlegal

theorem regAccess_of_read (hread : a.isWrite = false) : regAccess t a o = .ok (t, .value (t.reg i)) := by
  simp [regAccess, hlegal.check, hlegal.index, hread]

variable (hwrite : a.isWrite = true)
include hwrite

theorem regAccess_of_write (hi : i ≠ commandReg) : regAccess t a o = .ok (t.setReg i a.value, .ack) := by
  simp [regAccess, hlegal.check, hlegal.index, hwrite, hi]

theorem regAccess_of_command (hi : i = commandReg) (hidle : t.cmd = .idle) :
    regAccess t a o = .ok ({ t.setReg commandReg a.value with cmd := .scheduled o }, .ack) := by
  simp [regAccess, hlegal.check, hlegal.index, hwrite, hi, writeCommand, hidle, Except.map]

theorem regAccess_of_busy (hi : i = commandReg) (hbusy : t.cmd ≠ .idle) : regAccess t a o = .error .cmdInProgress := by
  simp [regAccess, hlegal.check, hlegal.index, hwrite, hi, writeCommand, hbusy, Except.map]

end

/-- In TIMED mode the response follows the access at once. -/
theorem regComplete_of_timed (run : State → Host.Outcome State Fault Refusal) {u : State} {k : Nat} {t : Tile} (item : Item)
    (hmode : u.mode = .timed) (hraised : u.raised = none) (hfatal : t.fatal = none) (hk : k < u.tiles.length) :
    regComplete run k item (u.setTile k t) = .next (u.send k t.recompute item) := by
  have hrun := State.raised_setTile hraised hfatal (k := k)
  have hself : (u.setTile k t).tiles[k]? = some t := by simp [hk]
  simp only [regComplete, State.setTile_mode, hmode, reduceCtorEq, decide_false, Bool.false_and, Bool.false_eq_true, if_false,
    andThen, hrun, State.onTile_of_getElem? hself, regEnd]
  rw [State.commit_done_setTile]
  rfl

/-! ## The CPU's request, offered for the first time or again (44_async_completion R397, R407) -/

namespace State.CpuOffers

variable {s : State} {k : Nat} {q : CpuReq} {r : Bool} {rest : List Turn} {t : Tile} (h : s.CpuOffers k q r rest t)
include h

theorem running : s.raised = none := by
  obtain ⟨-, ⟨hdue, -⟩ | ⟨i, u, hdue, -⟩⟩ := h <;> exact hdue.running

theorem timed : s.mode = .timed := by
  obtain ⟨-, ⟨hdue, -⟩ | ⟨i, u, hdue, -⟩⟩ := h <;> exact hdue.timed

theorem lt : k < s.tiles.length := by
  obtain ⟨-, ⟨-, ht⟩ | ⟨i, u, -, ht, -⟩⟩ := h <;> exact (List.getElem?_eq_some_iff.1 ht).1

theorem fatal : t.fatal = none := by
  obtain ⟨-, ⟨hdue, ht⟩ | ⟨i, u, hdue, ht, -, rfl⟩⟩ := h
  · exact State.fatal_eq_none hdue.running ht
  · exact State.fatal_eq_none (t := u) hdue.running ht

theorem running_taken : ((s.chosen r rest).setTile k t).raised = none := State.raised_setTile h.running h.fatal

theorem tile_taken : ((s.chosen r rest).setTile k t).tiles[k]? = some t := by simp [h.lt]

/-- An accepted request runs on the tile from whose port it is taken. -/
theorem step_accepted {o : Host.Outcome State Fault Refusal}
    (hreq : cpuRequest (runChain (s.chosen r rest).chainBound (s.chosen r rest)) k q t ((s.chosen r rest).setTile k t) = some o) :
    step s = (s.chosen r rest).settle o := by
  obtain ⟨hruns, ⟨hdue, ht⟩ | ⟨i, u, hdue, hu, hq, rfl⟩⟩ := h
  · rw [State.setTile_same (s := s.chosen r rest) ht] at hreq
    rw [step_of_due hdue]
    simp only [perform, cpuIssues, State.chosen_tiles, ht, hruns, if_true, hreq]
  · have hruns' : u.cpuRuns = true := hruns
    rw [step_of_due hdue]
    simp only [perform, cpuAgain, State.chosen_tiles, hu, hruns', if_true, hq, hreq]

end State.CpuOffers

section
variable {s : State} {k : Nat} {a : RegAccess} {r : Bool} {rest : List Turn} {t : Tile} (h : s.CpuOffers k (.reg a) r rest t)
  (hwin : t.cfg.inWindow a.addr = true) (hfree : t.retry.cpuResp = none)
include h hwin hfree

theorem State.CpuOffers.step_register :
    step s = (s.chosen r rest).settle
      (cpuRegister (runChain (s.chosen r rest).chainBound (s.chosen r rest)) k a t ((s.chosen r rest).setTile k t)) := by
  refine h.step_accepted ?_
  have haccepts : t.accepts (.reg a) = true := by simp [Tile.accepts, hwin, Tile.free, Retry.slot, hfree]
  simp [cpuRequest, haccepts]

theorem State.CpuOffers.register_fatal {c : FatalCode} (herror : regAccess t a .cpu = .error c) :
    step s = .next ((s.chosen r rest).raise k c) := by
  rw [h.step_register hwin hfree, cpuRegister, herror]
  exact State.settle_raise h.running_taken (by simpa using h.lt)

theorem State.CpuOffers.register_done {u : Tile} {reply : RegReply} (hok : regAccess t a .cpu = .ok (u, reply)) :
    step s = .next ((s.chosen r rest).send k u.recompute (.cpuResp reply.toCpu)) := by
  have hfatal : u.fatal = none := (regAccess_evolves hok).fatal.trans h.fatal
  rw [h.step_register hwin hfree, cpuRegister, hok]
  simp only [State.setTile_setTile]
  rw [regComplete_of_timed (u := s.chosen r rest) _ _ h.timed h.running hfatal h.lt]
  exact State.settle_commit_done (u := s.chosen r rest) (t := u.recompute) (some _) h.running hfatal

end

/-- Settles O33. -/
theorem cpuReadsRegister : Obligations.CpuReadsRegister := by
  intro s k r rest t i v h hvalid hfree hi hlegal
  exact h.register_done (Config.inWindow_reg (Config.WB_pos hvalid) hi) hfree
    (regAccess_of_read (RegAccess.legal_of_valid hvalid rfl rfl hlegal) rfl)

/-- Settles O34. -/
theorem cpuWritesRegister : Obligations.CpuWritesRegister := by
  intro s k r rest t i v u h hvalid hfree hi hfield hlegal hu
  subst hu
  exact h.register_done (Config.inWindow_reg (Config.WB_pos hvalid) hi) hfree
    (regAccess_of_write (RegAccess.legal_of_valid hvalid rfl rfl (.inr ⟨hfield, hlegal⟩)) rfl (show i ≠ 0 by omega))

theorem Tile.pendingMessage_setReg_command (t : Tile) (v : Nat) (c : CmdState) :
    ({ t.setReg commandReg v with cmd := c } : Tile).pendingMessage = t.pendingMessage := by
  have h : ∀ p, ({ t.setReg commandReg v with cmd := c } : Tile).ep p .bufMsgCnt = t.ep p .bufMsgCnt := fun p =>
    t.reg_setReg_of_ne _ _ v (epReg_ne_command p _)
  simp only [Tile.pendingMessage, h]
  rfl

/-- Settles O35. -/
theorem cpuWritesCommand : Obligations.CpuWritesCommand := by
  intro s k r rest t v h hvalid hfree
  have hwin := Config.commandReg_window hvalid
  have hlegal : RegAccess.Legal t.cfg { addr := t.cfg.regBase, size := t.cfg.WB, isWrite := true, value := v } 0 :=
    RegAccess.legal_of_valid hvalid rfl (by simp) (.inl rfl)
  refine ⟨fun hidle => ?_, fun hbusy => h.register_fatal hwin hfree (regAccess_of_busy hlegal rfl rfl hbusy)⟩
  rw [h.register_done hwin hfree (regAccess_of_command hlegal rfl rfl hidle), Tile.recompute, Tile.pendingMessage_setReg_command]
  rfl

/-! ## A request that the NoC delivers (44_async_completion R405, 60_exceptions R432) -/

/-- The step that ends in the fatal code `c`, or in the denial EXTERNAL_INVARIANT of the request instead. -/
def Externalised (s : State) (i k : Nat) (r : Bool) (rest : List Turn) (t : Tile) (q : NocReq) (off : Nat)
    (c : FatalCode) : Prop :=
  (t.cfg.externalErrorsAsDenial = false → step s = .next ((s.chosen r rest).raise k c)) ∧
    (t.cfg.externalErrorsAsDenial = true →
      step s = .next
        (State.send { s.chosen r rest with noc := s.noc.eraseIdx i } k
          { t with
            log := t.log ++
              [{ code := .externalInvariant, origin := .noc, ep := t.cfg.nocEp q.addr, addr := off, size := q.size }] }
          (.nocResp q.src { kind := q.kind, status := .denied, err := false, data := [], ss := q.ss })))

section
variable {s : State} {i k d : Nat} {r : Bool} {rest : List Turn} {t : Tile} {q : NocReq} (hdue : s.Due (.deliver i k) r rest)
  (hnoc : s.noc[i]? = some { dst := d, packet := .req q }) (ht : s.tiles[k]? = some t)
include hdue hnoc ht

theorem step_deliver_request {o : Host.Outcome State Fault Refusal} (hfunc : q.kind ≠ .cacheMemReqFunc) (hinb : t.inb = .idle)
    (hfree : t.retry.nocResp = none)
    (h : inboundRequest (runChain (s.chosen r rest).chainBound (s.chosen r rest)) k q t
      { s.chosen r rest with noc := s.noc.eraseIdx i } = o) :
    step s = (s.chosen r rest).settle o := by
  have htakes : takes k t { dst := d, packet := .req q } = true := by
    simp [takes, Tile.inboundReady, hfunc, hinb, Tile.free, Retry.slot, hfree]
  rw [step_of_due hdue, ← h]
  simp only [perform, deliver, State.chosen_noc, State.chosen_tiles, hnoc, ht, htakes, if_true]

omit hnoc

theorem externalised_of_fatal {c : FatalCode} {off : Nat} (hoff : t.cfg.nocOff q.addr = off)
    (h : step s = (s.chosen r rest).settle
      (.next (State.commit { s.chosen r rest with noc := s.noc.eraseIdx i } k (externalise q t (.fatal c))))) :
    Externalised s i k r rest t q off c := by
  subst hoff
  have hfatal : t.fatal = none := State.fatal_eq_none hdue.running ht
  refine ⟨fun hext => ?_, fun hext => ?_⟩
  · simp only [externalise, hext, Bool.false_eq_true, if_false] at h
    rw [h]
    exact State.settle_commit_fatal hdue.running ht
  · simp only [externalise, hext, if_true] at h
    rw [h]
    exact State.settle_commit_done (t := t.denyExternal q) (some _) hdue.running hfatal

end

section
variable {s : State} {i k d : Nat} {r : Bool} {rest : List Turn} {t : Tile} {q : NocReq} (hdue : s.Due (.deliver i k) r rest)
  (hnoc : s.noc[i]? = some { dst := d, packet := .req q }) (ht : s.tiles[k]? = some t) (hkind : q.kind ≠ .message)
  (hfunc : q.kind ≠ .cacheMemReqFunc) (hinb : t.inb = .idle) (hfree : t.retry.nocResp = none)
  (hcore : t.cfg.nocCore q.addr = t.cfg.ownCoreId) (hwin : t.cfg.inWindow (t.cfg.nocOff q.addr) = true)
include hdue hnoc ht hkind hfunc hinb hfree hcore hwin

theorem step_nocRegister :
    step s = (s.chosen r rest).settle
      (nocRegister (runChain (s.chosen r rest).chainBound (s.chosen r rest)) k q t
        { s.chosen r rest with noc := s.noc.eraseIdx i }) :=
  step_deliver_request hdue hnoc ht hfunc hinb hfree
    (by simp only [inboundRequest, hkind, hcore, hwin, ne_eq, not_true, if_false, if_true])

theorem nocRegister_fatal {c : FatalCode} {off : Nat} (hoff : t.cfg.nocOff q.addr = off) (h : nocRegAccess q t = .error c) :
    Externalised s i k r rest t q off c := by
  refine externalised_of_fatal hdue ht hoff ?_
  rw [step_nocRegister hdue hnoc ht hkind hfunc hinb hfree hcore hwin, nocRegister, h]

theorem nocRegister_done {u : Tile} {reply : RegReply} (h : nocRegAccess q t = .ok (u, reply)) :
    step s = .next
      (State.send { s.chosen r rest with noc := s.noc.eraseIdx i } k u.recompute
        (.nocResp q.src { kind := q.kind, status := .ok, err := false, data := reply.toBytes t.cfg, ss := q.ss })) := by
  have hfatal : u.fatal = none := (nocRegAccess_evolves h).fatal.trans (State.fatal_eq_none hdue.running ht)
  rw [step_nocRegister hdue hnoc ht hkind hfunc hinb hfree hcore hwin, nocRegister, h]
  have hlt : k < s.tiles.length := (List.getElem?_eq_some_iff.1 ht).1
  have hcomplete := regComplete_of_timed (runChain (s.chosen r rest).chainBound (s.chosen r rest))
    (u := { s.chosen r rest with noc := s.noc.eraseIdx i })
    (.nocResp q.src { kind := q.kind, status := .ok, err := false, data := reply.toBytes t.cfg, ss := q.ss })
    hdue.timed hdue.running hfatal hlt
  exact (congrArg _ hcomplete).trans (State.settle_commit_done (t := u.recompute) (some _) hdue.running hfatal)

end

theorem nocRegAccess_of_error {q : NocReq} {t : Tile} {c : FatalCode} (h : regAccess t (q.regAccess t.cfg) .noc = .error c) :
    nocRegAccess q t = .error c := by
  simp [nocRegAccess, h]

theorem nocRegAccess_of_malformed {q : NocReq} {t : Tile} {p : Tile × RegReply}
    (h : regAccess t (q.regAccess t.cfg) .noc = .ok p) (hbad : malformedRequest q = true) :
    nocRegAccess q t = .error .malformedRequest := by
  simp [nocRegAccess, h, hbad]

/-- Settles O36. -/
theorem registerFormErrors : Obligations.RegisterFormErrors := by
  intro s k r rest t addr size hbase hlimit
  have hwin : t.cfg.inWindow addr = true := (t.cfg.inWindow_iff addr).2 ⟨hbase, hlimit⟩
  refine ⟨fun w v h hfree => ⟨fun hform => ?_, fun i hsize haddr hvalid hres => ?_⟩,
    fun i d q hdue hnoc ht hkind hfunc hinb hfree hcore haddr hsize => ?_⟩
  · exact h.register_fatal hwin hfree (regAccess_of_check (regCheck_of_form hform))
  · exact h.register_fatal hwin hfree (regAccess_of_check
      (regCheck_of_reserved (Config.WB_pos hvalid) hsize haddr ((reservedIndex_iff i).2 hres)))
  · subst haddr hsize
    have fatal {c : FatalCode} (hcheck : regCheck t.cfg (q.regAccess t.cfg) = some c) :
        Externalised s i k r rest t q (t.cfg.nocOff q.addr) c :=
      nocRegister_fatal hdue hnoc ht hkind hfunc hinb hfree hcore hwin rfl (nocRegAccess_of_error (regAccess_of_check hcheck))
    exact ⟨fun hform => fatal (regCheck_of_form hform), fun j hsize haddr hvalid hres =>
      fatal (regCheck_of_reserved (Config.WB_pos hvalid) hsize haddr ((reservedIndex_iff j).2 hres))⟩

/-- Settles O37. -/
theorem nocPeerAccessesRegister : Obligations.NocPeerAccessesRegister := by
  intro s k i d r rest t q j s1 hdue hnoc ht hkind hfunc hinb hfree hcore hvalid hsize haddr hj hlegal hs1
  subst hs1
  have hwin : t.cfg.inWindow (t.cfg.nocOff q.addr) = true := haddr ▸ Config.inWindow_reg (Config.WB_pos hvalid) hj
  have haccess : (q.regAccess t.cfg).Legal t.cfg j := RegAccess.legal_of_valid hvalid hsize haddr hlegal
  have done {u : Tile} {reply : RegReply} (h : regAccess t (q.regAccess t.cfg) .noc = .ok (u, reply))
      (hdata : malformedRequest q = false) :=
    nocRegister_done hdue hnoc ht hkind hfunc hinb hfree hcore hwin (nocRegAccess_eq_ok.2 ⟨h, hdata⟩)
  have fatal {c : FatalCode} (h : nocRegAccess q t = .error c) :=
    nocRegister_fatal hdue hnoc ht hkind hfunc hinb hfree hcore hwin haddr h
  have hwrite : q.need = .write → (q.regAccess t.cfg).isWrite = true := fun h => by simp [NocReq.regAccess, h]
  have hwell : q.data.length = t.cfg.WB → malformedRequest q = false := fun h => by simp [malformedRequest, h, hsize]
  refine ⟨?read, ?write, ?command, ?busy, ?malformed⟩
  case read =>
    intro hneed
    exact done (regAccess_of_read haccess (by simp [NocReq.regAccess, hneed])) (by simp [malformedRequest, hneed])
  case write =>
    intro u hneed hne hlen hu
    subst hu
    exact done (regAccess_of_write haccess (hwrite hneed) hne) (hwell hlen)
  case command =>
    intro hneed hzero hidle hlen
    rw [done (regAccess_of_command haccess (hwrite hneed) hzero hidle) (hwell hlen), Tile.recompute,
      Tile.pendingMessage_setReg_command]
    rfl
  case busy =>
    intro hneed hzero hbusy
    exact fatal (nocRegAccess_of_error (regAccess_of_busy haccess (hwrite hneed) hzero hbusy))
  case malformed =>
    intro hneed hok hlen
    have hbad : malformedRequest q = true := by simp [malformedRequest, hneed, hlen, hsize]
    by_cases hzero : j = 0
    · exact fatal (nocRegAccess_of_malformed
        (regAccess_of_command haccess (hwrite hneed) hzero (hok.resolve_left fun h => h hzero)) hbad)
    · exact fatal (nocRegAccess_of_malformed (regAccess_of_write haccess (hwrite hneed) hzero) hbad)

end Machine

end Sys2Proof
end

section
/-!
PROOFS about inbound requests and about the completion of jobs, in TIMED mode (41_memory_unit, 42_message_unit, 43_transfer_unit):
the obligations O41, O43, O44, O46, O49 and O50.
-/

namespace Sys2Proof.Machine

/-! ## A request that the NoC delivers -/

section
variable {s : State} {i k d : Nat} {r : Bool} {rest : List Turn} {t : Tile} {q : NocReq} (hdue : s.Due (.deliver i k) r rest)
  (ht : s.tiles[k]? = some t)
include hdue ht

/-- The step of a request whose rule is done with it. -/
theorem inbound_done {res : Result} {u : Tile} {o : Option Item}
    (h : step s = (s.chosen r rest).settle
      (.next (State.commit { s.chosen r rest with noc := s.noc.eraseIdx i } k (externalise q t res))))
    (hres : res = .done u o) (hev : t.Evolves u) :
    step s = .next (State.commit { s.chosen r rest with noc := s.noc.eraseIdx i } k (.done u o)) := by
  subst hres
  rw [h]
  exact State.settle_commit_done o hdue.running (hev.fatal.trans (State.fatal_eq_none hdue.running ht))

end

/-! ## Inbound messages (42_message_unit R310) -/

section
variable {t : Tile} {q : NocReq} {e : Nat}

theorem malformedMessage_iff (q : NocReq) :
    malformedMessage q = true ↔ q.size < 16 ∨ q.data.length ≠ q.size ∨ bytesToNat (q.data.take 4) ≠ q.size - 16 := by
  simp [malformedMessage, decodeHeader, headerSize, List.take_take, or_assoc]

theorem inboundMessage_of_misrouted (h : t.cfg.nocCore q.addr ≠ t.cfg.ownCoreId) : inboundMessage q t = .fatal .misrouted :=
  if_pos h

variable (hcore : t.cfg.nocCore q.addr = t.cfg.ownCoreId) (he : t.cfg.nocEp q.addr = e)
include hcore he

theorem inboundMessage_of_outOfRange (h : t.cfg.numEndpoints ≤ e) : inboundMessage q t = .fatal .epidOutOfRange := by
  simp [inboundMessage, hcore, he, h]

variable (hrange : e < t.cfg.numEndpoints)
include hrange

theorem inboundMessage_of_malformed (h : malformedMessage q = true) : inboundMessage q t = .fatal .malformedMessage := by
  simp [inboundMessage, hcore, he, Nat.not_le.2 hrange, h]

variable (hform : malformedMessage q = false)
include hform

theorem inboundMessage_of_denial {code : DenialCode} (h : messageDenial t e q.size = some code) :
    inboundMessage q t = respond (t.deny code .noc e (t.ep e .bufWrPtr) q.size) q.src .message q.ss .denied [] := by
  simp [inboundMessage, hcore, he, Nat.not_le.2 hrange, hform, h]

theorem inboundMessage_of_room (h : messageDenial t e q.size = none) :
    inboundMessage q t =
      .done
        ({ t with
            inb := .busy
              { kind := .message, src := q.src, ss := q.ss, size := q.size, dir := .write, ep := e, slot := t.ep e .bufWrPtr,
                slots := t.ep e .bufSlots } }.enqueue
          { dir := .fromNoc, loc := t.slotAddr e (t.ep e .bufWrPtr), size := q.size, data := q.data, owner := .inb })
        none := by
  simp [inboundMessage, hcore, he, Nat.not_le.2 hrange, hform, h]

end

theorem messageDenial_eq {t : Tile} {e size : Nat} {code : DenialCode}
    (h : (code = .msgTooLarge ∧ t.ep e .bufSlotSize < size) ∨
      (code = .bufferFull ∧ size ≤ t.ep e .bufSlotSize ∧ t.ep e .bufSlots ≤ t.ep e .bufMsgCnt)) :
    messageDenial t e size = some code := by
  obtain ⟨rfl, hlarge⟩ | ⟨rfl, hsize, hfull⟩ := h
  · exact if_pos hlarge
  · rw [messageDenial, if_neg (Nat.not_lt.2 hsize), if_pos hfull]

theorem messageDenial_of_room {t : Tile} {e size : Nat} (hsize : size ≤ t.ep e .bufSlotSize)
    (hroom : t.ep e .bufMsgCnt < t.ep e .bufSlots) : messageDenial t e size = none := by
  rw [messageDenial, if_neg (Nat.not_lt.2 hsize), if_neg (Nat.not_le.2 hroom)]

theorem NocReq.with_kind {q : NocReq} {kind : NocKind} (h : q.kind = kind) : { q with kind := kind } = q := by
  subst h
  rfl

namespace Inbound

/-- Settles O41. -/
theorem inboundMessage : Obligations.InboundMessage := by
  intro s k i d r rest t q e s1 hdue hnoc ht hkind hinb hfree he hs1
  subst he hs1
  have hstep := step_deliver_request hdue hnoc ht (by rw [hkind]; exact NocKind.noConfusion) hinb hfree (if_pos hkind)
  have fatal : ∀ {c}, Machine.inboundMessage q t = .fatal c →
      Externalised s i k r rest t { q with kind := .message } (t.cfg.nocOff q.addr) c := fun hrule => by
    rw [NocReq.with_kind hkind]
    exact externalised_of_fatal hdue ht rfl (hrule ▸ hstep)
  refine ⟨fun hcore => fatal (inboundMessage_of_misrouted hcore), fun hcore => ⟨fun hrange => ?_, fun hrange => ⟨fun hbad => ?_,
    fun hsize hlen hheader => ⟨fun code hcode => ?_, fun hslot hroom => ?_⟩⟩⟩⟩
  · exact fatal (inboundMessage_of_outOfRange hcore rfl hrange)
  · exact fatal (inboundMessage_of_malformed hcore rfl hrange ((malformedMessage_iff q).2 hbad))
  all_goals
    have hform : malformedMessage q = false := by
      rw [← Bool.not_eq_true, malformedMessage_iff]
      omega
  · exact inbound_done hdue ht hstep (inboundMessage_of_denial hcore rfl hrange hform (messageDenial_eq hcode)) (.deny ..)
  · exact inbound_done hdue ht hstep (inboundMessage_of_room hcore rfl hrange hform (messageDenial_of_room hslot hroom)) .of_eq

end Inbound

/-! ## Inbound memory requests (41_memory_unit R260 to R266) -/

section
variable {t : Tile} {need : Dir} {off size : Nat}

theorem inboundCheck_of_clear {code : DenialCode}
    (h : (need = .read ∧ (t.ep t.cfg.inboundWindowEp .perm).testBit 0 = false ∧ code = .noReadPerm) ∨
      (need = .write ∧ (t.ep t.cfg.inboundWindowEp .perm).testBit 1 = false ∧ code = .noWritePerm)) :
    inboundCheck t need off size = some code := by
  obtain ⟨rfl, hclear, rfl⟩ | ⟨rfl, hclear, rfl⟩ := h
  · exact if_pos ⟨rfl, hclear⟩
  · simp [inboundCheck, hclear]

/-- A permitted request is checked against the window's base, the address space and the window's size. -/
theorem inboundCheck_of_permits (h : permits need (t.ep t.cfg.inboundWindowEp .perm)) :
    inboundCheck t need off size =
      if off < t.ep t.cfg.inboundWindowEp .remBase then some .outOfBounds
      else if 2 ^ t.cfg.W ≤ off - t.ep t.cfg.inboundWindowEp .remBase + size then some .addrOverflow
      else if t.ep t.cfg.inboundWindowEp .remSize < off - t.ep t.cfg.inboundWindowEp .remBase + size then some .outOfBounds
      else none := by
  have hcheck := t.cfg.check_of_permits (off - t.ep t.cfg.inboundWindowEp .remBase) size (t.ep t.cfg.inboundWindowEp .remSize) h
  obtain ⟨rfl, hbit⟩ | ⟨rfl, hbit⟩ := h <;> simp [inboundCheck, hcheck, hbit, -Nat.testBit_zero]

end

section
variable {t : Tile} {q : NocReq}

theorem inboundMemory_of_malformed (h : malformedRequest q = true) : inboundMemory q t = .fatal .malformedRequest := if_pos h

variable (hform : malformedRequest q = false)
include hform

theorem inboundMemory_of_denial {code : DenialCode} (h : inboundCheck t q.need (t.cfg.nocOff q.addr) q.size = some code) :
    inboundMemory q t =
      respond (t.deny code .noc t.cfg.inboundWindowEp (t.cfg.nocOff q.addr) q.size) q.src q.kind q.ss .denied [] := by
  simp [inboundMemory, hform, h]

theorem inboundMemory_of_ok (h : inboundCheck t q.need (t.cfg.nocOff q.addr) q.size = none) :
    inboundMemory q t = serveMemory q t := by
  simp [inboundMemory, hform, h]

end

namespace Inbound

/-- Settles O43. -/
theorem inboundMemoryRequest : Obligations.InboundMemoryRequest := by
  intro s k i d r rest t q w off s1 hdue hnoc ht hkind hinb hfree hw hoff hs1
  subst hw hoff hs1
  have hnotMessage : q.kind ≠ .message := by obtain h | h | h := hkind <;> rw [h] <;> exact NocKind.noConfusion
  have hnotFunc : q.kind ≠ .cacheMemReqFunc := by obtain h | h | h := hkind <;> rw [h] <;> exact NocKind.noConfusion
  refine ⟨fun hcore => ?_, fun hcore hout => ?_⟩
  · refine externalised_of_fatal hdue ht rfl ?_
    exact step_deliver_request hdue hnoc ht hnotFunc hinb hfree ((if_neg hnotMessage).trans (if_pos hcore))
  · have hwin : t.cfg.inWindow (t.cfg.nocOff q.addr) = false := Config.inWindow_of_outside hout
    have hstep : step s = (s.chosen r rest).settle
        (.next (State.commit { s.chosen r rest with noc := s.noc.eraseIdx i } k (externalise q t (inboundMemory q t)))) :=
      step_deliver_request hdue hnoc ht hnotFunc hinb hfree
        (by simp only [inboundRequest, hnotMessage, hcore, hwin, if_false, ne_eq, not_true, Bool.false_eq_true])
    refine ⟨fun hneed hlen => ?_, fun hlen => ?_⟩
    · refine externalised_of_fatal hdue ht rfl ?_
      rw [hstep, inboundMemory_of_malformed (by simp [malformedRequest, hneed, hlen])]
    · have hform : malformedRequest q = false := by
        cases hneed : q.need <;> simp [malformedRequest, hneed]
        exact hlen hneed
      have denied : ∀ {code}, inboundCheck t q.need (t.cfg.nocOff q.addr) q.size = some code → step s = _ := fun hcheck =>
        inbound_done hdue ht hstep (inboundMemory_of_denial hform hcheck) (.deny ..)
      refine ⟨fun hneed hclear => denied (inboundCheck_of_clear (.inl ⟨hneed, hclear, rfl⟩)),
        fun hneed hclear => denied (inboundCheck_of_clear (.inr ⟨hneed, hclear, rfl⟩)), fun hperm hbelow => denied ?_,
        fun hperm hbase => ⟨fun hover => denied ?_, fun hfits => ⟨fun hsize => denied ?_, fun hsize loc hloc => ?_⟩⟩⟩
      · rw [inboundCheck_of_permits hperm, if_pos hbelow]
      · rw [inboundCheck_of_permits hperm, if_neg (Nat.not_lt.2 hbase), if_pos hover]
      · rw [inboundCheck_of_permits hperm, if_neg (Nat.not_lt.2 hbase), if_neg (Nat.not_le.2 hfits), if_pos hsize]
      · have hok : inboundCheck t q.need (t.cfg.nocOff q.addr) q.size = none := by
          rw [inboundCheck_of_permits hperm, if_neg (Nat.not_lt.2 hbase), if_neg (Nat.not_le.2 hfits), if_neg (Nat.not_lt.2 hsize)]
        subst hloc
        exact inbound_done hdue ht hstep ((inboundMemory_of_ok hform hok).trans rfl) .of_eq

end Inbound

/-! ## The completion of a job (43_transfer_unit R355) -/

section
variable {t : Tile} {e : Nat} {sn : Snap}

theorem commandJobDone_of_read (acc : List Byte) (hcmd : t.cmd = .exec .read e .xferIn sn) :
    commandJobDone acc t = .done t.retire none := by
  simp [commandJobDone, hcmd]

/-- What is sent when the data of a SEND, REPLY or WRITE is read (42_message_unit R303, 41_memory_unit R257). -/
theorem commandJobDone_of_payload {op : AsyncOp} {kind : NocKind} {size : Nat} {acc data : List Byte}
    (hcmd : t.cmd = .exec op e .xferOut sn) (hfree : t.retry.nocReq = none)
    (h : (op = .write ∧ kind = .writeReq ∧ size = sn.dataSize ∧ data = acc) ∨
      ((op = .send ∨ op = .reply) ∧ kind = .message ∧ size = headerSize + sn.dataSize ∧ data = sn.hdr ++ acc)) :
    commandJobDone acc t =
      nocRequest { t with cmd := .exec op e .waitAck sn } .cmd e
        { kind := kind, addr := sn.nocAddr, size := size, data := data, src := t.cfg.ownCoreId, ss := 0, dir := .write } 0 := by
  have hchannel : t.free .nocReq = true := by simp [Tile.free, Retry.slot, hfree]
  obtain ⟨rfl, rfl, rfl, rfl⟩ | ⟨rfl | rfl, rfl, rfl, rfl⟩ := h <;>
    simp [commandJobDone, hcmd, hchannel, writeOut, messageOut]

theorem inboundJobDone_of_memory {b : InbRec} (acc : List Byte) (hinb : t.inb = .busy b) (hkind : b.kind ≠ .message)
    (hfree : t.retry.nocResp = none) : inboundJobDone acc t = memoryServed b acc t := by
  simp [inboundJobDone, hinb, hkind, Tile.free, Retry.slot, hfree]

end

section
variable {s : State} {k : Nat} {r : Bool} {rest : List Turn} {t : Tile} {m : MemResp} {ms : List MemResp} {p j len : Nat}
  {o : Owner} {mq : List MemSS} {a : ActiveJob} (hout : t.memOut = m :: ms) (hmemq : t.memq = .transfer p o j true len :: mq)
  (herr : m.err = false) (hactive : t.xfer.active = some a)
include hout hmemq herr hactive

/-- The response to the last chunk completes its job. -/
theorem memResponse_of_lastChunk :
    memResponse t = jobDone a.job.owner (if a.job.dir = .toNoc then a.acc ++ m.data else a.acc) (t.matched ms mq) := by
  rw [memResponse_of_transfer hout hmemq, transferResponse_of_last (t := t.matched ms mq) hactive herr]

end

/-- Settles O44. -/
theorem inboundMemoryAnswered : Obligations.InboundMemoryAnswered := by
  intro s k r rest t m ms p j len o mq a b hdue ht hout hmemq herr hactive howner hinb hkind hfree hdir
  have hdata : (if b.dir = .read then (if a.job.dir = .toNoc then a.acc ++ m.data else a.acc) else []) =
      if b.dir = .read then a.acc ++ m.data else [] := by
    split
    next h => rw [if_pos (hdir h)]
    next => rfl
  have hrule := memResponse_of_lastChunk hout hmemq herr hactive
  rw [howner] at hrule
  rw [← hdata]
  exact step_memResponse_done hdue ht
    (hrule.trans (inboundJobDone_of_memory (t := (t.matched ms mq).jobEnded) _ hinb hkind hfree))

/-- Settles O50. -/
theorem commandJobCompletes : Obligations.CommandJobCompletes := by
  intro s k r rest t m ms p j len o mq a e sn u hdue ht hout hmemq herr hactive howner hu
  subst hu
  have hrule := memResponse_of_lastChunk hout hmemq herr hactive
  rw [howner] at hrule
  refine ⟨fun hcmd => ?_, fun hdir hfree => ⟨fun op hop hcmd => ?_, fun hcmd => ?_⟩⟩
  · have hdone := step_memResponse_done hdue ht
      (hrule.trans (commandJobDone_of_read (t := (t.matched ms mq).jobEnded) _ hcmd))
    rw [Tile.retire_eq] at hdone
    exact hdone
  all_goals rw [if_pos hdir] at hrule
  · exact step_memResponse_done hdue ht
      (hrule.trans (commandJobDone_of_payload (t := (t.matched ms mq).jobEnded) hcmd hfree (.inr ⟨hop, rfl, rfl, rfl⟩)))
  · exact step_memResponse_done hdue ht
      (hrule.trans (commandJobDone_of_payload (t := (t.matched ms mq).jobEnded) hcmd hfree (.inl ⟨rfl, rfl, rfl, rfl⟩)))

/-! ## Responses of the memory (43_transfer_unit R354, R362) -/

section
variable {t : Tile} {m : MemResp} (herr : m.err = true)
include herr

theorem headerResponse_of_error (h : t.cmd.fetchesHeader = true) : headerResponse m t = .fatal .transactionError := by
  unfold CmdState.fetchesHeader at h
  split at h
  next hcmd => simp [headerResponse, hcmd, herr]
  next => cases h

/-- A chunk's response with the error flag is fatal, once its completion need not wait. -/
theorem transferResponse_of_error {last : Bool} {a : ActiveJob} (hactive : t.xfer.active = some a)
    (h : last = true → ∀ acc, (jobDone a.job.owner acc t).isHeld = false) :
    transferResponse last m t = .fatal .transactionError := by
  cases last with
  | false => simp [transferResponse, hactive, herr, Result.isHeld]
  | true => simp [transferResponse, hactive, herr, h rfl]

end

theorem CmdState.transfers_of_xferOut {op : AsyncOp} {e : Nat} {sn : Snap} (hop : op ≠ .read) :
    (CmdState.exec op e .xferOut sn).phaseOk = true ∧ (CmdState.exec op e .xferOut sn).transfers ≠ none := by
  cases op with
  | read => exact absurd rfl hop
  | send | reply | write => simp [CmdState.phaseOk, CmdState.transfers]

theorem jobDone_isHeld_of_free {t : Tile} {o : Owner}
    (h : (o = .cmd ∧ t.retry.nocReq = none ∧ ∃ op e sn, op ≠ .read ∧ t.cmd = .exec op e .xferOut sn) ∨
      (o = .cmd ∧ ∃ e sn, t.cmd = .exec .read e .xferIn sn) ∨ (o = .inb ∧ t.retry.nocResp = none ∧ t.inb ≠ .idle))
    (acc : List Byte) : (jobDone o acc t).isHeld = false := by
  obtain ⟨rfl, hfree, op, e, sn, hop, hcmd⟩ | ⟨rfl, e, sn, hcmd⟩ | ⟨rfl, hfree, hinb⟩ := h
  · have hchannel : t.jobEnded.free .nocReq = true := by simp [Tile.free, Retry.slot, Tile.jobEnded, hfree]
    have hcmd' : t.jobEnded.cmd = .exec op e .xferOut sn := hcmd
    obtain ⟨hphase, htransfers⟩ := CmdState.transfers_of_xferOut (e := e) (sn := sn) hop
    exact commandJobDone_isHeld (u := t.jobEnded) (hcmd' ▸ hphase) (hcmd' ▸ htransfers) hchannel acc
  · exact congrArg Result.isHeld (commandJobDone_of_read (t := t.jobEnded) acc hcmd)
  · have hchannel : t.jobEnded.free .nocResp = true := by simp [Tile.free, Retry.slot, Tile.jobEnded, hfree]
    exact inboundJobDone_isHeld (u := t.jobEnded) hinb hchannel acc

theorem transferResponse_of_chunk {t : Tile} {m : MemResp} {a : ActiveJob} (hactive : t.xfer.active = some a)
    (herr : m.err = false) :
    transferResponse false m t =
      .done
        { t with
          xfer :=
            { t.xfer with
              active := some
                { a with
                  completed := a.completed + 1
                  inflight := a.inflight - 1
                  acc := if a.job.dir = .toNoc then a.acc ++ m.data else a.acc } } }
        none := by
  simp [transferResponse, hactive, herr, Result.isHeld]

/-- Settles O49. -/
theorem chunkResponse : Obligations.ChunkResponse := by
  intro s k r rest t m ms ss mq hdue ht hout hmemq
  refine ⟨fun herr hcase => step_memResponse_fatal hdue ht ?_, fun e o j len a herr hss hactive => ?_⟩
  · obtain ⟨⟨e, o, rfl⟩, hfetch⟩ | ⟨⟨e, o, j, len, rfl⟩, hactive⟩ | ⟨⟨e, o, j, len, rfl⟩, a, hactive, howner⟩ := hcase
    · rw [memResponse_of_header hout hmemq]
      exact headerResponse_of_error (t := t.matched ms mq) herr hfetch
    · obtain ⟨a, ha⟩ := Option.ne_none_iff_exists'.1 hactive
      rw [memResponse_of_transfer hout hmemq]
      exact transferResponse_of_error (t := t.matched ms mq) herr ha fun h => nomatch h
    · rw [memResponse_of_transfer hout hmemq]
      exact transferResponse_of_error (t := t.matched ms mq) herr hactive
        fun _ => jobDone_isHeld_of_free (t := t.matched ms mq) howner
  · subst hss
    exact step_memResponse_done hdue ht
      ((memResponse_of_transfer hout hmemq).trans (transferResponse_of_chunk (t := t.matched ms mq) hactive herr))

/-! ## Activation (43_transfer_unit R351, R357) -/

section
variable {t : Tile}

theorem activateJob_of_idle (h : t.xfer.active ≠ none ∨ t.xfer.queue = []) : activateJob t = .held := by
  unfold activateJob
  split
  next hactive hqueue => simp [hactive, hqueue] at h
  next => rfl

variable {j : Job} {q : List Job} (hactive : t.xfer.active = none) (hqueue : t.xfer.queue = j :: q)
include hactive hqueue

theorem activateJob_of_bytes (h : j.size ≠ 0) :
    activateJob t =
      .done
        { t with xfer := { queue := q, active := some { job := j, issued := 0, completed := 0, inflight := 0, acc := [] } } }
        none := by
  simp [activateJob, hactive, hqueue, h]

/-- A job without a byte is complete: its owner's continuation runs at once. -/
theorem activateJob_of_empty (h : j.size = 0) :
    activateJob t = jobDone j.owner [] { t with xfer := { queue := q, active := none } } := by
  simp only [activateJob, hactive, hqueue, h, if_true]
  cases j.owner <;> rfl

end

section
variable {s : State} {k : Nat} {r : Bool} {rest : List Turn} {t : Tile} (hdue : s.Due (.activate k) r rest)
  (ht : s.tiles[k]? = some t)
include hdue ht

theorem step_activate : step s = (s.chosen r rest).settle (.next ((s.chosen r rest).commit k (activateJob t))) := by
  rw [step_of_due hdue, perform, State.onTile_of_getElem? (s := s.chosen r rest) ht]

theorem step_activate_held (h : activateJob t = .held) : step s = .next (s.chosen r rest) := by
  rw [step_activate hdue ht, h]
  exact State.settle_of_running hdue.running

theorem step_activate_done {u : Tile} {o : Option Item} (h : activateJob t = .done u o) :
    step s = .next ((s.chosen r rest).commit k (.done u o)) := by
  have hfatal : u.fatal = none := ((activateJob_evolves t).out u o h).fatal.trans (State.fatal_eq_none hdue.running ht)
  rw [step_activate hdue ht, h]
  exact State.settle_commit_done o hdue.running hfatal

end

/-- A completion waits, or it leaves the transfers, the memory path and the channels of `u` and offers nothing to the memory. -/
def Tile.Continues (u : Tile) (res : Result) : Prop :=
  res = .held ∨ ∃ v o, res = .done v o ∧ v.xfer = u.xfer ∧ v.memq = u.memq ∧ v.memIn = u.memIn ∧ v.retry = u.retry ∧
    ∀ item, o = some item → item.channel ≠ .memReq

theorem Tile.Continues.done {u v : Tile} {item : Item} (hchannel : item.channel ≠ .memReq) (hxfer : v.xfer = u.xfer := by rfl)
    (hmemq : v.memq = u.memq := by rfl) (hmemIn : v.memIn = u.memIn := by rfl) (hretry : v.retry = u.retry := by rfl) :
    u.Continues (.done v (some item)) := by
  refine .inr ⟨v, some item, rfl, hxfer, hmemq, hmemIn, hretry, ?_⟩
  rintro _ ⟨⟩
  exact hchannel

theorem commandJobDone_continues (acc : List Byte) (u : Tile) : u.Continues (commandJobDone acc u) := by
  unfold commandJobDone
  split
  iterate 3
    split
    · exact .done Channel.noConfusion
    · exact .inl rfl
  · exact .inr ⟨u.retire, none, rfl, rfl, rfl, rfl, rfl, fun _ h => nomatch h⟩
  · exact .inl rfl

theorem inboundJobDone_continues (acc : List Byte) (u : Tile) : u.Continues (inboundJobDone acc u) := by
  unfold inboundJobDone
  split
  · exact .inl rfl
  · split
    · split
      · exact .done Channel.noConfusion
      · exact .done Channel.noConfusion
    · exact .inl rfl

/-- An offer on another channel than MEM_REQ leaves the memory path alone. -/
theorem Tile.offering_memPath {t : Tile} (b : Bool) {o : Option Item} (h : ∀ item, o = some item → item.channel ≠ .memReq) :
    (t.offering b o).memIn = t.memIn ∧ (t.offering b o).retry.memReq = t.retry.memReq := by
  cases o with
  | none => exact ⟨rfl, rfl⟩
  | some item =>
    have hchannel := h item rfl
    cases item with
    | memReq => exact absurd rfl hchannel
    | nocReq | nocResp | cpuResp => cases b <;> exact ⟨rfl, rfl⟩

/-- Settles O46. -/
theorem activation : Obligations.Activation := by
  intro s k r rest t hdue ht
  refine ⟨fun hidle => step_activate_held hdue ht (activateJob_of_idle hidle), fun j q hactive hqueue => ?_⟩
  have hempty := fun h => activateJob_of_empty (t := t) hactive hqueue h
  refine ⟨?bytes, ?read, ?payload, ?inbound, ?frame⟩
  case bytes => exact fun hsize => step_activate_done hdue ht (activateJob_of_bytes hactive hqueue hsize)
  case read =>
    intro hsize howner e sn hcmd
    rw [howner] at hempty
    have hdone := step_activate_done hdue ht ((hempty hsize).trans (commandJobDone_of_read [] hcmd))
    rw [Tile.retire_eq] at hdone
    exact hdone
  case payload =>
    intro hsize howner op e sn hcmd hop
    rw [howner] at hempty
    refine ⟨fun hbusy => step_activate_held hdue ht ((hempty hsize).trans (commandJobDone_of_blocked [] hcmd hbusy)),
      fun hfree kind size data h => ?_⟩
    have h' : (op = .write ∧ kind = .writeReq ∧ size = sn.dataSize ∧ data = []) ∨
        ((op = .send ∨ op = .reply) ∧ kind = .message ∧ size = headerSize + sn.dataSize ∧ data = sn.hdr ++ []) := by
      rw [List.append_nil]
      exact h
    exact step_activate_done hdue ht ((hempty hsize).trans (commandJobDone_of_payload (acc := []) hcmd hfree h'))
  case inbound =>
    intro hsize howner b hinb
    rw [howner] at hempty
    refine ⟨fun hbusy => step_activate_held hdue ht ((hempty hsize).trans (inboundJobDone_of_blocked [] hbusy)),
      fun hfree hkind => ?_⟩
    have hrule := (hempty hsize).trans (inboundJobDone_of_memory [] hinb hkind hfree)
    rw [memoryServed, ite_self] at hrule
    exact step_activate_done hdue ht hrule
  case frame =>
    intro hsize s' t' hstep ht'
    have hcontinues : Tile.Continues { t with xfer := { queue := q, active := none } } (activateJob t) := by
      rw [hempty hsize]
      cases j.owner
      · exact commandJobDone_continues ..
      · exact inboundJobDone_continues ..
    obtain hheld | ⟨v, o, hdone, hxfer, hmemq, hmemIn, hretry, hchannel⟩ := hcontinues
    · rw [step_activate_held hdue ht hheld] at hstep
      cases hstep
      cases ht.symm.trans ht'
      exact ⟨rfl, rfl, rfl, .inl rfl⟩
    · rw [step_activate_done hdue ht hdone] at hstep
      cases hstep
      rw [State.commit_done_tiles, State.chosen_tiles, List.getElem?_set_self (List.getElem?_eq_some_iff.1 ht).1] at ht'
      cases ht'
      obtain ⟨hin, hwaiting⟩ := Tile.offering_memPath (t := v) (s.chosen r rest).refuses hchannel
      refine ⟨?_, hin.trans hmemIn, hwaiting.trans (by rw [hretry]), .inr ?_⟩
      · rw [Tile.offering_memq, hmemq]
      · rw [Tile.offering_xfer, hxfer]

end Sys2Proof.Machine
end

section
/-!
PROOFS about the responses of the NoC and about cache-memory requests (41_memory_unit R270 to R273, 44_async_completion R391, R420):
the obligations O52, O54, O55 and O56.
-/

namespace Sys2Proof.Machine

/-! ## NoC responses (44_async_completion R391) -/

section
variable {t : Tile} {q : NocResp}

theorem nocResponse_of_noEntry (h : ∀ n ∈ t.nocq, n.id ≠ q.ss) : nocResponse q t = .fatal .responseMismatch := by
  have hnone : t.nocq.find? (fun n => n.id == q.ss) = none := List.find?_eq_none.2 fun n hn => by simpa using h n hn
  simp [nocResponse, hnone]

variable {n : NocSS} (hok : t.RequestsOk) (hn : n ∈ t.nocq) (hid : n.id = q.ss)
  (hfree : n.requester = .cpu → t.retry.cpuResp = none)
include hok hn hid hfree

/-- A response whose sender-state is found is not held: CPU_RESP is free where it may be offered. -/
theorem nocResponse_of_entry :
    nocResponse q t =
      if n.kind ≠ q.kind then .fatal .responseMismatch
      else if q.err then .fatal .transactionError
      else responseHandler n q (t.consumed q.ss) := by
  have hfind : t.nocq.find? (fun x => x.id == q.ss) = some n := hid ▸ hok.find?_eq hn
  have hready : ¬(n.requester = .cpu ∧ t.free .cpuResp = false) := fun ⟨hcpu, hbusy⟩ => by
    simp [Tile.free, Retry.slot, hfree hcpu] at hbusy
  simp only [nocResponse, hfind, if_neg hready]
  rfl

theorem nocResponse_of_otherKind (h : n.kind ≠ q.kind) : nocResponse q t = .fatal .responseMismatch := by
  rw [nocResponse_of_entry hok hn hid hfree, if_pos h]

variable (hkind : n.kind = q.kind)
include hkind

theorem nocResponse_of_error (h : q.err = true) : nocResponse q t = .fatal .transactionError := by
  rw [nocResponse_of_entry hok hn hid hfree, if_neg (not_not.2 hkind), if_pos h]

theorem nocResponse_taken : (nocResponse q t).isHeld = false := by
  rw [nocResponse_of_entry hok hn hid hfree, if_neg (not_not.2 hkind)]
  split
  · rfl
  · exact responseHandler_isHeld ..

end

/-! ## The NoC's failure in a transport (44_async_completion R420) -/

section
variable {s : State} {i : Nat}

theorem transportFails_of_resp {d : Nat} {q : NocResp} (h : s.noc[i]? = some { dst := d, packet := .resp q }) :
    transportFails i s = { s with noc := s.noc.set i { dst := d, packet := .resp { q with err := true } } } := by
  simp [transportFails, h]

variable {d : Nat} {q : NocReq} (h : s.noc[i]? = some { dst := d, packet := .req q })
include h

theorem transportFails_of_deliverable (hd : s.tiles[d]? ≠ none) : transportFails i s = s := by
  have hsome : (s.tiles[d]?).isNone = false := by simpa [Option.isNone_eq_false_iff, Option.isSome_iff_ne_none] using hd
  simp [transportFails, h, State.undeliverable, hsome]

theorem transportFails_of_undeliverable (hd : s.tiles[d]? = none) :
    transportFails i s =
      { s with
        noc := s.noc.set i
          { dst := q.src, packet := .resp { kind := q.kind, status := .denied, err := true, data := [], ss := q.ss } } } := by
  simp [transportFails, h, State.undeliverable, hd]

end

/-! ## A failing response in ATOMIC mode (44_async_completion R420) -/

theorem State.chainBound_pos (s : State) : 0 < s.chainBound := by
  have h : ∀ packet, 0 < (s.tiles.length + s.noc.length + 2) * (2 * packet + 16) := fun packet =>
    Nat.mul_pos (by omega) (by omega)
  exact (h _).trans_le ((Nat.le_add_right ..).trans (Nat.le_add_right ..))

/-- The chain of an event that raised a fatal error ends with it. -/
theorem runChain_of_raised {n : Nat} (hn : 0 < n) (start : State) {u : State} {k : Nat} {c : FatalCode} (h : u.raised = some (k, c)) :
    runChain n start u = .next (start.raise k c) := by
  obtain ⟨n, rfl⟩ := Nat.exists_eq_add_of_lt hn
  simp [runChain, h]

/-- The step of an ATOMIC event that raises a fatal error. -/
theorem step_atomic_fatal {s u : State} {e : Event} {r : Bool} {rest : List Turn} {k : Nat} {c : FatalCode}
    (hmode : s.mode = .atomic) (hrun : s.raised = none) (hturn : s.turns = { event := e, refuse := r } :: rest)
    (h : perform (runChain (s.chosen r rest).chainBound (s.chosen r rest)) e (s.chosen r rest) = .next u)
    (hu : u.raised = some (k, c)) (hk : k < s.tiles.length) : step s = .next ((s.chosen r rest).raise k c) := by
  have hnext : s.nextTurn = (e, s.chosen r rest) := by rw [State.nextTurn, hturn]; rfl
  have hraised : ((s.chosen r rest).raise k c).raised = some (k, c) := State.raised_raise (s := s.chosen r rest) hrun hk
  rw [step_of_running hrun, hnext, State.unsettled, State.chosen_mode, hmode]
  simp only [h, andThen, runChain_of_raised (State.chainBound_pos _) _ hu, State.settle_of_raised hraised]

theorem deliver_response_failing (run : State → Host.Outcome State Fault Refusal) {s : State} {i k : Nat} {t : Tile} {q : NocResp}
    (hfails : s.failsNow = true) (hnoc : s.noc[i]? = some { dst := k, packet := .resp q }) (ht : s.tiles[k]? = some t)
    (htaken : (nocResponse q t).isHeld = false) {c : FatalCode} (hrule : nocResponse { q with err := true } t = .fatal c) :
    deliver run i k s = .next (State.raise (State.countResponse { s with noc := s.noc.eraseIdx i }) k c) := by
  have htakes : takes k t { dst := k, packet := .resp q } = true := by simp [takes, htaken]
  have hcarried : s.carried q = { q with err := true } := by simp [State.carried, hfails]
  simp only [deliver, hnoc, ht, htakes, if_true, hcarried, hrule]
  rfl

/-- Settles O52. -/
theorem responseMatching : Obligations.ResponseMatching := by
  refine ⟨fun s k i r rest t q hdue hnoc ht => ⟨fun hnone => ?_, fun n hok hn hid hfree => ⟨fun hkind => ?_, fun hkind herr => ?_⟩⟩,
    fun s i r rest f hdue hnoc => ⟨fun q hq => ?_, fun q hq => ⟨fun hd => ?_, fun hd => ?_⟩⟩,
    fun s k i r rest t q n hmode hrun hturn hfail hnoc ht hok hn hid hkind hfree => ?_⟩
  · exact step_deliver_fatal hdue hnoc ht (nocResponse_of_noEntry hnone)
  · exact step_deliver_fatal hdue hnoc ht (nocResponse_of_otherKind hok hn hid hfree hkind)
  · exact step_deliver_fatal hdue hnoc ht (nocResponse_of_error hok hn hid hfree hkind herr)
  · obtain ⟨d, p⟩ := f
    subst hq
    exact hdue.step_of_perform (congrArg _ (transportFails_of_resp (s := s.chosen r rest) hnoc)) hdue.running
  · obtain ⟨d, p⟩ := f
    subst hq
    exact hdue.step_of_perform (congrArg _ (transportFails_of_deliverable (s := s.chosen r rest) hnoc hd)) hdue.running
  · obtain ⟨d, p⟩ := f
    subst hq
    exact ⟨_, rfl, rfl, rfl,
      hdue.step_of_perform (congrArg _ (transportFails_of_undeliverable (s := s.chosen r rest) hnoc hd)) hdue.running⟩
  · have hk : k < s.tiles.length := (List.getElem?_eq_some_iff.1 ht).1
    have hfails : (s.chosen r rest).failsNow = true := by
      simp [State.failsNow, State.chosen, hmode, hfail]
    have htaken := nocResponse_taken hok hn hid hfree hkind
    have hrule : nocResponse { q with err := true } t = .fatal .transactionError :=
      nocResponse_of_error (q := { q with err := true }) hok hn hid hfree hkind rfl
    refine step_atomic_fatal hmode hrun hturn (deliver_response_failing _ hfails hnoc ht htaken hrule) ?_ hk
    refine State.raised_raise ?_ (by simpa using hk)
    rw [State.raised, State.countResponse_tiles]
    exact hrun

section
variable {s : State} {i k : Nat} {r : Bool} {rest : List Turn} {t : Tile} {q : NocResp} (hdue : s.Due (.deliver i k) r rest)
  (hnoc : s.noc[i]? = some { dst := k, packet := .resp q }) (ht : s.tiles[k]? = some t)
include hdue hnoc ht

/-- The step of a response whose handler is done with it, with or without an offer. -/
theorem step_deliver_commit {u : Tile} {o : Option Item} (h : nocResponse q t = .done u o) :
    step s = .next ({ s.chosen r rest with noc := s.noc.eraseIdx i }.commit k (.done u o)) := by
  have hfatal : u.fatal = none := ((nocResponse_evolves q t).out u o h).fatal.trans (State.fatal_eq_none hdue.running ht)
  rw [step_deliver_response hdue hnoc ht (by rw [h]; rfl), h]
  exact State.settle_commit_done o hdue.running hfatal

end

namespace Forwarding

/-- Settles O54. -/
theorem forwardedResponse : Obligations.ForwardedResponse := by
  intro s k i r rest t q n hdue hnoc ht hfree hok hn hid hkind hqkind hreq herr
  have hrule : nocResponse q t = Machine.forwardedResponse n.dir n.size n.origAddr q (t.consumed q.ss) := by
    rw [nocResponse_of_entry hok hn hid fun _ => hfree, if_neg (not_not.2 (hkind.trans hqkind.symm)), herr]
    simp [responseHandler, hreq, hkind]
  exact ⟨fun hbad => step_deliver_fatal hdue hnoc ht (hrule.trans (if_pos hbad)),
    fun hgood => step_deliver_commit hdue hnoc ht (hrule.trans (if_neg hgood))⟩

end Forwarding

/-! ## Cache-memory requests at their own tile (41_memory_unit R270, R271) -/

section
variable {q : CacheReq} {t : Tile} {need : Dir}

theorem forward_of_denied {code : DenialCode}
    (h : (q.cls = .invalidateReq ∧ code = .coherenceUnsupported) ∨ (q.cls = .other ∧ code = .unsupportedRequest) ∨
      (((q.cls = .read ∧ need = .read) ∨ (q.cls = .write ∧ need = .write)) ∧
        t.cfg.check need q.addr q.size (t.ep t.cfg.memEp .remSize) (t.ep t.cfg.memEp .perm) = some code)) :
    forward q t = .ends (refuseCpu code q t) := by
  obtain ⟨hcls, rfl⟩ | ⟨hcls, rfl⟩ | ⟨⟨hcls, rfl⟩ | ⟨hcls, rfl⟩, hcheck⟩ := h
  · simp [forward, hcls]
  · simp [forward, hcls]
  · simp [forward, hcls, forwardAccess, hcheck]
  · simp [forward, hcls, forwardAccess, hcheck]

theorem forward_of_access (h : (q.cls = .read ∧ need = .read) ∨ (q.cls = .write ∧ need = .write)) :
    forward q t = forwardAccess need q t := by
  obtain ⟨hcls, rfl⟩ | ⟨hcls, rfl⟩ := h <;> simp [forward, hcls]

variable (hcheck : t.cfg.check need q.addr q.size (t.ep t.cfg.memEp .remSize) (t.ep t.cfg.memEp .perm) = none)
include hcheck

theorem forwardAccess_of_tooLarge (h : t.cfg.maxNocPacketSize < q.size) :
    forwardAccess need q t = .ends (.fatal .packetTooLarge) := by
  simp [forwardAccess, hcheck, h]

theorem forwardAccess_of_noTarget (hsize : q.size ≤ t.cfg.maxNocPacketSize)
    (h : t.cfg.nocTarget (t.ep t.cfg.memEp .tgtCore) (t.ep t.cfg.memEp .remBase) q.addr q.size = none) :
    forwardAccess need q t = .ends (.fatal .nocAddrRange) := by
  simp [forwardAccess, hcheck, Nat.not_lt.2 hsize, h]

end

section
variable {s : State} {k : Nat} {q : CacheReq} {r : Bool} {rest : List Turn} {t : Tile} (h : s.CpuOffers k (.cache q) r rest t)
  (hout : q.addr < t.cfg.regBase ∨ t.cfg.regBase + 16 * (t.cfg.numEndpoints + 1) * t.cfg.WB ≤ q.addr)
  (hforwards : t.cfg.forwardsAddr q.addr = true) (hcpu : t.retry.cpuResp = none)
  (hnoc : q.functional = true ∨ t.retry.nocReq = none)
include h hout hforwards hcpu hnoc

theorem State.CpuOffers.step_cache :
    step s = (s.chosen r rest).settle (.next (cacheRequest k q t ((s.chosen r rest).setTile k t))) := by
  have hwin : t.cfg.inWindow q.addr = false := Config.inWindow_of_outside hout
  have haccepts : t.accepts (.cache q) = true := by
    obtain hfun | hfree := hnoc
    · simp [Tile.accepts, hwin, hforwards, Tile.free, Retry.slot, hcpu, hfun]
    · simp [Tile.accepts, hwin, hforwards, Tile.free, Retry.slot, hcpu, hfree]
  exact h.step_accepted (by simp [cpuRequest, haccepts])

theorem State.CpuOffers.cache_fatal {c : FatalCode} (hfwd : forward q t = .ends (.fatal c)) :
    step s = .next ((s.chosen r rest).raise k c) := by
  rw [h.step_cache hout hforwards hcpu hnoc, cacheRequest, hfwd]
  exact State.settle_commit_fatal h.running_taken h.tile_taken

/-- The step of a request that its own tile is done with. -/
theorem State.CpuOffers.cache_done {u : Tile} {o : Option Item} (hev : t.Evolves u)
    (hrule : cacheRequest k q t ((s.chosen r rest).setTile k t) = ((s.chosen r rest).setTile k t).commit k (.done u o)) :
    step s = .next ((s.chosen r rest).commit k (.done u o)) := by
  rw [h.step_cache hout hforwards hcpu hnoc, hrule, State.commit_done_setTile]
  exact State.settle_commit_done o h.running (hev.fatal.trans h.fatal)

end

/-- Settles O55. -/
theorem cacheRequestForwarded : Obligations.CacheRequestForwarded := by
  intro s k r rest t q need m h hout hforwards hcpu hnoc hm
  subst hm
  have hfree : q.functional = true ∨ t.retry.nocReq = none := .inr hnoc
  refine ⟨fun hcls => ?_, fun code hcode => ?_, fun haccess hcheck => ⟨fun hlarge => ?_, fun hsize => ⟨fun hnone => ?_,
    fun a ha hfun => ?_⟩⟩⟩
  · exact h.cache_done (o := none) hout hforwards hcpu hfree .of_eq (by simp [cacheRequest, forward, hcls])
  · exact h.cache_done (u := t.deny code .cpu t.cfg.memEp q.addr q.size)
      (o := some (.cpuResp (.memResp false .denied q.addr []))) hout hforwards hcpu hfree (.deny ..)
      (by simp only [cacheRequest, forward_of_denied hcode, refuseCpu])
  · exact h.cache_fatal hout hforwards hcpu hfree ((forward_of_access haccess).trans (forwardAccess_of_tooLarge hcheck hlarge))
  · exact h.cache_fatal hout hforwards hcpu hfree
      ((forward_of_access haccess).trans (forwardAccess_of_noTarget hcheck hsize hnone))
  · have hfwd := forward_eq_forwarded_iff.2 ⟨haccess, hcheck, hsize, ha⟩
    exact h.cache_done (u := t.requested .cpu t.cfg.memEp (forwardReq .cacheMemReq need a q t) q.addr) (o := some (.nocReq _))
      hout hforwards hcpu hfree .of_eq (by rw [cacheRequest, hfwd]; simp only [hfun, Bool.false_eq_true, if_false]; rfl)

/-! ## Functional requests at their target (41_memory_unit R272) -/

section
variable {need : Dir} {a : NocAddress} {q : CacheReq} {t : Tile}

theorem forwardReq_need : (forwardReq .cacheMemReqFunc need a q t).need = need := by
  cases need <;> rfl

/-- A functional request is malformed when it writes and its data is not as long as its size. -/
theorem malformedRequest_forwardReq_iff :
    malformedRequest (forwardReq .cacheMemReqFunc need a q t) = true ↔ need = .write ∧ q.data.length ≠ q.size := by
  rw [malformedRequest, forwardReq_need]
  cases need <;> simp [forwardReq]

variable {u : Tile}

theorem serveFunctional_of_ok {p : Tile × NocResp} {req : NocReq} (h : functionalRule req u = .ok p) :
    serveFunctional req u = .ok p := by
  simp [serveFunctional, h]

theorem serveFunctional_of_fatal {c : FatalCode} {req : NocReq} (h : functionalRule req u = .error c)
    (hext : u.cfg.externalErrorsAsDenial = false) : serveFunctional req u = .error c := by
  simp [serveFunctional, h, hext]

theorem serveFunctional_of_externalised {c : FatalCode} {req : NocReq} (h : functionalRule req u = .error c)
    (hext : u.cfg.externalErrorsAsDenial = true) :
    serveFunctional req u = .ok (u.denyExternal req, functionalResp .denied []) := by
  simp [serveFunctional, h, hext]

end

section
variable {s : State} {k j : Nat} {q : CacheReq} {r : Bool} {rest : List Turn} {t u : Tile} {need : Dir} {a : NocAddress}
  (h : s.CpuOffers k (.cache q) r rest t)
  (hout : q.addr < t.cfg.regBase ∨ t.cfg.regBase + 16 * (t.cfg.numEndpoints + 1) * t.cfg.WB ≤ q.addr)
  (hforwards : t.cfg.forwardsAddr q.addr = true) (hcpu : t.retry.cpuResp = none) (hfun : q.functional = true)
  (hfwd : forward q t = .forwarded need a) (hcore : t.cfg.nocCore a = j)
include h hout hforwards hcpu hfun hfwd

theorem State.CpuOffers.step_functional :
    step s = (s.chosen r rest).settle (.next (functionalAccess k need a q t ((s.chosen r rest).setTile k t))) := by
  rw [h.step_cache hout hforwards hcpu (.inl hfun), cacheRequest, hfwd]
  simp only [hfun, if_true]

include hcore

theorem State.CpuOffers.functional_untaken (hnone : s.tiles[j]? = none) :
    step s = .next ((s.chosen r rest).raise k .transactionError) := by
  have hnone' : ((s.chosen r rest).setTile k t).tiles[j]? = none := by simpa using hnone
  rw [h.step_functional hout hforwards hcpu hfun hfwd]
  simp only [functionalAccess, hcore, hnone']
  exact State.settle_raise h.running_taken (by simpa using h.lt)

variable (hu : (s.tiles.set k t)[j]? = some u)
include hu

theorem State.CpuOffers.functional_fatal {c : FatalCode}
    (hserve : serveFunctional (forwardReq .cacheMemReqFunc need a q t) u = .error c) :
    step s = .next ((s.chosen r rest).raise j c) := by
  have hu' : ((s.chosen r rest).setTile k t).tiles[j]? = some u := hu
  rw [h.step_functional hout hforwards hcpu hfun hfwd]
  simp only [functionalAccess, hcore, hu', hserve]
  exact State.settle_raise h.running_taken (List.getElem?_eq_some_iff.1 hu').1

/-- The target becomes `u'` and the CPU is offered the answer. -/
theorem State.CpuOffers.functional_answered {u' t' : Tile} {st : Status} {bytes : List Byte}
    (hserve : serveFunctional (forwardReq .cacheMemReqFunc need a q t) u = .ok (u', functionalResp st bytes))
    (hlen : st = .ok → need = .read → bytes.length = q.size) (ht' : ((s.tiles.set k t).set j u')[k]? = some t') :
    step s = .next
      (State.send { s.chosen r rest with tiles := (s.tiles.set k t).set j u' } k t'
        (.cpuResp (.memResp true st q.addr bytes))) := by
  have hu' : ((s.chosen r rest).setTile k t).tiles[j]? = some u := hu
  have hself : (((s.chosen r rest).setTile k t).setTile j u').tiles[k]? = some t' := ht'
  have hfatal : u'.fatal = none := (serveFunctional_evolves hserve).fatal.trans (State.fatal_eq_none h.running_taken hu')
  have hraised := State.raised_setTile h.running_taken hfatal (k := j)
  have hresp : forwardedResponse need q.size q.addr (functionalResp st bytes) t' =
      .done t' (some (.cpuResp (.memResp true st q.addr bytes))) :=
    if_neg fun ⟨hst, hneed, hne⟩ => hne (hlen hst hneed)
  rw [h.step_functional hout hforwards hcpu hfun hfwd]
  simp only [functionalAccess, hcore, hu', hserve, State.onTile_of_getElem? hself, hresp]
  exact State.settle_commit_done (some _) hraised (State.fatal_eq_none hraised hself)

end

/-! ## What a functional request does at its target -/

section
variable {u : Tile} {req : NocReq}

theorem functionalRule_of_misrouted (h : u.cfg.nocCore req.addr ≠ u.cfg.ownCoreId) : functionalRule req u = .error .misrouted :=
  if_pos h

variable (hcore : u.cfg.nocCore req.addr = u.cfg.ownCoreId)
include hcore

theorem functionalRule_of_window (h : u.cfg.inWindow (u.cfg.nocOff req.addr) = true) :
    functionalRule req u = functionalRegister req u := by
  simp [functionalRule, hcore, h]

theorem functionalRule_of_memory (h : u.cfg.inWindow (u.cfg.nocOff req.addr) = false) :
    functionalRule req u = functionalMemory req u := by
  simp [functionalRule, hcore, h]

omit hcore

theorem functionalRegister_of_check {c : FatalCode} (h : regCheck u.cfg (req.regAccess u.cfg) = some c) :
    functionalRegister req u = .error c := by
  simp [functionalRegister, h]

section
variable {i : Nat} (hlegal : (req.regAccess u.cfg).Legal u.cfg i)
include hlegal

theorem functionalRegister_of_command (hneed : req.need = .write) (hi : i = commandReg) :
    functionalRegister req u = .error .functionalCmdWrite := by
  have hwrite : (req.regAccess u.cfg).isWrite = true := decide_eq_true hneed
  simp [functionalRegister, hlegal.check, hlegal.index, hwrite, hi]

theorem functionalRegister_of_access (h : ¬((req.regAccess u.cfg).isWrite = true ∧ i = commandReg)) :
    functionalRegister req u =
      (nocRegAccess req u).map fun p => (p.1.recompute, functionalResp .ok (p.2.toBytes u.cfg)) := by
  simp only [functionalRegister, hlegal.check, hlegal.index, if_neg h]

theorem functionalRegister_of_read (hneed : req.need = .read) :
    functionalRegister req u = .ok (u.recompute, functionalResp .ok (natToBytes u.cfg.WB (u.reg i))) := by
  have hread : (req.regAccess u.cfg).isWrite = false := by simp [NocReq.regAccess, hneed]
  have haccess := nocRegAccess_eq_ok.2
    ⟨regAccess_of_read (o := .noc) hlegal hread, show malformedRequest req = false by simp [malformedRequest, hneed]⟩
  rw [functionalRegister_of_access hlegal (by simp [hread]), haccess]
  rfl

variable (hneed : req.need = .write) (hi : i ≠ commandReg)
include hneed hi

theorem functionalRegister_of_write (hform : malformedRequest req = false) :
    functionalRegister req u = .ok ((u.setReg i (bytesToNat req.data)).recompute, functionalResp .ok []) := by
  have haccess := nocRegAccess_eq_ok.2 ⟨regAccess_of_write (o := .noc) hlegal (decide_eq_true hneed) hi, hform⟩
  rw [functionalRegister_of_access hlegal fun h => hi h.2, haccess]
  rfl

theorem functionalRegister_of_malformed (hform : malformedRequest req = true) :
    functionalRegister req u = .error .malformedRequest := by
  rw [functionalRegister_of_access hlegal fun h => hi h.2,
    nocRegAccess_of_malformed (regAccess_of_write hlegal (decide_eq_true hneed) hi) hform]
  rfl

end

theorem functionalMemory_of_malformed (h : malformedRequest req = true) : functionalMemory req u = .error .malformedRequest :=
  if_pos h

variable (hform : malformedRequest req = false)
include hform

theorem functionalMemory_of_denied {code : DenialCode} (h : inboundCheck u req.need (u.cfg.nocOff req.addr) req.size = some code) :
    functionalMemory req u =
      .ok (u.deny code .noc u.cfg.inboundWindowEp (u.cfg.nocOff req.addr) req.size, functionalResp .denied []) := by
  simp [functionalMemory, hform, h]

variable (hcheck : inboundCheck u req.need (u.cfg.nocOff req.addr) req.size = none)
include hcheck

theorem functionalMemory_of_beyond (h : u.cfg.localMemSize < u.cfg.nocOff req.addr + req.size) :
    functionalMemory req u = .error .transactionError := by
  simp [functionalMemory, hform, hcheck, Config.beyondMem, h]

variable (hin : u.cfg.nocOff req.addr + req.size ≤ u.cfg.localMemSize)
include hin

theorem functionalMemory_of_read (h : req.need = .read) :
    functionalMemory req u = .ok (u, functionalResp .ok (u.mem.readBytes (u.cfg.nocOff req.addr) req.size)) := by
  rw [h] at hcheck
  simp [functionalMemory, hform, h, hcheck, Config.beyondMem, Nat.not_lt.2 hin]

theorem functionalMemory_of_write (h : req.need = .write) :
    functionalMemory req u =
      .ok ({ u with mem := u.mem.writeBytes (u.cfg.nocOff req.addr) req.data }, functionalResp .ok []) := by
  rw [h] at hcheck
  simp [functionalMemory, hform, h, hcheck, Config.beyondMem, Nat.not_lt.2 hin]

end

/-- Settles O56. -/
theorem functionalMemoryAccess : Obligations.FunctionalMemoryAccess := by
  intro s k j r rest t q need m a h hout hforwards hcpu hfun hm haccess hcheck hsize ha hcore
  subst hm
  have hfwd := forward_eq_forwarded_iff.2 ⟨haccess, hcheck, hsize, ha⟩
  refine ⟨h.functional_untaken hout hforwards hcpu hfun hfwd hcore, fun u w off hu hoff hw => ?_⟩
  subst hoff hw
  have answered {u' : Tile} {st : Status} {bytes : List Byte}
      (hrule : functionalRule (forwardReq .cacheMemReqFunc need a q t) u = .ok (u', functionalResp st bytes))
      (hlen : st = .ok → need = .read → bytes.length = q.size) (t' : Tile)
      (ht' : ((s.tiles.set k t).set j u')[k]? = some t') :=
    h.functional_answered hout hforwards hcpu hfun hfwd hcore hu (serveFunctional_of_ok hrule) hlen ht'
  have bad {c : FatalCode} (hrule : functionalRule (forwardReq .cacheMemReqFunc need a q t) u = .error c) :=
    And.intro
      (fun hext => h.functional_fatal hout hforwards hcpu hfun hfwd hcore hu (serveFunctional_of_fatal hrule hext))
      (fun hext t' ht' => h.functional_answered hout hforwards hcpu hfun hfwd hcore hu (t' := t')
        (serveFunctional_of_externalised hrule hext) (fun h => nomatch h) ht')
  have hneed := forwardReq_need (need := need) (a := a) (q := q) (t := t)
  refine ⟨fun hmis => bad (functionalRule_of_misrouted hmis), fun hown hbase hlimit => ?register, fun hown hmem => ?memory⟩
  case register =>
    have hwindow := functionalRule_of_window (req := forwardReq .cacheMemReqFunc need a q t) hown
      ((u.cfg.inWindow_iff _).2 ⟨hbase, hlimit⟩)
    refine ⟨fun hform => bad (hwindow.trans (functionalRegister_of_check (regCheck_of_form hform))),
      fun i hwidth haddr hvalid => ⟨fun hres => ?_, fun hlegal hread => ?_, fun hzero hwrite => ?_,
        fun hlow hfield hwrite hlen => ?_, fun hlow hfield hwrite hlen v hv => ?_⟩⟩
    · exact bad (hwindow.trans (functionalRegister_of_check
        (regCheck_of_reserved (Config.WB_pos hvalid) hwidth haddr ((reservedIndex_iff i).2 hres))))
    all_goals
      have legal : (i = 0 ∨ (16 ≤ i ∧ i % 16 ≠ 15)) →
          ((forwardReq .cacheMemReqFunc need a q t).regAccess u.cfg).Legal u.cfg i :=
        RegAccess.legal_of_valid hvalid hwidth haddr
    · refine answered (hwindow.trans (functionalRegister_of_read (legal hlegal) (hneed.trans hread))) fun _ _ => ?_
      rw [length_natToBytes, hwidth]
    · exact bad (hwindow.trans (functionalRegister_of_command (legal (.inl hzero)) (hneed.trans hwrite) hzero))
    · exact bad (hwindow.trans (functionalRegister_of_malformed (legal (.inr ⟨hlow, hfield⟩)) (hneed.trans hwrite)
        (show i ≠ 0 by omega) (malformedRequest_forwardReq_iff.2 ⟨hwrite, hwidth ▸ hlen⟩)))
    · have hform : malformedRequest (forwardReq .cacheMemReqFunc need a q t) = false := by
        rw [← Bool.not_eq_true, malformedRequest_forwardReq_iff]
        exact fun h => h.2 (hlen.trans hwidth.symm)
      subst hv hwrite
      exact answered (hwindow.trans (functionalRegister_of_write (legal (.inr ⟨hlow, hfield⟩)) rfl
        (show i ≠ 0 by omega) hform)) fun _ hread => nomatch hread
  case memory =>
    have hmemory := functionalRule_of_memory (req := forwardReq .cacheMemReqFunc need a q t) hown
      (Config.inWindow_of_outside hmem)
    refine ⟨fun hwrite hlen => bad (hmemory.trans (functionalMemory_of_malformed
      (malformedRequest_forwardReq_iff.2 ⟨hwrite, hlen⟩))), fun hlen => ?_⟩
    have hform : malformedRequest (forwardReq .cacheMemReqFunc need a q t) = false := by
      rw [← Bool.not_eq_true, malformedRequest_forwardReq_iff]
      exact fun h => h.2 (hlen h.1)
    have denied {code : DenialCode} (hcheck : inboundCheck u need (u.cfg.nocOff a) q.size = some code) :=
      answered (hmemory.trans (functionalMemory_of_denied hform (hneed.symm ▸ hcheck))) fun h => nomatch h
    refine ⟨fun hread hclear => denied (inboundCheck_of_clear (.inl ⟨hread, hclear, rfl⟩)),
      fun hwrite hclear => denied (inboundCheck_of_clear (.inr ⟨hwrite, hclear, rfl⟩)), fun hperm hbelow => denied ?_,
      fun hperm hbase => ⟨fun hover => denied ?_, fun hfits => ⟨fun hlarge => denied ?_, fun hregion => ?_⟩⟩⟩
    · rw [inboundCheck_of_permits hperm, if_pos hbelow]
    · rw [inboundCheck_of_permits hperm, if_neg (Nat.not_lt.2 hbase), if_pos hover]
    · rw [inboundCheck_of_permits hperm, if_neg (Nat.not_lt.2 hbase), if_neg (Nat.not_le.2 hfits), if_pos hlarge]
    · have hok : inboundCheck u (forwardReq .cacheMemReqFunc need a q t).need (u.cfg.nocOff a) q.size = none := by
        rw [hneed, inboundCheck_of_permits hperm, if_neg (Nat.not_lt.2 hbase), if_neg (Nat.not_le.2 hfits),
          if_neg (Nat.not_lt.2 hregion)]
      refine ⟨fun hbeyond => bad (hmemory.trans (functionalMemory_of_beyond hform hok hbeyond)),
        fun hin => ⟨fun hread => ?_, fun hwrite hwf => ?_⟩⟩
      · exact ⟨u.mem.readBytes (u.cfg.nocOff a) q.size,
          answered (hmemory.trans (functionalMemory_of_read hform hok hin (hneed.trans hread)))
            fun _ _ => Memory.length_readBytes ..,
          Memory.length_readBytes .., fun n hn => Memory.readBytes_getElem? _ _ _ _ hn⟩
      · have hsame := hlen hwrite
        subst hwrite
        refine ⟨u.mem.writeBytes (u.cfg.nocOff a) q.data,
          answered (hmemory.trans (functionalMemory_of_write hform hok hin rfl)) (fun _ hread => nomatch hread),
          fun n hn => ?_, fun x hx => Memory.read_writeBytes_outside _ _ _ _ (by omega)⟩
        rw [Memory.read_writeBytes_inside _ _ _ _ hwf (hsame ▸ hn)]
        exact List.getElem?_eq_getElem _

end Sys2Proof.Machine
end
